-- ==== Sys2Proof/Word.lean ====
section
/-!
DEFINITION. The word types of the controller: bytes, the 16-bit identity values, the 32-bit latch and descriptor words
(00_scope.md R7), a function's 256-byte cell and the device environment value (10_state.md R30).
-/

namespace Sys2Proof

/-- One byte of configuration space (R27). -/
abbrev Byte := BitVec 8

/-- A 16-bit identity value, `D.vid` or `D.did` (R29). -/
abbrev Half := BitVec 16

/-- A 32-bit word: the latch (R23), a descriptor or a write's data (R76). -/
abbrev Word := BitVec 32

/-- The 256-byte cell a hook sees, an array indexed 0x00..0xFF (R30). It is never a field of the state. -/
abbrev Cell := Byte → Byte

/-- The opaque device-environment value `E` (R30), coded as a natural number. -/
abbrev Env := Nat

/-- The widths a transfer may have: 1, 2 or 4 bytes (R57, DATA_WIDTHS of R6). -/
inductive Width
  | w1
  | w2
  | w4
  deriving DecidableEq, Repr

/-- `w` as a number of bytes. -/
def Width.bytes : Width → Nat
  | .w1 => 1
  | .w2 => 2
  | .w4 => 4

/-- The width code WID of R77: 00, 01, 10. -/
def Width.code : Width → BitVec 2
  | .w1 => 0#2
  | .w2 => 1#2
  | .w4 => 2#2

end Sys2Proof
end

