-- ==== Sys2Proof/Config.lean ====
section
/-!
DEFINITION. What the implementation fixes (00_scope.md R6) and what the spec leaves open. The ports and P_ADDR_NARROW are
arguments of the decoder and of the step relation (R5(i), `Params`); the other parameters without a value and the draws are
`opaque` constants without a body, so that nothing can be proved about their values.
-/

namespace Sys2Proof

/-- The port parameters ADDR_PORT and DATA_BASE (R6, R78). -/
structure Ports where
  addrPort : BitVec 16
  dataBase : BitVec 16
  deriving DecidableEq, Repr

/-- R78: DATA_BASE is a multiple of 4 and ADDR_PORT lies outside DATA_BASE..DATA_BASE+3. -/
def Ports.wf (p : Ports) : Bool :=
  p.dataBase.extractLsb' 0 2 == 0#2 && p.addrPort.extractLsb' 2 14 != p.dataBase.extractLsb' 2 14

/-- P_ADDR_NARROW where it is not a refusal (R56, R102): what a 1- or 2-byte read of the address port returns, from the width,
LATCH and the number of the draw it takes. Such an access writes nothing: R102 says that it is never a partial latch update,
and no rule lets it write other state (R40; DEDUCED, log 9). -/
abbrev NarrowRead := Width → Word → Nat → Word

/-- The implementation parameters that the model takes as an argument (R5(i), R6, decisions D3, D4): the ports, and
P_ADDR_NARROW, which is `none` for a refusal. -/
structure Params where
  ports : Ports
  narrow : Option NarrowRead

/-- R78's requirement on the parameters. -/
def Params.wf (p : Params) : Bool := p.ports.wf

/-- The default ports 0x0CF8 and 0x0CFC of R6 and R82.
PRESUMED (the spec marks the numbers as general knowledge, K1), unsafe if the platform differs: log 8. -/
def Config.ports : Ports := { addrPort := 0x0CF8#16, dataBase := 0x0CFC#16 }

/-- The default parameters: the default ports, and a narrow access to the address port is refused (R56, R80; log 9). -/
def Config.params : Params := { ports := Config.ports, narrow := none }

/-- QUEUE_CAP of R6: the pending-registration queue holds at most 16 records. -/
def Config.queueCap : Nat := 16

/-- N_SLOTS of R6. -/
def Config.nSlots : Nat := 32

/-- The `n`-th draw of the device environment `E` (R30): a fresh free value for every hook call. Log 3. -/
opaque Config.envDraw : Nat → Env

/-- The `n`-th draw of P_UNCLAIMED_READ (R6, R62): what an I/O read returns while the block is not bound. Log 3. -/
opaque Config.unclaimedRead : Nat → Word

/-- P_LEGACY_CB_INDEX (R6, R185): the fixed callback index, whose value the source omits. Log 10. -/
opaque Config.legacyCbIndex : Nat

/-- P_LEGACY_CB_RESULT (R6, R185): the fixed result code, whose value the source omits. Log 10. -/
opaque Config.legacyCbResult : Nat

/-- The `initialize_registers` hook of device model `n` (R30): any function of the signature. Log 4. -/
opaque Config.deviceInit : (n : Nat) → Env → Cell → Option Cell

/-- The `parse_write_register` hook of device model `n` (R30): any function of the signature. Log 4. -/
opaque Config.devicePw : (n : Nat) → Env → Cell → (r v : Byte) → Cell × Option Byte

/-- The `parse_read_register` hook of device model `n` (R30): any function of the signature. Log 4. -/
opaque Config.devicePr : (n : Nat) → Env → Cell → (r : Byte) → Cell × Option Byte

/-- The `override_read_register` hook of device model `n` (R30): any function of the signature. Log 4. -/
opaque Config.deviceOvr : (n : Nat) → Env → Cell → (r : Byte) → Cell × Option (Byte × Byte)

end Sys2Proof
end

