-- ==== Sys2Proof/Syntax.lean ====
section
/-!
DEFINITION. The transactions of the controller, one constructor per row of spec/opcode_table.json (30_encoding.md R82), with
their operands; the device record that REGISTER presents (10_state.md R29 to R31), its hooks written as plain data (log 4);
and the form in which the host presents a transaction (R76).
-/

namespace Sys2Proof

/-- A byte that a hook written as data computes from its arguments (R30): `reg` is `r`, `val` is `v`, `env i` is byte `i` of
`E`, and `cell e` is the byte of the device's own cell at offset `e`. Log 4. -/
inductive HookExpr
  | lit (b : Byte)
  | reg
  | val
  | env (i : Nat)
  | cell (e : HookExpr)
  | not (e : HookExpr)
  | and (e₁ e₂ : HookExpr)
  | or (e₁ e₂ : HookExpr)
  | xor (e₁ e₂ : HookExpr)
  | add (e₁ e₂ : HookExpr)
  deriving DecidableEq, Repr

/-- One own-cell write of a hook: the byte `value` at offset `offset` (R30, R32). -/
structure HookSet where
  offset : HookExpr
  value : HookExpr
  deriving DecidableEq, Repr

/-- What a hook does for a register `r` with `lo ≤ r ≤ hi`: its own-cell writes, in order, and then its result. -/
structure HookClause (α : Type) where
  lo : Byte
  hi : Byte
  sets : List HookSet
  result : α
  deriving DecidableEq, Repr

/-- A register hook of a device record (R30).
`default` is R31's "no special behavior"; `prog` is a hook written as data, whose first clause that covers `r` applies and
which is `default` where none does; `device n` is any other hook, the free function of device model `n` in Config;
`unconfined` is a hook that breaks R32 (it issues a transaction or touches another cell). -/
inductive Hook (α : Type)
  | default
  | prog (clauses : List (HookClause α))
  | device (n : Nat)
  | unconfined
  deriving DecidableEq, Repr

/-- The `initialize_registers` hook (R30). A device must supply one (R31), so it has no default: `prog` writes the given
bytes and succeeds; `fail` returns `None`; `device` and `unconfined` are as for `Hook`. -/
inductive InitHook
  | prog (sets : List HookSet)
  | fail
  | device (n : Nat)
  | unconfined
  deriving DecidableEq, Repr

/-- A device record (R29). `ref` tells one record from another: two presentations are of the same record exactly when their
`ref` is the same (log 5). The record's `ident` is written by the controller and stands in `Machine.State.idents`. -/
structure Device where
  ref : Nat
  vid : Half
  did : Half
  init : InitHook
  pw : Hook (Option HookExpr)
  pr : Hook (Option HookExpr)
  ovr : Hook (Option (HookExpr × HookExpr))
  deriving DecidableEq, Repr

/-- The record whose every operand word is zero: vendor and device 0, an `init` that leaves the cell as it is, and the
default hooks of R31. -/
def Device.zero : Device :=
  { ref := 0, vid := 0#16, did := 0#16, init := .prog [], pw := .default, pr := .default, ovr := .default }

/-- The transactions, one constructor per row of the opcode table (R82); `k` is the port offset in 0..3 (R78). -/
inductive Instr
  | addrRd
  | addrWr (wdata : Word)
  | dataRd8 (k : BitVec 2)
  | dataRd16 (k : BitVec 2)
  | dataRd32 (k : BitVec 2)
  | dataWr8 (k : BitVec 2) (wdata : Word)
  | dataWr16 (k : BitVec 2) (wdata : Word)
  | dataWr32 (k : BitVec 2) (wdata : Word)
  | construct
  | register (d : Device) (slotReq : Option Byte)
  | shutdown
  | destroy
  | legacyCb
  deriving DecidableEq, Repr

/-- The out-of-band operands of a transaction (R76): `WDATA` of an I/O write, `D` and `SLOTREQ` of REGISTER. -/
structure OutOfBand where
  wdata : Word
  dev : Device
  slotReq : Option Byte
  deriving DecidableEq, Repr

/-- Operands that are all zero: those of a transaction that carries none. -/
def OutOfBand.zero : OutOfBand := { wdata := 0#32, dev := Device.zero, slotReq := none }

/-- A transaction as the host presents it (R76): the 32-bit descriptor word and the out-of-band operands. -/
structure Transaction where
  desc : Word
  oob : OutOfBand
  deriving DecidableEq, Repr

/-- Why the decoder refuses a transaction: the five reasons of R81, and a device record that does not fit the hook
signatures of R30 (log 12). -/
inductive DecodeRefusal
  | reservedClass
  | reservedWidth
  | nonzeroReservedBits
  | reservedCommand
  | narrowAddressAccess
  | malformedRecord
  deriving DecidableEq, Repr

/-- What the decoder returns (R81): a transaction of the opcode table, a refusal, or `NotThisBlock`; and, under a
P_ADDR_NARROW that is not the refusal of R80, a narrow access to the address port (R78), which is no transaction of the table
(R102). -/
inductive Decoded
  | instr (i : Instr)
  | narrow (write : Bool) (w : Width)
  | refused (reason : DecodeRefusal)
  | notThisBlock
  deriving DecidableEq, Repr

end Sys2Proof
end

