-- ==== Sys2Proof/WellFormed.lean ====
section
/-!
DEFINITION. Which transactions are well formed. Every operand of an I/O transaction or a plain host command is legal by its
type (R57, R76); a REGISTER presents a device record whose hooks fit R30's signatures: `init` is given `E` and the cell
only, `pr` and `ovr` are given no `v`, and a clause covers a range of registers that is not empty.
-/

namespace Sys2Proof

/-- Which of a hook's arguments an expression may name, beside `E` and the cell: the register `r`, the value `v` (R30). -/
structure HookArgs where
  reg : Bool
  val : Bool
  deriving DecidableEq, Repr

/-- The arguments of `D.init` (R30). -/
def HookArgs.init : HookArgs := { reg := false, val := false }

/-- The arguments of `D.pr` and `D.ovr` (R30). -/
def HookArgs.read : HookArgs := { reg := true, val := false }

/-- The arguments of `D.pw` (R30). -/
def HookArgs.write : HookArgs := { reg := true, val := true }

/-- The expression names only arguments that the hook is given. -/
def HookExpr.wf (a : HookArgs) : HookExpr → Bool
  | .lit _ => true
  | .reg => a.reg
  | .val => a.val
  | .env _ => true
  | .cell e => e.wf a
  | .not e => e.wf a
  | .and e₁ e₂ => e₁.wf a && e₂.wf a
  | .or e₁ e₂ => e₁.wf a && e₂.wf a
  | .xor e₁ e₂ => e₁.wf a && e₂.wf a
  | .add e₁ e₂ => e₁.wf a && e₂.wf a

/-- An own-cell write is well formed when both its expressions are. -/
def HookSet.wf (a : HookArgs) (s : HookSet) : Bool := s.offset.wf a && s.value.wf a

/-- A hook's `Option` byte result (R30: `pw`, `pr`). -/
def byteResultWf (a : HookArgs) : Option HookExpr → Bool
  | none => true
  | some e => e.wf a

/-- A hook's `Option` pair of value and mask (R30: `ovr`). -/
def blendResultWf (a : HookArgs) : Option (HookExpr × HookExpr) → Bool
  | none => true
  | some (v, m) => v.wf a && m.wf a

/-- A clause covers some register, and its expressions are well formed. -/
def HookClause.wf {α : Type} (a : HookArgs) (res : α → Bool) (c : HookClause α) : Bool :=
  decide (c.lo ≤ c.hi) && c.sets.all (HookSet.wf a) && res c.result

/-- A register hook fits its signature. -/
def Hook.wf {α : Type} (a : HookArgs) (res : α → Bool) : Hook α → Bool
  | .default => true
  | .prog cs => cs.all (HookClause.wf a res)
  | .device _ => true
  | .unconfined => true

/-- An `init` hook fits its signature. -/
def InitHook.wf : InitHook → Bool
  | .prog sets => sets.all (HookSet.wf .init)
  | .fail => true
  | .device _ => true
  | .unconfined => true

/-- All four hooks of the record fit R30's signatures. -/
def Device.wf (d : Device) : Bool :=
  d.init.wf && d.pw.wf .write (byteResultWf .write) && d.pr.wf .read (byteResultWf .read)
    && d.ovr.wf .read (blendResultWf .read)

/-- Well-formed transactions. -/
def Instr.wf : Instr → Bool
  | .addrRd => true
  | .addrWr _ => true
  | .dataRd8 _ => true
  | .dataRd16 _ => true
  | .dataRd32 _ => true
  | .dataWr8 _ _ => true
  | .dataWr16 _ _ => true
  | .dataWr32 _ _ => true
  | .construct => true
  | .register d _ => d.wf
  | .shutdown => true
  | .destroy => true
  | .legacyCb => true

end Sys2Proof
end

