-- ==== Sys2Proof/Decode.lean ====
section
/-!
DEFINITION. The descriptor decoder, total on all 2^32 words (30_encoding.md R76 to R81), and after it the encoder, written
from the same table. Both take the parameters of R6 (R5(i)); `Config.params` holds their defaults.
-/

namespace Sys2Proof

/-- The width that WID names (R77); WID = 11 is reserved. -/
def widthOfCode (wid : BitVec 2) : Option Width :=
  if wid = 0#2 then some .w1
  else if wid = 1#2 then some .w2
  else if wid = 2#2 then some .w4
  else none

/-- The data-port read of a width (R82). -/
def dataReadInstr (w : Width) (k : BitVec 2) : Instr :=
  match w with
  | .w1 => .dataRd8 k
  | .w2 => .dataRd16 k
  | .w4 => .dataRd32 k

/-- The data-port write of a width (R82). -/
def dataWriteInstr (w : Width) (k : BitVec 2) (wdata : Word) : Instr :=
  match w with
  | .w1 => .dataWr8 k wdata
  | .w2 => .dataWr16 k wdata
  | .w4 => .dataWr32 k wdata

/-- R78: a narrow access to the address port is what P_ADDR_NARROW says: a refusal by default (R80, R102; log 9). -/
def decodeNarrow (p : Params) (write : Bool) (w : Width) : Decoded :=
  match p.narrow with
  | none => .refused .narrowAddressAccess
  | some _ => .narrow write w

/-- R78: the port decode of an I/O descriptor whose width is `w`; `write` is CLASS = 01. -/
def decodePort (p : Params) (write : Bool) (w : Width) (port : BitVec 16) (wdata : Word) : Decoded :=
  if port = p.ports.addrPort then
    if w = .w4 then .instr (if write then .addrWr wdata else .addrRd)
    else decodeNarrow p write w
  else if port.extractLsb' 2 14 = p.ports.dataBase.extractLsb' 2 14 then
    .instr (if write then dataWriteInstr w (port.extractLsb' 0 2) wdata else dataReadInstr w (port.extractLsb' 0 2))
  else .notThisBlock

/-- An I/O descriptor, CLASS = 00 or 01 (R76, R80). -/
def decodeIo (p : Params) (write : Bool) (d : Word) (wdata : Word) : Decoded :=
  match widthOfCode (d.extractLsb' 28 2) with
  | none => .refused .reservedWidth
  | some w =>
    if d.extractLsb' 16 12 ≠ 0#12 then .refused .nonzeroReservedBits
    else decodePort p write w (d.extractLsb' 0 16) wdata

/-- A host command, CLASS = 10 (R79, R80). -/
def decodeHost (d : Word) (o : OutOfBand) : Decoded :=
  if d.extractLsb' 8 22 ≠ 0#22 then .refused .nonzeroReservedBits
  else if d.extractLsb' 0 8 = 1#8 then .instr .construct
  else if d.extractLsb' 0 8 = 2#8 then .instr (.register o.dev o.slotReq)
  else if d.extractLsb' 0 8 = 3#8 then .instr .shutdown
  else if d.extractLsb' 0 8 = 4#8 then .instr .destroy
  else if d.extractLsb' 0 8 = 5#8 then .instr .legacyCb
  else .refused .reservedCommand

/-- R81: the descriptor decoder, on any word. Where several reasons to refuse hold, the class is looked at first, then the
width, the must-be-zero bits, and the port or command (DESIGN CHOICE, safe: log 11). -/
def decodeWord (p : Params) (d : Word) (o : OutOfBand) : Decoded :=
  if d.extractLsb' 30 2 = 3#2 then .refused .reservedClass
  else if d.extractLsb' 30 2 = 2#2 then decodeHost d o
  else decodeIo p (d.extractLsb' 30 2 = 1#2) d o.wdata

/-- The decoder of a presented transaction under the parameters `p`: the descriptor, and then the record it presents. -/
def decodeWith (p : Params) (t : Transaction) : Decoded :=
  match decodeWord p t.desc t.oob with
  | .instr i => if i.wf then .instr i else .refused .malformedRecord
  | .narrow write w => .narrow write w
  | .refused r => .refused r
  | .notThisBlock => .notThisBlock

/-- The decoder at the default parameters. -/
def decode (t : Transaction) : Decoded := decodeWith Config.params t

/-- The fixed host question: the transaction whose descriptor is the low `nbits` bits of `w` and whose operands are zero. -/
def decodeTableWord (nbits w : Nat) : Option Instr :=
  match decode { desc := BitVec.ofNat 32 (w % 2 ^ nbits), oob := OutOfBand.zero } with
  | .instr i => some i
  | .narrow _ _ => none
  | .refused _ => none
  | .notThisBlock => none

/-! ## The encoder -/

/-- An I/O descriptor (R76): CLASS, WID, twelve zero bits, PORT. -/
def encodeIo (cls : BitVec 2) (w : Width) (port : BitVec 16) : Word := cls ++ w.code ++ 0#12 ++ port

/-- A host command descriptor (R76): CLASS = 10, twenty-two zero bits, CMD. -/
def encodeHost (cmd : Byte) : Word := 2#2 ++ 0#22 ++ cmd

/-- The port DATA_BASE + k; DATA_BASE is a multiple of 4 (R78), so `k` stands in its low two bits. -/
def dataPort (p : Ports) (k : BitVec 2) : BitVec 16 := p.dataBase.extractLsb' 2 14 ++ k

/-- The descriptor word of a transaction under the ports `p` (R76 to R79, R82). -/
def encodeDesc (p : Ports) : Instr → Word
  | .addrRd => encodeIo 0#2 .w4 p.addrPort
  | .addrWr _ => encodeIo 1#2 .w4 p.addrPort
  | .dataRd8 k => encodeIo 0#2 .w1 (dataPort p k)
  | .dataRd16 k => encodeIo 0#2 .w2 (dataPort p k)
  | .dataRd32 k => encodeIo 0#2 .w4 (dataPort p k)
  | .dataWr8 k _ => encodeIo 1#2 .w1 (dataPort p k)
  | .dataWr16 k _ => encodeIo 1#2 .w2 (dataPort p k)
  | .dataWr32 k _ => encodeIo 1#2 .w4 (dataPort p k)
  | .construct => encodeHost 1#8
  | .register _ _ => encodeHost 2#8
  | .shutdown => encodeHost 3#8
  | .destroy => encodeHost 4#8
  | .legacyCb => encodeHost 5#8

/-- The out-of-band operands a transaction carries (R76); operands it does not carry are zero. -/
def encodeOob : Instr → OutOfBand
  | .addrRd => OutOfBand.zero
  | .addrWr wdata => { OutOfBand.zero with wdata := wdata }
  | .dataRd8 _ => OutOfBand.zero
  | .dataRd16 _ => OutOfBand.zero
  | .dataRd32 _ => OutOfBand.zero
  | .dataWr8 _ wdata => { OutOfBand.zero with wdata := wdata }
  | .dataWr16 _ wdata => { OutOfBand.zero with wdata := wdata }
  | .dataWr32 _ wdata => { OutOfBand.zero with wdata := wdata }
  | .construct => OutOfBand.zero
  | .register d slotReq => { OutOfBand.zero with dev := d, slotReq := slotReq }
  | .shutdown => OutOfBand.zero
  | .destroy => OutOfBand.zero
  | .legacyCb => OutOfBand.zero

/-- The encoder under the ports `p`. -/
def encodeWith (p : Ports) (i : Instr) : Transaction := { desc := encodeDesc p i, oob := encodeOob i }

/-- The encoder at the default ports. -/
def encode (i : Instr) : Transaction := encodeWith Config.ports i

/-! ## The opcode table (R82) -/

/-- One row of the opcode table: the words `d` with `d & mask = pattern`. -/
structure OpcodeRow where
  pattern : Word
  mask : Word
  deriving DecidableEq, Repr

/-- The word matches the row. -/
def OpcodeRow.covers (row : OpcodeRow) (d : Word) : Bool := d &&& row.mask == row.pattern

/-- The row of a transaction, as R82 and spec/opcode_table.json print it for the default ports. -/
def opcodeRow : Instr → OpcodeRow
  | .addrRd => { pattern := 0x20000CF8#32, mask := 0xFFFFFFFF#32 }
  | .addrWr _ => { pattern := 0x60000CF8#32, mask := 0xFFFFFFFF#32 }
  | .dataRd8 _ => { pattern := 0x00000CFC#32, mask := 0xFFFFFFFC#32 }
  | .dataRd16 _ => { pattern := 0x10000CFC#32, mask := 0xFFFFFFFC#32 }
  | .dataRd32 _ => { pattern := 0x20000CFC#32, mask := 0xFFFFFFFC#32 }
  | .dataWr8 _ _ => { pattern := 0x40000CFC#32, mask := 0xFFFFFFFC#32 }
  | .dataWr16 _ _ => { pattern := 0x50000CFC#32, mask := 0xFFFFFFFC#32 }
  | .dataWr32 _ _ => { pattern := 0x60000CFC#32, mask := 0xFFFFFFFC#32 }
  | .construct => { pattern := 0x80000001#32, mask := 0xFFFFFFFF#32 }
  | .register _ _ => { pattern := 0x80000002#32, mask := 0xFFFFFFFF#32 }
  | .shutdown => { pattern := 0x80000003#32, mask := 0xFFFFFFFF#32 }
  | .destroy => { pattern := 0x80000004#32, mask := 0xFFFFFFFF#32 }
  | .legacyCb => { pattern := 0x80000005#32, mask := 0xFFFFFFFF#32 }

/-- The thirteen rows, in the table's order. -/
def opcodeTable : List OpcodeRow :=
  [opcodeRow .addrRd, opcodeRow (.addrWr 0#32), opcodeRow (.dataRd8 0#2), opcodeRow (.dataRd16 0#2), opcodeRow (.dataRd32 0#2),
    opcodeRow (.dataWr8 0#2 0#32), opcodeRow (.dataWr16 0#2 0#32), opcodeRow (.dataWr32 0#2 0#32), opcodeRow .construct,
    opcodeRow (.register Device.zero none), opcodeRow .shutdown, opcodeRow .destroy, opcodeRow .legacyCb]

end Sys2Proof
end

