-- ==== Sys2Proof/Machine/State.lean ====
section
/-!
DEFINITION. The state of the machine: the spec's tuple (10_state.md R20) as `Controller`, and beside it the model's own
fields, the host's pending transactions, the count of free draws and the answer to the latest transaction. All of it is
plain data.
-/

namespace Sys2Proof.Machine

/-- The lifecycle phase (R21). The port bindings and the legacy callback are installed exactly in `init`. -/
inductive Phase
  | absent
  | uninit
  | init
  deriving DecidableEq, Repr

/-- The identity of a registered record, its `(slot, function)` pair (R29). -/
structure Ident where
  slot : Fin 32
  fn : Fin 8
  deriving DecidableEq, Repr

/-- The configuration-space store (R27) as a canonical list of cells: addresses strictly rising, no byte 0x00 listed. The
address of `STORE[s][f][r]` is `s * 2048 + f * 256 + r`; an unlisted address reads as 0x00 (log 6). -/
abbrev Memory := List Host.Cell

/-- The controller state, R20's tuple `(PHASE, FAULT, LATCH, SLOT, SUB, NSUB, INSTALLED, STORE, QUEUE)`, and the `ident` of
every device record that has one (R20, R29), keyed by the record's `ref`, in order of registration (log 5). -/
structure Controller where
  /-- PHASE (R21). -/
  phase : Phase
  /-- FAULT (R22). -/
  fault : Bool
  /-- LATCH, the CONFIG_ADDRESS latch (R23). -/
  latch : Word
  /-- SLOT[s]: the primary device of slot `s` (R24). -/
  slot : Vector (Option Device) 32
  /-- SUB[s][i]: the secondary device of slot `s` reached as function `i + 1` (R25). -/
  sub : Vector (Vector (Option Device) 7) 32
  /-- NSUB[s]: the subdevice count of slot `s`, 0..7 (R25). -/
  nsub : Vector (Fin 8) 32
  /-- INSTALLED (R26). It is 0..32 in every state a run reaches (`InvDrain`); the type sets no bound (log 17). -/
  installed : Nat
  /-- STORE (R27). -/
  store : Memory
  /-- QUEUE, oldest first (R28). -/
  queue : List Device
  /-- `D.ident` of every record whose identity is set (R29); it outlives the record's release (R182). -/
  idents : List (Nat × Ident)
  deriving DecidableEq, Repr

/-- Why a registration is rejected (R211 codes 0x20 to 0x23). -/
inductive RejectReason
  | badSlot
  | noFreeSlot
  | functionsFull
  | initFailed
  deriving DecidableEq, Repr

/-- The contract violations that set FAULT (R211 codes 0x30 and 0x31). -/
inductive FatalReason
  | alreadyRegistered
  | subfunctionOccupied
  deriving DecidableEq, Repr

/-- The outcome a host command returns to its caller (R211). -/
inductive HostOutcome
  | done
  | ok (slot : Fin 32)
  | handled (code : Nat)
  | queued
  | queueOverflow
  | rejected (reason : RejectReason)
  | fatal (reason : FatalReason)
  deriving DecidableEq, Repr

/-- The internal reasons of R211 codes 0x01 to 0x08, kept as trace labels. -/
inductive Cause
  | noOpDisabled
  | noOpNoDevice
  | noOpEmptySlot
  | noOpNoFunction
  | dropReadOnly
  | dropSubsystem
  | dropHookVeto
  | readHookDecline
  deriving DecidableEq, Repr

/-- What the latest transaction returned (R76): an I/O read exactly `8w` bits (R57), a host command an outcome, an I/O write
nothing. -/
inductive Result
  | nothing
  | rdata8 (v : BitVec 8)
  | rdata16 (v : BitVec 16)
  | rdata32 (v : BitVec 32)
  | outcome (o : HostOutcome)
  deriving DecidableEq, Repr

/-- The machine's state: the spec's controller state, and the model's own fields. -/
structure State extends Controller where
  /-- The transactions the host will issue, next first: the "program" (R5, R37). The model's field, log 1. -/
  input : List Transaction
  /-- How many free draws were taken so far (R30, R62). The model's field, log 3. -/
  draws : Nat
  /-- What the latest transaction returned (R76). The model's field, log 2. -/
  result : Result
  /-- The internal reasons of the latest transaction, in order (R211). The model's field, log 2. -/
  trace : List Cause
  deriving DecidableEq, Repr

/-- The controller at power-on (R39). STORE is unspecified there; it reads as zero (DESIGN CHOICE, log 6). -/
def Controller.powerOn : Controller :=
  { phase := .absent
    fault := false
    latch := 0#32
    slot := Vector.replicate 32 none
    sub := Vector.replicate 32 (Vector.replicate 7 none)
    nsub := Vector.replicate 32 0
    installed := 0
    store := []
    queue := []
    idents := [] }

/-- The machine at power-on, before any host transaction (R39); no transaction is pending. -/
def State.reset : State :=
  { Controller.powerOn with input := [], draws := 0, result := .nothing, trace := [] }

/-- The reasons the machine stops with a fault. The block itself raises none (R210, R220). -/
inductive Fault
  /-- Raised by `step` when the host has presented no transaction, so that there is no step to take (R4, R5). Safe. Log 1. -/
  | noTransaction
  deriving DecidableEq, Repr

/-- The reasons a transaction is refused, R211 code 0x40: the step does not happen and the state is unchanged. -/
inductive Refusal
  /-- Raised by `exec` for an instruction that has no meaning yet. Safe. -/
  | notModelled (mnemonic : String)
  /-- Raised by `step` when the decoder refuses the transaction (R80, R81). Safe. -/
  | descriptor (reason : DecodeRefusal)
  /-- Raised by `step` for a descriptor that is addressed to another I/O device (R78, R80). Safe. -/
  | notThisBlock
  /-- Raised by every transaction while FAULT = 1 (R22, R214). Safe. Log 13. -/
  | faultSet
  /-- Raised by CONSTRUCT while a controller exists (R170). Safe. -/
  | controllerExists
  /-- Raised by SHUTDOWN and DESTROY while PHASE = Absent (R182, R184). Safe. -/
  | controllerAbsent
  /-- Raised by LEGACY_CB while the handler is not installed (R185). Safe. -/
  | callbackNotInstalled
  /-- Raised by a transaction that would call a hook which breaks R32. Safe. -/
  | hookUnconfined
  deriving DecidableEq, Repr

end Sys2Proof.Machine
end

