-- ==== Sys2Proof/Machine/Ops.lean ====
section
/-!
DEFINITION. The named operations over the store, the slot table and the model's own fields: one home for every read and
write of the state. The one way an error changes the state is `raiseFatal`; the block has no trap entry and no return from
one (60_exceptions.md R210, R220, R221).
-/

namespace Sys2Proof.Machine

/-! ## The configuration-space store (R27) -/

/-- The flat address of `STORE[s][f][r]`: 32 x 8 x 256 bytes, below 65536. -/
def storeAddr (s : Fin 32) (f : Fin 8) (r : Byte) : Nat := s.val * 2048 + f.val * 256 + r.toNat

/-- The byte at an address; an unlisted address reads as 0x00 (log 6). -/
def Memory.read : Memory → Nat → Byte
  | [], _ => 0#8
  | c :: m, a => if c.1 = a then c.2 else Memory.read m a

/-- Puts a cell at its place in a list of rising addresses. -/
def Memory.insert (c : Host.Cell) : Memory → Memory
  | [] => [c]
  | c' :: m => if c.1 < c'.1 then c :: c' :: m else c' :: Memory.insert c m

/-- Writes one byte (R8). The entry of the address is replaced, and removed when the byte is what an unlisted address
reads as. -/
def Memory.write (m : Memory) (a : Nat) (b : Byte) : Memory :=
  let rest := m.filter fun c => c.1 != a
  if b = 0#8 then rest else Memory.insert (a, b) rest

/-- The 256-byte cell `STORE[s][f]` (R27). -/
def Memory.cell (m : Memory) (s : Fin 32) (f : Fin 8) : Cell := fun r => m.read (storeAddr s f r)

/-- The entries of a cell whose first byte has the address `base`: its bytes that are not 0x00, in order. -/
def Memory.cellEntries (base : Nat) (c : Cell) : Memory :=
  (List.range 256).filterMap fun r =>
    if c (BitVec.ofNat 8 r) = 0#8 then none else some (base + r, c (BitVec.ofNat 8 r))

/-- Replaces the whole cell `STORE[s][f]` by `c` (R142, R146, R147, R180). -/
def Memory.setCell (m : Memory) (s : Fin 32) (f : Fin 8) (c : Cell) : Memory :=
  let base := storeAddr s f 0#8
  m.filter (fun e => decide (e.1 < base)) ++ Memory.cellEntries base c
    ++ m.filter (fun e => decide (base + 256 ≤ e.1))

/-- The store with every byte 0 (R178, R182). -/
def Memory.zero : Memory := []

/-- The canonical form: every listed address lies in the store and lists a byte that is not 0x00, and the addresses rise
strictly. Equal stores are then equal lists. -/
def Memory.wf : Memory → Bool
  | [] => true
  | c :: m => decide (c.1 < 65536) && c.2 != 0#8 && m.all (fun e => decide (c.1 < e.1)) && Memory.wf m

/-! ## Writes of the state -/

/-- The cell of the store that belongs to `(s, f)`. -/
def State.cell (σ : State) (s : Fin 32) (f : Fin 8) : Cell := σ.store.cell s f

/-- `STORE[s][f] <- c`. -/
def State.setCell (σ : State) (s : Fin 32) (f : Fin 8) (c : Cell) : State :=
  { σ with store := σ.store.setCell s f c }

/-- `STORE[s][f][r]`. -/
def State.readByte (σ : State) (s : Fin 32) (f : Fin 8) (r : Byte) : Byte := σ.store.read (storeAddr s f r)

/-- `STORE[s][f][r] <- b`. -/
def State.writeByte (σ : State) (s : Fin 32) (f : Fin 8) (r b : Byte) : State :=
  { σ with store := σ.store.write (storeAddr s f r) b }

/-- `LATCH <- v`, verbatim (R100). -/
def State.setLatch (σ : State) (v : Word) : State := { σ with latch := v }

/-- Takes one free draw: the next one is another (R30, R62; log 3). -/
def State.draw (σ : State) : State := { σ with draws := σ.draws + 1 }

/-- Records an internal reason of R211 as a trace label (log 2). -/
def State.note (σ : State) (c : Cause) : State := { σ with trace := σ.trace ++ [c] }

/-- The start of a transaction: nothing returned and no reason recorded yet. -/
def State.start (σ : State) : State := { σ with result := .nothing, trace := [] }

/-- The end of a transaction: what it returns. -/
def State.answer (σ : State) (r : Result) : State := { σ with result := r }

/-- A Fatal outcome (R214): `FAULT <- 1` and nothing else changes (R174, R181). -/
def State.raiseFatal (σ : State) : State := { σ with fault := true }

/-! ## Device records and routing -/

/-- `D.ident` (R29): the identity of the record, set once its registration succeeds. -/
def Controller.identOf (c : Controller) (d : Device) : Option Ident := c.idents.lookup d.ref

/-- `D.ident <- (s, f)` (R180). -/
def State.setIdent (σ : State) (d : Device) (s : Fin 32) (f : Fin 8) : State :=
  { σ with idents := σ.idents ++ [(d.ref, { slot := s, fn := f })] }

/-- `SLOT[s]` (R24). -/
def Controller.slotAt (c : Controller) (s : Fin 32) : Option Device := c.slot[s]

/-- `SUB[s][i]` (R25). -/
def Controller.subAt (c : Controller) (s : Fin 32) (i : Fin 7) : Option Device := c.sub[s][i]

/-- `NSUB[s]` (R25). -/
def Controller.subCount (c : Controller) (s : Fin 32) : Fin 8 := c.nsub[s]

/-- The router (R33): the device record of a (slot, function) pair. -/
def Controller.devAt (c : Controller) (s : Fin 32) (f : Fin 8) : Option Device :=
  if c.slotAt s = none then none
  else if h : f.val = 0 then c.slotAt s
  else if f ≤ c.subCount s then c.subAt s ⟨f.val - 1, by omega⟩
  else none

/-- The subdevice count of the device routed to `(s, f)` (R34): NSUB of a primary, 0 of a secondary. -/
def Controller.nsubAt (c : Controller) (s : Fin 32) (f : Fin 8) : Nat :=
  if f.val = 0 then (c.subCount s).val else 0

/-- `SLOT[s] <- Some D` and INSTALLED incremented (R180, a new primary). -/
def State.addPrimary (σ : State) (d : Device) (s : Fin 32) : State :=
  { σ with slot := σ.slot.set s (some d), installed := σ.installed + 1 }

/-- `SUB[s][f-1] <- Some D` and `NSUB[s] <- f` for the secondary function `f = i + 1` (R180). -/
def State.addSecondary (σ : State) (d : Device) (s : Fin 32) (i : Fin 7) : State :=
  { σ with sub := σ.sub.set s (σ.sub[s].set i (some d)), nsub := σ.nsub.set s i.succ }

/-! ## The ports and the host's transactions -/

/-- The port bindings are installed (R21, R62). -/
def Controller.portsBound (c : Controller) : Bool := c.phase == .init

/-- The legacy callback is installed at the callback index `i` (R21, R178, R185). -/
def Controller.callbackAt (c : Controller) (i : Nat) : Bool := c.phase == .init && i == Config.legacyCbIndex

/-- The next transaction the host issues, and the state in which it has been taken from the sequence (R5, R37). -/
def State.fetch (σ : State) : Option (Transaction × State) :=
  match σ.input with
  | [] => none
  | t :: rest => some (t, { σ with input := rest })

/-- The host presents a transaction, to be run by the very next step. -/
def State.present (σ : State) (t : Transaction) : State := { σ with input := t :: σ.input }

end Sys2Proof.Machine
end

