-- ==== Sys2Proof/Machine/Operands.lean ====
section
/-!
DEFINITION. The operand forms: the fields of the latch word (30_encoding.md R70 to R72), the register index of a lane (R73,
R74), and the lanes of a data word (R75).
-/

namespace Sys2Proof.Machine

/-- R71: EN = 1 and BUS = 0. Bits 30:24 and 1:0 play no part. -/
def latchEnabled (l : Word) : Bool := l &&& 0x80FF0000#32 == 0x80000000#32

/-- R72: DEV, bits 15:11. -/
def latchDev (l : Word) : Fin 32 := (l.extractLsb' 11 5).toFin

/-- R72: FN, bits 10:8. -/
def latchFn (l : Word) : Fin 8 := (l.extractLsb' 8 3).toFin

/-- R72: the register group `LATCH & 0xFC`, bits 7:2 with 00 below them. -/
def latchGrp (l : Word) : Byte := l.extractLsb' 2 6 ++ 0#2

/-- R73: the register index of lane 0 at port offset `k`. It never wraps, since the group is at most 0xFC. -/
def laneBase (l : Word) (k : BitVec 2) : Byte := latchGrp l + k.zeroExtend 8

/-- R74: the register index of lane `i`, modulo 256 (the spec's decision D6: log 15). -/
def laneReg (base : Byte) (i : Nat) : Byte := base + BitVec.ofNat 8 i

/-- R75: lane `i` of a data word, bits `8i+7:8i`. -/
def laneByte (v : Word) (i : Nat) : Byte := v.extractLsb' (8 * i) 8

/-- R75: the data word of lane bytes, lane 0 the least significant; absent high lanes are zero. -/
def assemble : List Byte → Word
  | [] => 0#32
  | b :: bs => (assemble bs <<< 8) ||| b.zeroExtend 32

/-- R57: a read of width `w` returns exactly `8w` bits. -/
def Result.ofWord (w : Width) (v : Word) : Result :=
  match w with
  | .w1 => .rdata8 (v.truncate 8)
  | .w2 => .rdata16 (v.truncate 16)
  | .w4 => .rdata32 v

/-- R117: `ones(8w)`, as the word whose low `8w` bits a read of width `w` returns. -/
def allOnes : Word := 0xFFFFFFFF#32

end Sys2Proof.Machine
end

