-- ==== Sys2Proof/Machine/Flags.lean ====
section
/-!
DEFINITION. The status flags PHASE and FAULT as the guards of the transactions (10_state.md R21, R22; 20_memory.md R62;
60_exceptions.md R214, R217), and the codes of R211. The block has no arithmetic flags.
-/

namespace Sys2Proof.Machine

/-- The guard and frame of an I/O read of width `w` (R217 step 1). FAULT is looked at first, and refuses (R214). While
PHASE is not Init the block is not bound to its ports: its state is unchanged and the value is a free draw (R62). -/
def ioRead (w : Width) (body : State → Except Refusal (State × Word)) (σ : State) :
    Host.Outcome State Fault Refusal :=
  if σ.fault then .refused .faultSet
  else if σ.phase = .init then
    match body σ.start with
    | .ok (τ, v) => .next (τ.answer (Result.ofWord w v))
    | .error e => .refused e
  else .next (σ.start.draw.answer (Result.ofWord w (Config.unclaimedRead σ.draws)))

/-- The guard and frame of an I/O write (R217 step 1). While PHASE is not Init the write does not reach the block (R62). -/
def ioWrite (body : State → Except Refusal State) (σ : State) : Host.Outcome State Fault Refusal :=
  if σ.fault then .refused .faultSet
  else if σ.phase = .init then
    match body σ.start with
    | .ok τ => .next τ
    | .error e => .refused e
  else .next σ.start

/-- The frame of a host command: FAULT refuses it (R214), and it returns an outcome (R76). -/
def hostCommand (body : State → Except Refusal (State × HostOutcome)) (σ : State) :
    Host.Outcome State Fault Refusal :=
  if σ.fault then .refused .faultSet
  else
    match body σ.start with
    | .ok (τ, o) => .next (τ.answer (.outcome o))
    | .error e => .refused e

/-- The codes of R211 for what a host command returns. -/
def HostOutcome.code : HostOutcome → Byte
  | .done => 0x00
  | .ok _ => 0x00
  | .handled _ => 0x00
  | .queued => 0x10
  | .queueOverflow => 0x11
  | .rejected .badSlot => 0x20
  | .rejected .noFreeSlot => 0x21
  | .rejected .functionsFull => 0x22
  | .rejected .initFailed => 0x23
  | .fatal .alreadyRegistered => 0x30
  | .fatal .subfunctionOccupied => 0x31

/-- The codes of R211 for the internal reasons. -/
def Cause.code : Cause → Byte
  | .noOpDisabled => 0x01
  | .noOpNoDevice => 0x02
  | .noOpEmptySlot => 0x03
  | .noOpNoFunction => 0x04
  | .dropReadOnly => 0x05
  | .dropSubsystem => 0x06
  | .dropHookVeto => 0x07
  | .readHookDecline => 0x08

/-- The code of every refusal (R211). -/
def refusedCode : Byte := 0x40

end Sys2Proof.Machine
end

