-- ==== Sys2Proof/Machine/AddressPort.lean ====
section
/-!
DEFINITION. The address-latch port (40_address_port.md): ADDR_WR (R100) and ADDR_RD (R101). A narrow access is no transaction
of the table; by default the decoder refuses it, and under another P_ADDR_NARROW it completes here (R102).
-/

namespace Sys2Proof.Machine

/-- R101: ADDR_RD returns LATCH, verbatim. -/
def execAddrRd (σ : State) : Host.Outcome State Fault Refusal :=
  ioRead .w4 (fun τ => .ok (τ, τ.latch)) σ

/-- R100: ADDR_WR stores WDATA in LATCH, with no validation. -/
def execAddrWr (wdata : Word) (σ : State) : Host.Outcome State Fault Refusal :=
  ioWrite (fun τ => .ok (τ.setLatch wdata)) σ

/-- R56, R102: a narrow access to the address port under a P_ADDR_NARROW that is not a refusal. Neither a read nor a write
changes LATCH or any other state of the controller; a read returns what the parameter says. The port is bound as for any other
access (R62), and FAULT refuses it (R214). -/
def narrowAccess (v : NarrowRead) (write : Bool) (w : Width) (σ : State) : Host.Outcome State Fault Refusal :=
  if write then ioWrite (fun τ => .ok τ) σ
  else ioRead w (fun τ => .ok (τ.draw, v w τ.latch τ.draws)) σ

/-- A narrow access under the parameters `p` (log 9). -/
def execNarrow (p : Params) (write : Bool) (w : Width) (σ : State) : Host.Outcome State Fault Refusal :=
  match p.narrow with
  | none => .refused (.descriptor .narrowAddressAccess)
  | some v => narrowAccess v write w σ

end Sys2Proof.Machine
end

