-- ==== Sys2Proof/Machine/Hooks.lean ====
section
/-!
DEFINITION. Device hooks (10_state.md R30 to R32): what a hook of a record computes from its arguments, and the four calls,
each with a fresh environment draw, each installing the cell the hook returns in its own cell (42_register_policy.md R149).
`none` from a hook's `run` says that the hook breaks R32; the step that would call it is refused.
-/

namespace Sys2Proof.Machine

/-- A cell with one byte changed. -/
def cellSet (c : Cell) (r b : Byte) : Cell := fun x => if x = r then b else c x

/-- The value of a hook's expression for the environment `E`, the cell `c`, the register `r` and the value `v` (R30). -/
def evalExpr (E : Env) (c : Cell) (r v : Byte) : HookExpr → Byte
  | .lit b => b
  | .reg => r
  | .val => v
  | .env i => BitVec.ofNat 8 (E >>> (8 * i))
  | .cell e => c (evalExpr E c r v e)
  | .not e => ~~~evalExpr E c r v e
  | .and e₁ e₂ => evalExpr E c r v e₁ &&& evalExpr E c r v e₂
  | .or e₁ e₂ => evalExpr E c r v e₁ ||| evalExpr E c r v e₂
  | .xor e₁ e₂ => evalExpr E c r v e₁ ^^^ evalExpr E c r v e₂
  | .add e₁ e₂ => evalExpr E c r v e₁ + evalExpr E c r v e₂

/-- A hook's own-cell writes, in order, each seeing the writes before it. -/
def applySets (E : Env) (r v : Byte) : Cell → List HookSet → Cell
  | c, [] => c
  | c, s :: ss => applySets E r v (cellSet c (evalExpr E c r v s.offset) (evalExpr E c r v s.value)) ss

/-- The first clause that covers the register. -/
def findClause {α : Type} (r : Byte) (cs : List (HookClause α)) : Option (HookClause α) :=
  cs.find? fun c => decide (c.lo ≤ r) && decide (r ≤ c.hi)

/-- A hook's `Option` byte, seen after its own-cell writes. -/
def evalByte (E : Env) (c : Cell) (r v : Byte) : Option HookExpr → Option Byte
  | none => none
  | some e => some (evalExpr E c r v e)

/-- A hook's `Option` pair of value and mask, seen after its own-cell writes. -/
def evalBlend (E : Env) (c : Cell) (r v : Byte) : Option (HookExpr × HookExpr) → Option (Byte × Byte)
  | none => none
  | some (e, m) => some (evalExpr E c r v e, evalExpr E c r v m)

/-- `D.init(E, c)` (R30): `some none` is the hook's failure. -/
def runInit (h : InitHook) (E : Env) (c : Cell) : Option (Option Cell) :=
  match h with
  | .prog sets => some (some (applySets E 0#8 0#8 c sets))
  | .fail => some none
  | .device n => some (Config.deviceInit n E c)
  | .unconfined => none

/-- `D.pw(E, c, r, v)` (R30). The default commits the byte unchanged (R31). -/
def runPw (h : Hook (Option HookExpr)) (E : Env) (c : Cell) (r v : Byte) : Option (Cell × Option Byte) :=
  match h with
  | .default => some (c, some v)
  | .prog cs =>
    match findClause r cs with
    | none => some (c, some v)
    | some cl => some (applySets E r v c cl.sets, evalByte E (applySets E r v c cl.sets) r v cl.result)
  | .device n => some (Config.devicePw n E c r v)
  | .unconfined => none

/-- `D.pr(E, c, r)` (R30). The default is the identity remap (R31). -/
def runPr (h : Hook (Option HookExpr)) (E : Env) (c : Cell) (r : Byte) : Option (Cell × Option Byte) :=
  match h with
  | .default => some (c, some r)
  | .prog cs =>
    match findClause r cs with
    | none => some (c, some r)
    | some cl => some (applySets E r 0#8 c cl.sets, evalByte E (applySets E r 0#8 c cl.sets) r 0#8 cl.result)
  | .device n => some (Config.devicePr n E c r)
  | .unconfined => none

/-- `D.ovr(E, c, r)` (R30). The default returns `None` (R31). -/
def runOvr (h : Hook (Option (HookExpr × HookExpr))) (E : Env) (c : Cell) (r : Byte) :
    Option (Cell × Option (Byte × Byte)) :=
  match h with
  | .default => some (c, none)
  | .prog cs =>
    match findClause r cs with
    | none => some (c, none)
    | some cl => some (applySets E r 0#8 c cl.sets, evalBlend E (applySets E r 0#8 c cl.sets) r 0#8 cl.result)
  | .device n => some (Config.deviceOvr n E c r)
  | .unconfined => none

/-- The target of a data-port access (R110): the pair `(s, f)` and the record `dev_at(s, f)`, fixed for all lanes (R125). -/
structure Target where
  slot : Fin 32
  fn : Fin 8
  dev : Device
  deriving DecidableEq, Repr

/-- `(C', res) <- call D.pw(E, C, r, b); STORE[s][f] <- C'` (R142). -/
def callPw (σ : State) (t : Target) (r b : Byte) : Except Refusal (State × Option Byte) :=
  match runPw t.dev.pw (Config.envDraw σ.draws) (σ.cell t.slot t.fn) r b with
  | none => .error .hookUnconfined
  | some (c, res) => .ok (σ.draw.setCell t.slot t.fn c, res)

/-- `(C1, m) <- call D.pr(E, C, r); STORE[s][f] <- C1` (R146). -/
def callPr (σ : State) (t : Target) (r : Byte) : Except Refusal (State × Option Byte) :=
  match runPr t.dev.pr (Config.envDraw σ.draws) (σ.cell t.slot t.fn) r with
  | none => .error .hookUnconfined
  | some (c, m) => .ok (σ.draw.setCell t.slot t.fn c, m)

/-- `(C2, o) <- call D.ovr(E, STORE[s][f], r); STORE[s][f] <- C2` (R147). -/
def callOvr (σ : State) (t : Target) (r : Byte) : Except Refusal (State × Option (Byte × Byte)) :=
  match runOvr t.dev.ovr (Config.envDraw σ.draws) (σ.cell t.slot t.fn) r with
  | none => .error .hookUnconfined
  | some (c, o) => .ok (σ.draw.setCell t.slot t.fn c, o)

end Sys2Proof.Machine
end

