-- ==== Sys2Proof/Machine/RegisterPolicy.lean ====
section
/-!
DEFINITION. The two per-byte lane operations (42_register_policy.md R150, R151): the generic read-only policy and the device
hooks. Neither has a descriptor; the data ports call them.
-/

namespace Sys2Proof.Machine

/-- R140: the globally read-only registers 0x00..0x03, 0x06..0x0B and 0x0E. -/
def readOnlyReg (r : Byte) : Bool :=
  decide (r ≤ 0x03#8) || (decide (0x06#8 ≤ r) && decide (r ≤ 0x0B#8)) || r == 0x0E#8

/-- R141: the subsystem registers 0x28..0x2F. -/
def subsystemReg (r : Byte) : Bool := decide (0x28#8 ≤ r) && decide (r ≤ 0x2F#8)

/-- R36, R141: the stored header-type byte of the cell has the layout code 0x00, the standard header. Bit 7 is ignored. -/
def standardHeader (c : Cell) : Bool := c 0x0E#8 &&& 0x7F#8 == 0x00#8

/-- R150: REG_WR_BYTE. A drop is silent (R140, R141), as is a veto (R143); a commit overrides what the hook wrote at `r`
(R149(c)). -/
def regWrByte (σ : State) (t : Target) (r b : Byte) : Except Refusal State :=
  if readOnlyReg r then .ok (σ.note .dropReadOnly)
  else if standardHeader (σ.cell t.slot t.fn) && subsystemReg r then .ok (σ.note .dropSubsystem)
  else
    match callPw σ t r b with
    | .error e => .error e
    | .ok (τ, none) => .ok (τ.note .dropHookVeto)
    | .ok (τ, some b') => .ok (τ.writeByte t.slot t.fn r b')

/-- R144: the identity registers, answered from the record, low byte first. -/
def identityByte (d : Device) (r : Byte) : Byte :=
  if r = 0x00#8 then d.vid.extractLsb' 0 8
  else if r = 0x01#8 then d.vid.extractLsb' 8 8
  else if r = 0x02#8 then d.did.extractLsb' 0 8
  else d.did.extractLsb' 8 8

/-- R145: the header-type register, the stored low 7 bits and the synthesized multi-function indicator. -/
def headerByte (σ : State) (t : Target) : Byte :=
  (σ.readByte t.slot t.fn 0x0E#8 &&& 0x7F#8) ||| (if 0 < σ.nsubAt t.slot t.fn then 0x80#8 else 0x00#8)

/-- R147: the bit blend of a stored byte and a computed value under a mask. -/
def blend (stored value mask : Byte) : Byte := (stored &&& ~~~mask) ||| (value &&& mask)

/-- R151: REG_RD_BYTE. Identity and header registers call no hook (R144, R145); then the remap (R146), the override (R147),
and 0xFF where both decline (R148). -/
def regRdByte (σ : State) (t : Target) (r : Byte) : Except Refusal (State × Byte) :=
  if r ≤ 0x03#8 then .ok (σ, identityByte t.dev r)
  else if r = 0x0E#8 then .ok (σ, headerByte σ t)
  else
    match callPr σ t r with
    | .error e => .error e
    | .ok (τ, some r') => .ok (τ, τ.readByte t.slot t.fn r')
    | .ok (τ, none) =>
      match callOvr τ t r with
      | .error e => .error e
      | .ok (υ, some (value, mask)) => .ok (υ, blend (υ.readByte t.slot t.fn r) value mask)
      | .ok (υ, none) => .ok (υ.note .readHookDecline, 0xFF#8)

end Sys2Proof.Machine
end

