-- ==== Sys2Proof/Machine/DataPort.lean ====
section
/-!
DEFINITION. The data ports (41_data_port.md): decode and validation of the latch (R110 to R114), the lane engine (R115 to
R117, R124, R125), and the six data-port transactions (R118 to R123).
-/

namespace Sys2Proof.Machine

/-- R110: resolve, its checks in the order R111 to R114. A missing target carries its reason of R211. The last case, a
secondary entry that is empty although `fn ≤ NSUB`, is excluded by R25; it gives no target (U2; DEDUCED, safe: log 14). -/
def Controller.resolve (c : Controller) : Except Cause Target :=
  let d := latchDev c.latch
  let f := latchFn c.latch
  if !latchEnabled c.latch then .error .noOpDisabled
  else if c.installed ≤ d.val then .error .noOpNoDevice
  else if c.slotAt d = none then .error .noOpEmptySlot
  else if c.subCount d < f then .error .noOpNoFunction
  else
    match c.devAt d f with
    | none => .error .noOpNoFunction
    | some dev => .ok { slot := d, fn := f, dev := dev }

/-- The write lanes of the list, in order, each complete before the next (R115, R124). -/
def writeLanes (t : Target) (base : Byte) (wdata : Word) : List Nat → State → Except Refusal State
  | [], σ => .ok σ
  | i :: is, σ =>
    match regWrByte σ t (laneReg base i) (laneByte wdata i) with
    | .error e => .error e
    | .ok τ => writeLanes t base wdata is τ

/-- The read lanes of the list, in order, each complete before the next (R116, R124). -/
def readLanes (t : Target) (base : Byte) : List Nat → State → Except Refusal (State × List Byte)
  | [], σ => .ok (σ, [])
  | i :: is, σ =>
    match regRdByte σ t (laneReg base i) with
    | .error e => .error e
    | .ok (τ, b) =>
      match readLanes t base is τ with
      | .error e => .error e
      | .ok (υ, bs) => .ok (υ, b :: bs)

/-- R115: a data-port write of width `w`; without a target it is dropped (R117). -/
def dataWrite (w : Width) (k : BitVec 2) (wdata : Word) (σ : State) : Except Refusal State :=
  match σ.resolve with
  | .error c => .ok (σ.note c)
  | .ok t => writeLanes t (laneBase σ.latch k) wdata (List.range w.bytes) σ

/-- R116: a data-port read of width `w`; without a target it returns all-ones (R117). -/
def dataRead (w : Width) (k : BitVec 2) (σ : State) : Except Refusal (State × Word) :=
  match σ.resolve with
  | .error c => .ok (σ.note c, allOnes)
  | .ok t =>
    match readLanes t (laneBase σ.latch k) (List.range w.bytes) σ with
    | .error e => .error e
    | .ok (τ, bs) => .ok (τ, assemble bs)

/-- R118: DATA_RD8. -/
def execDataRd8 (k : BitVec 2) (σ : State) : Host.Outcome State Fault Refusal := ioRead .w1 (dataRead .w1 k) σ

/-- R119: DATA_RD16. -/
def execDataRd16 (k : BitVec 2) (σ : State) : Host.Outcome State Fault Refusal := ioRead .w2 (dataRead .w2 k) σ

/-- R120: DATA_RD32. -/
def execDataRd32 (k : BitVec 2) (σ : State) : Host.Outcome State Fault Refusal := ioRead .w4 (dataRead .w4 k) σ

/-- R121: DATA_WR8; bits 7:0 of WDATA are used. -/
def execDataWr8 (k : BitVec 2) (wdata : Word) (σ : State) : Host.Outcome State Fault Refusal :=
  ioWrite (dataWrite .w1 k wdata) σ

/-- R122: DATA_WR16; bits 15:0 of WDATA are used. -/
def execDataWr16 (k : BitVec 2) (wdata : Word) (σ : State) : Host.Outcome State Fault Refusal :=
  ioWrite (dataWrite .w2 k wdata) σ

/-- R123: DATA_WR32. -/
def execDataWr32 (k : BitVec 2) (wdata : Word) (σ : State) : Host.Outcome State Fault Refusal :=
  ioWrite (dataWrite .w4 k wdata) σ

end Sys2Proof.Machine
end

