-- ==== Sys2Proof/Machine/Lifecycle.lean ====
section
/-!
DEFINITION. Registration, the slot table and the lifecycle (43_lifecycle.md): CONSTRUCT, REGISTER, SHUTDOWN, DESTROY and
LEGACY_CB, over the procedures ENQUEUE (R173), REGISTER_CORE (R174 to R180) and DRAIN (R171). No transaction removes a
device (R186).
-/

namespace Sys2Proof.Machine

/-- R173: ENQUEUE. SLOTREQ is not kept; the 17th record is dropped. -/
def enqueue (σ : State) (d : Device) : State × HostOutcome :=
  if σ.queue.length < Config.queueCap then ({ σ with queue := σ.queue ++ [d] }, .queued)
  else (σ, .queueOverflow)

/-- R175, R176: the slot of a registration, explicit or automatic. -/
def pickSlot (σ : State) (slotReq : Option Byte) : Except HostOutcome (Fin 32) :=
  match slotReq with
  | some n => if h : n.toNat < 32 then .ok ⟨n.toNat, h⟩ else .error (.rejected .badSlot)
  | none => if h : σ.installed < 32 then .ok ⟨σ.installed, h⟩ else .error (.rejected .noFreeSlot)

/-- R177: the placement in a slot: the primary of an empty slot (`none`), or the secondary held at index `i` of SUB, which is
function `i + 1`. -/
def placement (σ : State) (s : Fin 32) : Except HostOutcome (Option (Fin 7)) :=
  if σ.slotAt s = none then .ok none
  else if h : (σ.subCount s).val < 7 then
    if σ.subAt s ⟨(σ.subCount s).val, h⟩ = none then .ok (some ⟨(σ.subCount s).val, h⟩)
    else .error (.fatal .subfunctionOccupied)
  else .error (.rejected .functionsFull)

/-- The function number of a placement (R177). -/
def placementFn : Option (Fin 7) → Fin 8
  | none => 0
  | some i => i.succ

/-- R178: the Uninit to Init transition, as a tentative state: the store zeroed and PHASE = Init. -/
def lazyInit (σ : State) : State :=
  if σ.phase = .uninit then { σ with phase := .init, store := Memory.zero } else σ

/-- R180: the slot table's part of the commit. -/
def place (σ : State) (d : Device) (s : Fin 32) : Option (Fin 7) → State
  | none => σ.addPrimary d s
  | some i => σ.addSecondary d s i

/-- R180: the commit, from the tentative state. -/
def commit (τ : State) (d : Device) (s : Fin 32) (p : Option (Fin 7)) (c : Cell) : State :=
  (place (τ.setCell s (placementFn p) c) d s p).setIdent d s (placementFn p)

/-- What a registration that ends before its commit does (R181): a Fatal outcome sets FAULT, any other changes nothing. -/
def abandon (σ : State) : HostOutcome → State × HostOutcome
  | .fatal reason => (σ.raiseFatal, .fatal reason)
  | o => (σ, o)

/-- R179, R180: register initialisation and commit. The `init` hook is called in the tentative state of R178; its failure
changes no state (the draw it took is spent: log 16). -/
def initAndCommit (σ : State) (d : Device) (s : Fin 32) (p : Option (Fin 7)) : Except Refusal (State × HostOutcome) :=
  match runInit d.init (Config.envDraw σ.draws) ((lazyInit σ).cell s (placementFn p)) with
  | none => .error .hookUnconfined
  | some none => .ok (σ.draw, .rejected .initFailed)
  | some (some c) => .ok (commit (lazyInit σ).draw d s p c, .ok s)

/-- R174 to R180: REGISTER_CORE, its checks in the order of R218. -/
def registerCore (σ : State) (d : Device) (slotReq : Option Byte) : Except Refusal (State × HostOutcome) :=
  if σ.identOf d ≠ none then .ok (abandon σ (.fatal .alreadyRegistered))
  else
    match pickSlot σ slotReq with
    | .error o => .ok (abandon σ o)
    | .ok s =>
      match placement σ s with
      | .error o => .ok (abandon σ o)
      | .ok p => initAndCommit σ d s p

/-- R171: DRAIN's replay, oldest first, each with an automatic slot; the outcomes are discarded, and a Fatal stops it. -/
def replay : List Device → State → Except Refusal State
  | [], σ => .ok σ
  | d :: ds, σ =>
    match registerCore σ d none with
    | .error e => .error e
    | .ok (τ, _) => if τ.fault then .ok τ else replay ds τ

/-- R170, R171: the controller comes into being, and its queue is drained. -/
def constructBody (σ : State) : Except Refusal (State × HostOutcome) :=
  if σ.phase = .absent then
    match replay σ.queue { σ with phase := .uninit, latch := 0#32 } with
    | .error e => .error e
    | .ok τ => .ok ({ τ with queue := [] }, .done)
  else .error .controllerExists

/-- R172: REGISTER. -/
def registerBody (d : Device) (slotReq : Option Byte) (σ : State) : Except Refusal (State × HostOutcome) :=
  if σ.phase = .absent then .ok (enqueue σ d) else registerCore σ d slotReq

/-- R182: the effect of SHUTDOWN. The records that were held are released; their `ident` stays set. -/
def teardown (σ : State) : State :=
  { σ with
    phase := .uninit
    latch := 0#32
    slot := Vector.replicate 32 none
    sub := Vector.replicate 32 (Vector.replicate 7 none)
    nsub := Vector.replicate 32 0
    installed := 0
    store := Memory.zero
    queue := [] }

/-- R182: SHUTDOWN, refused in Absent. -/
def shutdownBody (σ : State) : Except Refusal (State × HostOutcome) :=
  if σ.phase = .absent then .error .controllerAbsent else .ok (teardown σ, .done)

/-- R184: DESTROY, the effect of SHUTDOWN and then PHASE <- Absent. -/
def destroyBody (σ : State) : Except Refusal (State × HostOutcome) :=
  if σ.phase = .absent then .error .controllerAbsent else .ok ({ teardown σ with phase := .absent }, .done)

/-- R185: the installed handler returns at once with the fixed result code; no state is read or written. -/
def legacyCbBody (σ : State) : Except Refusal (State × HostOutcome) :=
  if σ.phase = .init then .ok (σ, .handled Config.legacyCbResult) else .error .callbackNotInstalled

/-- R170: CONSTRUCT. -/
def execConstruct (σ : State) : Host.Outcome State Fault Refusal := hostCommand constructBody σ

/-- R172: REGISTER. -/
def execRegister (d : Device) (slotReq : Option Byte) (σ : State) : Host.Outcome State Fault Refusal :=
  hostCommand (registerBody d slotReq) σ

/-- R182: SHUTDOWN. -/
def execShutdown (σ : State) : Host.Outcome State Fault Refusal := hostCommand shutdownBody σ

/-- R184: DESTROY. -/
def execDestroy (σ : State) : Host.Outcome State Fault Refusal := hostCommand destroyBody σ

/-- R185: LEGACY_CB. -/
def execLegacyCb (σ : State) : Host.Outcome State Fault Refusal := hostCommand legacyCbBody σ

end Sys2Proof.Machine
end

