-- ==== Sys2Proof/Machine/Dispatch.lean ====
section
/-!
DEFINITION. The dispatch: one arm per constructor of Instr, each one direct call of that instruction's meaning.
-/

namespace Sys2Proof.Machine

def exec (i : Instr) (s : State) : Host.Outcome State Fault Refusal :=
  match i with
  -- the address-latch port
  | .addrRd => Sys2Proof.Machine.execAddrRd s
  | .addrWr wdata => Sys2Proof.Machine.execAddrWr wdata s
  -- the data ports
  | .dataRd8 k => Sys2Proof.Machine.execDataRd8 k s
  | .dataRd16 k => Sys2Proof.Machine.execDataRd16 k s
  | .dataRd32 k => Sys2Proof.Machine.execDataRd32 k s
  | .dataWr8 k wdata => Sys2Proof.Machine.execDataWr8 k wdata s
  | .dataWr16 k wdata => Sys2Proof.Machine.execDataWr16 k wdata s
  | .dataWr32 k wdata => Sys2Proof.Machine.execDataWr32 k wdata s
  -- the host commands
  | .construct => Sys2Proof.Machine.execConstruct s
  | .register d slotReq => Sys2Proof.Machine.execRegister d slotReq s
  | .shutdown => Sys2Proof.Machine.execShutdown s
  | .destroy => Sys2Proof.Machine.execDestroy s
  | .legacyCb => Sys2Proof.Machine.execLegacyCb s

end Sys2Proof.Machine
end

