-- ==== Sys2Proof/Machine/Step.lean ====
section
/-!
DEFINITION. One step (00_scope.md R4): the next transaction that the host issues is taken, decoded and run. There is no
program counter (10_state.md R37); the host's sequence is the program. The step relation takes the implementation parameters as
an argument (R5(i)); `step` is the step at their defaults.
-/

namespace Sys2Proof.Machine

/-- One step under the parameters `p`: three outcomes. A transaction that the decoder refuses, or that is not addressed to this
block, has no step (R80). -/
def stepWith (p : Params) (s : State) : Host.Outcome State Fault Refusal :=
  match s.fetch with
  | none => .fault .noTransaction
  | some (t, s') =>
    match decodeWith p t with
    | .instr i => exec i s'
    | .narrow write w => execNarrow p write w s'
    | .refused reason => .refused (.descriptor reason)
    | .notThisBlock => .refused .notThisBlock

/-- One step at the default parameters of R6. -/
def step (s : State) : Host.Outcome State Fault Refusal := stepWith Config.params s

/-- `s`, with the transaction whose descriptor is the low `nbits` bits of `w` and whose out-of-band operands are zero
presented as the host's next one (log 1). -/
def State.withFetchWord (s : State) (nbits w : Nat) : State :=
  s.present { desc := BitVec.ofNat 32 (w % 2 ^ nbits), oob := OutOfBand.zero }

end Sys2Proof.Machine
end

