-- ==== Sys2Proof/Machine/Pseudo.lean ====
section
/-!
DEFINITION. The assembler's and the guest's view of the block (30_encoding.md R83 to R85): the pseudo-instructions, each an
address-port write and one data-port access, the assembly text of a transaction, and the transaction of an x86 port access.
-/

namespace Sys2Proof.Machine

/-- R84: the latch value of `CFG_ADDR d, f, r`. -/
def cfgAddrWord (d : Fin 32) (f : Fin 8) (r : Byte) : Word :=
  0x80000000#32 ||| (BitVec.ofNat 32 d.val <<< 11) ||| (BitVec.ofNat 32 f.val <<< 8)
    ||| ((r &&& 0xFC#8).zeroExtend 32)

/-- R84: `CFG_ADDR d, f, r`. -/
def cfgAddr (d : Fin 32) (f : Fin 8) (r : Byte) : Instr := .addrWr (cfgAddrWord d f r)

/-- R84: the port offset `r & 3`. -/
def cfgOffset (r : Byte) : BitVec 2 := r.extractLsb' 0 2

/-- R84: `CFG_RD8 d, f, r`. -/
def cfgRd8 (d : Fin 32) (f : Fin 8) (r : Byte) : List Instr := [cfgAddr d f r, .dataRd8 (cfgOffset r)]

/-- R84: `CFG_RD16 d, f, r`. -/
def cfgRd16 (d : Fin 32) (f : Fin 8) (r : Byte) : List Instr := [cfgAddr d f r, .dataRd16 (cfgOffset r)]

/-- R84: `CFG_RD32 d, f, r`. -/
def cfgRd32 (d : Fin 32) (f : Fin 8) (r : Byte) : List Instr := [cfgAddr d f r, .dataRd32 (cfgOffset r)]

/-- R84: `CFG_WR8 d, f, r, v`. -/
def cfgWr8 (d : Fin 32) (f : Fin 8) (r : Byte) (v : Word) : List Instr := [cfgAddr d f r, .dataWr8 (cfgOffset r) v]

/-- R84: `CFG_WR16 d, f, r, v`. -/
def cfgWr16 (d : Fin 32) (f : Fin 8) (r : Byte) (v : Word) : List Instr := [cfgAddr d f r, .dataWr16 (cfgOffset r) v]

/-- R84: `CFG_WR32 d, f, r, v`. -/
def cfgWr32 (d : Fin 32) (f : Fin 8) (r : Byte) (v : Word) : List Instr := [cfgAddr d f r, .dataWr32 (cfgOffset r) v]

/-- One hexadecimal digit. -/
def hexDigit (n : Nat) : Char := if n < 10 then Char.ofNat (48 + n) else Char.ofNat (55 + n)

/-- R83: a hexadecimal immediate of `n` digits. -/
def hexImm (n : Nat) (v : Nat) : String :=
  "0x" ++ String.ofList ((List.range n).reverse.map fun i => hexDigit (v >>> (4 * i) % 16))

/-- R83: a record's name; the records carry no name, so their `ref` stands for it. -/
def recordName (d : Device) : String := "D" ++ toString d.ref

/-- R83: the assembly text of a transaction, `MNEMONIC operands`. -/
def asmText : Instr → String
  | .addrRd => "ADDR_RD"
  | .addrWr v => "ADDR_WR " ++ hexImm 8 v.toNat
  | .dataRd8 k => "DATA_RD8 " ++ toString k.toNat
  | .dataRd16 k => "DATA_RD16 " ++ toString k.toNat
  | .dataRd32 k => "DATA_RD32 " ++ toString k.toNat
  | .dataWr8 k v => "DATA_WR8 " ++ toString k.toNat ++ ", " ++ hexImm 8 v.toNat
  | .dataWr16 k v => "DATA_WR16 " ++ toString k.toNat ++ ", " ++ hexImm 8 v.toNat
  | .dataWr32 k v => "DATA_WR32 " ++ toString k.toNat ++ ", " ++ hexImm 8 v.toNat
  | .construct => "CONSTRUCT"
  | .register d none => "REGISTER " ++ recordName d
  | .register d (some n) => "REGISTER " ++ recordName d ++ ", " ++ toString n.toNat
  | .shutdown => "SHUTDOWN"
  | .destroy => "DESTROY"
  | .legacyCb => "LEGACY_CB"

/-- R85: the transaction of an x86 `in` of width `w` with the port number in `dx`.
PRESUMED (the spec marks R85 as general knowledge, K3); no step uses it: log 19. -/
def guestIn (w : Width) (dx : BitVec 16) : Transaction := { desc := encodeIo 0#2 w dx, oob := OutOfBand.zero }

/-- R85: the transaction of an x86 `out` of width `w`, with the port number in `dx` and the data in the low bits of `eax`.
PRESUMED (the spec marks R85 as general knowledge, K3); no step uses it: log 19. -/
def guestOut (w : Width) (dx : BitVec 16) (eax : Word) : Transaction :=
  { desc := encodeIo 1#2 w dx, oob := { OutOfBand.zero with wdata := eax } }

end Sys2Proof.Machine
end

