-- ==== Sys2Proof/Safety.lean ====
section
/-!
DEFINITION. The terms in which claims speak of a run: the invariant of the controller (10_state.md R24 to R28), device
records whose hooks keep R32, generic devices (R31), and runs of a list of transactions.
-/

namespace Sys2Proof.Machine

/-- Every hook of the record keeps R32 (it issues no transaction and touches no other cell). -/
def confined (d : Device) : Bool :=
  d.init != .unconfined && d.pw != .unconfined && d.pr != .unconfined && d.ovr != .unconfined

/-- A generic device, with the default hooks of R31. -/
def generic (d : Device) : Bool := d.pw == .default && d.pr == .default && d.ovr == .default

/-- The write policy drops a write to `r` of a cell before any hook is called (R140, R141). -/
def writeDropped (c : Cell) (r : Byte) : Bool := readOnlyReg r || (standardHeader c && subsystemReg r)

/-- The transaction is one of the eight I/O transactions of the guest (CLASS 00 or 01, R76). -/
def isIo : Instr → Bool
  | .addrRd => true
  | .addrWr _ => true
  | .dataRd8 _ => true
  | .dataRd16 _ => true
  | .dataRd32 _ => true
  | .dataWr8 _ _ => true
  | .dataWr16 _ _ => true
  | .dataWr32 _ _ => true
  | .construct => false
  | .register _ _ => false
  | .shutdown => false
  | .destroy => false
  | .legacyCb => false

/-- The transaction empties the slot table: SHUTDOWN or DESTROY (R182, R184, R186). -/
def isTeardown : Instr → Bool
  | .addrRd => false
  | .addrWr _ => false
  | .dataRd8 _ => false
  | .dataRd16 _ => false
  | .dataRd32 _ => false
  | .dataWr8 _ _ => false
  | .dataWr16 _ _ => false
  | .dataWr32 _ _ => false
  | .construct => false
  | .register _ _ => false
  | .shutdown => true
  | .destroy => true
  | .legacyCb => false

/-- What the rules keep true of the controller from power-on, between the registrations of a drain too (R171). -/
structure InvDrain (s : State) : Prop where
  /-- STORE is in its canonical form (log 6). -/
  storeWf : s.store.wf = true
  /-- R25: the entries of SUB are filled contiguously from index 0, and NSUB counts them. -/
  subFilled : ∀ (n : Fin 32) (i : Fin 7), (s.subAt n i).isSome = true ↔ i.val < (s.subCount n).val
  /-- R25: an empty slot has no secondary device. -/
  emptySlot : ∀ n : Fin 32, s.slotAt n = none → s.subCount n = 0
  /-- R24, R26: INSTALLED counts the occupied slots. -/
  installedCount : s.installed = s.slot.toList.countP Option.isSome
  /-- R21, R178, R182: a device is installed exactly while the block is initialised. -/
  initIffInstalled : s.phase = .init ↔ 0 < s.installed
  /-- R242: the latch is 0 while the block is not initialised. -/
  latchIdle : s.phase ≠ .init → s.latch = 0#32
  /-- R28: QUEUE holds at most 16 records. -/
  queueBound : s.queue.length ≤ Config.queueCap
  /-- R27, R179: a cell that is routed to no device is zero. -/
  unroutedZero : ∀ (n : Fin 32) (f : Fin 8), s.devAt n f = none → ∀ r, s.readByte n f r = 0#8
  /-- R29, R180: a routed record's identity is the pair it is routed by. -/
  routedIdent : ∀ (n : Fin 32) (f : Fin 8) (d : Device), s.devAt n f = some d → s.identOf d = some ⟨n, f⟩

/-- What the rules keep true of the controller between transactions. While a drain replays QUEUE, only the last field fails. -/
structure Inv (s : State) : Prop extends InvDrain s where
  /-- R28: QUEUE is empty once a controller exists. -/
  queueAbsent : s.phase ≠ .absent → s.queue = []

/-- Runs a list of transactions in order, stopping at the first that has no step. -/
def runInstrs : List Instr → State → Host.Outcome State Fault Refusal
  | [], s => .next s
  | i :: is, s =>
    match exec i s with
    | .next t => runInstrs is t
    | .fault r => .fault r
    | .refused r => .refused r

end Sys2Proof.Machine
end

