-- ==== Sys2Proof/Certificates/Slice0/Obligations.lean ====
section
/-!
DEFINITION. The statements for the provers: what the numbered rules of spec/ say of the transactions and of the machine.
Each statement is about every state and operand that meets its hypotheses, reached by a run or not.
-/

namespace Sys2Proof.Claims

open Sys2Proof.Machine

/-- Every one of the six data-port transactions is absorbed for the reason `c` (R117): a read returns all-ones of its width,
a write nothing, and but for the answer the state is as it was; the draw count shows that no hook is called. -/
def Absorbed (s : State) (c : Cause) : Prop :=
  ∀ (k : BitVec 2) (v : Word),
    exec (.dataRd8 k) s = .next { s with result := .rdata8 0xFF#8, trace := [c] } ∧
    exec (.dataRd16 k) s = .next { s with result := .rdata16 0xFFFF#16, trace := [c] } ∧
    exec (.dataRd32 k) s = .next { s with result := .rdata32 0xFFFFFFFF#32, trace := [c] } ∧
    exec (.dataWr8 k v) s = .next { s with result := .nothing, trace := [c] } ∧
    exec (.dataWr16 k v) s = .next { s with result := .nothing, trace := [c] } ∧
    exec (.dataWr32 k v) s = .next { s with result := .nothing, trace := [c] }

/-- The six data-port transactions. -/
def isData : Instr → Bool
  | .addrRd => false
  | .addrWr _ => false
  | .dataRd8 _ => true
  | .dataRd16 _ => true
  | .dataRd32 _ => true
  | .dataWr8 _ _ => true
  | .dataWr16 _ _ => true
  | .dataWr32 _ _ => true
  | .construct => false
  | .register _ _ => false
  | .shutdown => false
  | .destroy => false
  | .legacyCb => false

/-- `u` is `s` but for the store, the draw count and the answer. -/
def OnlyStore (s u : State) : Prop := u.toController = { s.toController with store := u.store } ∧ u.input = s.input

/-- `u` is `s` but for the draw count and the answer: every byte of the store reads as before. -/
def NoStore (s u : State) : Prop := OnlyStore s u ∧ ∀ a, u.store.read a = s.store.read a

/-- The address lies outside the cell `STORE[n][f]`. -/
def OutsideCell (n : Fin 32) (f : Fin 8) (a : Nat) : Prop := a < storeAddr n f 0#8 ∨ storeAddr n f 0#8 + 256 ≤ a

/-- What a read lane of a device with the default read hook returns (R144 to R146, R31). -/
def genericByte (s : State) (t : Target) (r : Byte) : Byte :=
  if r ≤ 0x03#8 then identityByte t.dev r else if r = 0x0E#8 then headerByte s t else s.readByte t.slot t.fn r

/-- The register of lane `i` of a data-port access at port offset `k`, as a number: latch bits 7:2 with 00 below them, plus `k`,
plus `i`, modulo 256 (R72 to R74; the wrap is the spec's decision D6, log 15). -/
def regNum (l : Word) (k : BitVec 2) (i : Nat) : Byte := BitVec.ofNat 8 (l.toNat / 4 % 64 * 4 + k.toNat + i)

/-- Lane `i` of a data-port access at port offset `k` in the state `s` addresses this register. -/
def regAt (s : State) (k : BitVec 2) (i : Nat) : Byte := regNum s.latch k i

/-- The latch value that names register `r` of the bus, device and function that `l` names. -/
def latchFor (l : Word) (r : Byte) : Word := (l &&& 0xFFFFFF00#32) ||| ((r &&& 0xFC#8).zeroExtend 32)

/-- The 1-byte writes of the lanes of a write of width `w`, in ascending order, each after an ADDR_WR of its register; the latch
is then put back. -/
def byteWrites (l : Word) (w : Width) (k : BitVec 2) (v : Word) : List Instr :=
  ((List.range w.bytes).flatMap fun i =>
    [.addrWr (latchFor l (regNum l k i)), .dataWr8 ((regNum l k i).extractLsb' 0 2) (v >>> (8 * i))]) ++ [.addrWr l]

/-- The 1-byte reads of the given lanes, in that order, each after an ADDR_WR of its register; the bytes they return, and the
state after them. -/
def byteReads (l : Word) (k : BitVec 2) : List Nat → State → Option (State × List Byte)
  | [], s => some (s, [])
  | i :: is, s =>
    match runInstrs [.addrWr (latchFor l (regNum l k i)), .dataRd8 ((regNum l k i).extractLsb' 0 2)] s with
    | .next t =>
      match t.result with
      | .rdata8 b => (byteReads l k is t).map fun (u, bs) => (u, b :: bs)
      | _ => none
    | _ => none

/-- The cell that a registration sees at `(n, f)`: zero if it includes the Uninit to Init transition (R178). -/
def startCell (s : State) (n : Fin 32) (f : Fin 8) : Cell := if s.phase = .uninit then fun _ => 0#8 else s.cell n f

/-- The state in which CONSTRUCT begins to replay the queue (R170, R171). -/
def drainStart (s : State) : State := { s with phase := .uninit, latch := 0#32, result := .nothing, trace := [] }

/-- The slot a registration asks for is `n` (R175, R176). -/
def AsksFor (s : State) (req : Option Byte) (n : Fin 32) : Prop :=
  (∀ m, req = some m → m.toNat = n.val) ∧ (req = none → s.installed = n.val)

/-- The registration `exec (.register d req) s` places the record at `(n, f)` with the cell `c` and answers Ok(n), as R180
commits it; `slots`, `subs`, `nsubs` and `count` are the slot table and INSTALLED afterwards. -/
def CommitsAt (s : State) (d : Device) (req : Option Byte) (n : Fin 32) (f : Fin 8) (c : Cell)
    (slots : Vector (Option Device) 32) (subs : Vector (Vector (Option Device) 7) 32) (nsubs : Vector (Fin 8) 32)
    (count : Nat) : Prop :=
  ∃ t, exec (.register d req) s = .next t ∧ t.result = .outcome (.ok n) ∧ t.phase = .init ∧ t.fault = false ∧
    t.latch = s.latch ∧ t.slot = slots ∧ t.sub = subs ∧ t.nsub = nsubs ∧ t.installed = count ∧ t.queue = s.queue ∧
    t.identOf d = some ⟨n, f⟩ ∧ (∀ d', d'.ref ≠ d.ref → t.identOf d' = s.identOf d') ∧ t.cell n f = c ∧
    (∀ n' f', ¬(n' = n ∧ f' = f) → t.cell n' f' = startCell s n' f') ∧
    t.draws = s.draws + 1 ∧ t.trace = [] ∧ t.input = s.input

/-- Two outcomes have the same effect: the same controller state, pending transactions and draws, or the same refusal. -/
def SameEffect : Host.Outcome State Fault Refusal → Host.Outcome State Fault Refusal → Prop
  | .next t, .next t' => t.toController = t'.toController ∧ t.draws = t'.draws ∧ t.input = t'.input
  | .refused r, .refused r' => r = r'
  | .fault r, .fault r' => r = r'
  | _, _ => False

/-- Two states agree but for bytes of the store outside the cell `(n, f)`. -/
def AgreeOnCell (n : Fin 32) (f : Fin 8) (s₁ s₂ : State) : Prop :=
  s₁.toController = { s₂.toController with store := s₁.store } ∧ s₁.draws = s₂.draws ∧ s₁.cell n f = s₂.cell n f

end Sys2Proof.Claims

open Sys2Proof Sys2Proof.Machine Sys2Proof.Claims

/-! ## Encodings (30_encoding.md) -/

/-- Under all legal parameters (R78), decoding the encoding of a well-formed transaction gives it back, with
every operand: no bit of a descriptor and no out-of-band operand is dropped (R76 to R82, the spec's own interface form, decision D29). -/
def Obligations.DecodeOfEncodeIsInstr : Prop :=
  ∀ (p : Params) (i : Instr), p.wf = true → i.wf = true → decodeWith p (encodeWith p.ports i) = .instr i

/-- At the default ports the decoder reads a transaction from a word exactly where a row of the opcode table matches it, and
then it is that row's transaction; so at most one row matches a word (R81, R82, the spec's own form, decision D29). -/
def Obligations.DecodedWordsAreTheTableRows : Prop :=
  ∀ (d : Word) (o : OutOfBand),
    (∀ i, decodeWord Config.params d o = .instr i → opcodeRow i ∈ opcodeTable ∧ (opcodeRow i).covers d = true) ∧
    (∀ row ∈ opcodeTable, row.covers d = true → ∃ i, decodeWord Config.params d o = .instr i ∧ opcodeRow i = row)

/-- The descriptors that R80 lists are refused, under all parameters: CLASS = 11, WID = 11 in an I/O class, a
nonzero must-be-zero bit, a reserved CMD and, under the default of P_ADDR_NARROW (log 9), a narrow address-port access; and a
word for another port is not for this block. The spec's decisions D4 and D29; which reason is named where several hold (a
reserved width before nonzero must-be-zero bits) is the model's choice of log 11. -/
def Obligations.ReservedDescriptorsRefused : Prop :=
  ∀ (p : Params) (d : Word) (o : OutOfBand),
    (d.extractLsb' 30 2 = 3#2 → decodeWord p d o = .refused .reservedClass) ∧
    (d.extractLsb' 31 1 = 0#1 → d.extractLsb' 28 2 = 3#2 → decodeWord p d o = .refused .reservedWidth) ∧
    (d.extractLsb' 31 1 = 0#1 → d.extractLsb' 28 2 ≠ 3#2 → d.extractLsb' 16 12 ≠ 0#12 →
      decodeWord p d o = .refused .nonzeroReservedBits) ∧
    (d.extractLsb' 30 2 = 2#2 → d.extractLsb' 8 22 ≠ 0#22 → decodeWord p d o = .refused .nonzeroReservedBits) ∧
    (d.extractLsb' 30 2 = 2#2 → d.extractLsb' 8 22 = 0#22 → d.extractLsb' 0 8 = 0#8 ∨ 6#8 ≤ d.extractLsb' 0 8 →
      decodeWord p d o = .refused .reservedCommand) ∧
    (p.narrow = none → d.extractLsb' 31 1 = 0#1 → d.extractLsb' 16 12 = 0#12 →
      d.extractLsb' 28 2 = 0#2 ∨ d.extractLsb' 28 2 = 1#2 → d.extractLsb' 0 16 = p.ports.addrPort →
      decodeWord p d o = .refused .narrowAddressAccess) ∧
    (d.extractLsb' 31 1 = 0#1 → d.extractLsb' 16 12 = 0#12 → d.extractLsb' 28 2 ≠ 3#2 →
      d.extractLsb' 0 16 ≠ p.ports.addrPort → d.extractLsb' 2 14 ≠ p.ports.dataBase.extractLsb' 2 14 →
      decodeWord p d o = .notThisBlock)

/-- Words written out from R82's table and the test vectors of 95_test_vectors.md part 2 decode as they say. -/
def Obligations.SampleWordsDecode : Prop :=
  decode ⟨0x60000CF8#32, { OutOfBand.zero with wdata := 0x80000010#32 }⟩ = .instr (.addrWr 0x80000010#32) ∧
  decode ⟨0x20000CF8#32, OutOfBand.zero⟩ = .instr .addrRd ∧
  decode ⟨0x00000CFF#32, OutOfBand.zero⟩ = .instr (.dataRd8 3#2) ∧
  decode ⟨0x10000CFE#32, OutOfBand.zero⟩ = .instr (.dataRd16 2#2) ∧
  decode ⟨0x60000CFF#32, { OutOfBand.zero with wdata := 0xAABBCCDD#32 }⟩ = .instr (.dataWr32 3#2 0xAABBCCDD#32) ∧
  decode ⟨0x80000002#32, { OutOfBand.zero with slotReq := some 5#8 }⟩ = .instr (.register Device.zero (some 5#8)) ∧
  decode ⟨0x80000005#32, OutOfBand.zero⟩ = .instr .legacyCb

/-- A step takes the next transaction of the host's sequence and runs what it decodes to (R4, R37), under all parameters (R5);
presenting the encoding of a well-formed transaction makes the next step run it. `step` is the step at the default parameters.
The spec's decisions D1 to D3; the sequence in the state is log 1. -/
def Obligations.StepRunsTheDecodedTransaction : Prop :=
  (∀ (p : Params) (s : State) (t : Transaction) (rest : List Transaction) (i : Instr), s.input = t :: rest →
    decodeWith p t = .instr i → stepWith p s = exec i { s with input := rest }) ∧
  (∀ (p : Params) (s : State) (i : Instr), p.wf = true → i.wf = true →
    stepWith p (s.present (encodeWith p.ports i)) = exec i s) ∧
  (∀ (s : State) (t : Transaction) (rest : List Transaction) (i : Instr), s.input = t :: rest → decode t = .instr i →
    step s = exec i { s with input := rest }) ∧
  (∀ (s : State) (i : Instr), i.wf = true → step (s.present (encode i)) = exec i s)

/-- A transaction that the decoder refuses, or that is not addressed to this block, has no step (R80). With no transaction
presented there is nothing to run: the model's choice of log 1. R80 is the spec's decision D29. -/
def Obligations.UndecodedTransactionHasNoStep : Prop :=
  (∀ (p : Params) (s : State) (t : Transaction) (rest : List Transaction) (r : DecodeRefusal), s.input = t :: rest →
    decodeWith p t = .refused r → stepWith p s = .refused (.descriptor r)) ∧
  (∀ (p : Params) (s : State) (t : Transaction) (rest : List Transaction), s.input = t :: rest →
    decodeWith p t = .notThisBlock → stepWith p s = .refused .notThisBlock) ∧
  (∀ (p : Params) (s : State), s.input = [] → stepWith p s = .fault .noTransaction) ∧
  (∀ s : State, step s = stepWith Config.params s)

/-- R56, R78, R102: a 1- or 2-byte access to the address port is what the parameter P_ADDR_NARROW says (decision D4): refused
by default; else, on a bound port, it changes no state of the controller, LATCH included, and a read returns the parameter's
value (DEDUCED, log 9). Unbound ports and FAULT come first (R62, R214). -/
def Obligations.NarrowAccessIsItsParameter : Prop :=
  ∀ (p : Params) (s : State) (w : Width) (o : OutOfBand), w ≠ .w4 →
    (p.narrow = none → ∀ cls : BitVec 2, cls = 0#2 ∨ cls = 1#2 →
      stepWith p (s.present ⟨encodeIo cls w p.ports.addrPort, o⟩) = .refused (.descriptor .narrowAddressAccess)) ∧
    (∀ v, p.narrow = some v →
      (s.fault = true → ∀ cls : BitVec 2, cls = 0#2 ∨ cls = 1#2 →
        stepWith p (s.present ⟨encodeIo cls w p.ports.addrPort, o⟩) = .refused .faultSet) ∧
      (s.fault = false → stepWith p (s.present ⟨encodeIo 1#2 w p.ports.addrPort, o⟩) =
        .next { s with result := .nothing, trace := [] }) ∧
      (s.fault = false → s.phase = .init → stepWith p (s.present ⟨encodeIo 0#2 w p.ports.addrPort, o⟩) =
        .next { s with draws := s.draws + 1, result := Result.ofWord w (v w s.latch s.draws), trace := [] }) ∧
      (s.fault = false → s.phase ≠ .init → stepWith p (s.present ⟨encodeIo 0#2 w p.ports.addrPort, o⟩) =
        .next { s with draws := s.draws + 1, result := Result.ofWord w (Config.unclaimedRead s.draws), trace := [] }))

/-- R71, R72: the fields of the latch word, bit for bit; the bits 30:24 and 1:0 play no part in any of them. -/
def Obligations.LatchFieldsAreTheSpecsBits : Prop :=
  ∀ l : Word,
    (latchEnabled l = true ↔ l.getLsbD 31 = true ∧ l.extractLsb' 16 8 = 0#8) ∧
    (latchDev l).val = l.toNat / 2 ^ 11 % 32 ∧ (latchFn l).val = l.toNat / 2 ^ 8 % 8 ∧
    (latchGrp l).toNat = l.toNat / 4 % 64 * 4

/-- R73 to R75 as numbers: lane 0 is register `grp + k`, lane `i` is register `base + i` modulo 256 (the spec's decision D6,
log 15), and it carries bits `8i+7:8i` of the data word. -/
def Obligations.LaneRegistersAreNumbered : Prop :=
  ∀ (l v : Word) (k : BitVec 2) (b : Byte) (i : Nat),
    (laneBase l k).toNat = l.toNat / 4 % 64 * 4 + k.toNat ∧ (laneReg b i).toNat = (b.toNat + i) % 256 ∧
    laneReg (laneBase l k) i = regNum l k i ∧ (laneByte v i).toNat = v.toNat / 2 ^ (8 * i) % 256

/-- R84: `CFG_ADDR d, f, r` selects device `d`, function `f` and the group of `r`, enabled and on bus 0, and with the port
offset of the pseudo-instruction lane 0 is register `r`; a pseudo-instruction leaves the latch at that value (decision D30). -/
def Obligations.PseudoAddressSelectsItsRegister : Prop :=
  ∀ (d : Fin 32) (f : Fin 8) (r : Byte),
    latchEnabled (cfgAddrWord d f r) = true ∧ latchDev (cfgAddrWord d f r) = d ∧ latchFn (cfgAddrWord d f r) = f ∧
    laneBase (cfgAddrWord d f r) (cfgOffset r) = r ∧
    ∀ (v : Word) (s t : State), s.fault = false → s.phase = .init →
      (runInstrs (cfgRd8 d f r) s = .next t ∨ runInstrs (cfgRd16 d f r) s = .next t ∨
        runInstrs (cfgRd32 d f r) s = .next t ∨ runInstrs (cfgWr8 d f r v) s = .next t ∨
        runInstrs (cfgWr16 d f r v) s = .next t ∨ runInstrs (cfgWr32 d f r v) s = .next t) →
      t.latch = cfgAddrWord d f r

/-- R51: a location of bus 0 below INSTALLED, in an occupied slot and of an existing function, is reached after `CFG_ADDR`,
whatever the device's hooks are: the latch resolves to that device, and lane 0 is that register. Of a device with the default
read hook `CFG_RD8` reads the identity, header or stored byte. Derived by the spec from R111 to R114. -/
def Obligations.PseudoReadReachesTheLocation : Prop :=
  ∀ (s : State) (n : Fin 32) (f : Fin 8) (r : Byte) (dev : Device), s.fault = false → s.phase = .init →
    n.val < s.installed → s.devAt n f = some dev →
    (∃ u, exec (cfgAddr n f r) s = .next u ∧ u.resolve = .ok ⟨n, f, dev⟩ ∧ laneBase u.latch (cfgOffset r) = r) ∧
    (dev.pr = .default →
      ∃ t, runInstrs (cfgRd8 n f r) s = .next t ∧ t.result = .rdata8 (genericByte s ⟨n, f, dev⟩ r) ∧
        NoStore { s with latch := cfgAddrWord n f r } t)

/-! ## The address-latch port (40_address_port.md) -/

/-- R100: ADDR_WR stores WDATA in LATCH, any 32-bit value and all of its bits, and writes nothing else. -/
def Obligations.AddrWrStoresTheLatch : Prop :=
  ∀ (v : Word) (s : State), (encode (.addrWr v)).desc = 0x60000CF8#32 ∧
    (s.fault = false → s.phase = .init →
      exec (.addrWr v) s = .next { s with latch := v, result := .nothing, trace := [] })

/-- R101: ADDR_RD returns LATCH verbatim and writes nothing; what was just written is read back; and after the initialisation
that follows a SHUTDOWN it returns 0. -/
def Obligations.AddrRdReturnsTheLatch : Prop :=
  ∀ s : State, (encode .addrRd).desc = 0x20000CF8#32 ∧
    (s.fault = false → s.phase = .init →
      exec .addrRd s = .next { s with result := .rdata32 s.latch, trace := [] }) ∧
    (∀ (v : Word) (t : State), s.phase = .init → exec (.addrWr v) s = .next t →
      exec .addrRd t = .next { t with result := .rdata32 v, trace := [] }) ∧
    (∀ (d : Device) (req : Option Byte) (t u : State), exec .shutdown s = .next t → exec (.register d req) t = .next u →
      u.phase = .init → exec .addrRd u = .next { u with result := .rdata32 0#32, trace := [] })

/-- R62: while PHASE is not Init an I/O transaction does not reach the block. Its state is unchanged, an address-port write is
not latched, and a read returns a draw of P_UNCLAIMED_READ, of the read's width, whatever that draw is (decision D5, log 3). -/
def Obligations.UnboundPortsLeaveTheBlockAlone : Prop :=
  ∀ s : State, s.fault = false → s.phase ≠ .init →
    (∀ (k : BitVec 2) (v : Word),
      exec (.addrWr v) s = .next { s with result := .nothing, trace := [] } ∧
      exec (.dataWr8 k v) s = .next { s with result := .nothing, trace := [] } ∧
      exec (.dataWr16 k v) s = .next { s with result := .nothing, trace := [] } ∧
      exec (.dataWr32 k v) s = .next { s with result := .nothing, trace := [] }) ∧
    (∀ k : BitVec 2,
      exec .addrRd s = .next { s with
        draws := s.draws + 1, result := .rdata32 (Config.unclaimedRead s.draws), trace := [] } ∧
      exec (.dataRd8 k) s = .next { s with
        draws := s.draws + 1, result := .rdata8 ((Config.unclaimedRead s.draws).extractLsb' 0 8), trace := [] } ∧
      exec (.dataRd16 k) s = .next { s with
        draws := s.draws + 1, result := .rdata16 ((Config.unclaimedRead s.draws).extractLsb' 0 16), trace := [] } ∧
      exec (.dataRd32 k) s = .next { s with
        draws := s.draws + 1, result := .rdata32 (Config.unclaimedRead s.draws), trace := [] })

/-! ## The data ports (41_data_port.md) -/

/-- R110, R33: the latch resolves to a target exactly when it is enabled on bus 0, the device number is below INSTALLED, the
slot is occupied and the function is at most NSUB; the target's record is the primary for function 0 and the secondary at
index `f - 1` for function `f` (R33, the spec's decision D9). A missing target carries the reason of the first check that fails.
A secondary entry that is empty although `f <= NSUB` gives no target, in states that no run reaches (D9; DEDUCED, log 14). -/
def Obligations.ResolveChecksInOrder : Prop :=
  ∀ c : Controller,
    (∀ t : Target, c.resolve = .ok t ↔
      latchEnabled c.latch = true ∧ t.slot = latchDev c.latch ∧ t.fn = latchFn c.latch ∧ t.slot.val < c.installed ∧
      c.slotAt t.slot ≠ none ∧ t.fn ≤ c.subCount t.slot ∧ (t.fn = 0 → c.slotAt t.slot = some t.dev) ∧
      (∀ i : Fin 7, t.fn = i.succ → c.subAt t.slot i = some t.dev)) ∧
    (latchEnabled c.latch = false → c.resolve = .error .noOpDisabled) ∧
    (latchEnabled c.latch = true → c.installed ≤ (latchDev c.latch).val → c.resolve = .error .noOpNoDevice) ∧
    (latchEnabled c.latch = true → (latchDev c.latch).val < c.installed → c.slotAt (latchDev c.latch) = none →
      c.resolve = .error .noOpEmptySlot) ∧
    (latchEnabled c.latch = true → (latchDev c.latch).val < c.installed → c.slotAt (latchDev c.latch) ≠ none →
      c.subCount (latchDev c.latch) < latchFn c.latch → c.resolve = .error .noOpNoFunction)

/-- R117: without a target every data-port access is absorbed. -/
def Obligations.NoTargetIsAbsorbed : Prop :=
  ∀ (s : State) (c : Cause), s.fault = false → s.phase = .init → s.resolve = .error c → Absorbed s c

/-- R111: a latch with EN = 0 or a bus other than 0 makes every data-port access a no-op that reads all-ones. The bits 30:24
and 1:0 do not affect the check: latches that agree elsewhere pass it together. -/
def Obligations.DisabledOrOtherBusIsAbsorbed : Prop :=
  (∀ s : State, s.fault = false → s.phase = .init → s.latch.getLsbD 31 = false ∨ s.latch.extractLsb' 16 8 ≠ 0#8 →
    Absorbed s .noOpDisabled) ∧
  (∀ l l' : Word, l.extractLsb' 2 22 = l'.extractLsb' 2 22 → l.getLsbD 31 = l'.getLsbD 31 →
    latchEnabled l = latchEnabled l')

/-- R112, R113: an enabled latch whose device number is not below INSTALLED, or whose slot is empty, makes every data-port
access a no-op that reads all-ones; with INSTALLED = 0 no device number passes. -/
def Obligations.OutOfBoundsIsAbsorbed : Prop :=
  ∀ s : State, s.fault = false → s.phase = .init → latchEnabled s.latch = true →
    (s.installed ≤ (latchDev s.latch).val → Absorbed s .noOpNoDevice) ∧ (s.installed = 0 → Absorbed s .noOpNoDevice) ∧
    ((latchDev s.latch).val < s.installed → s.slotAt (latchDev s.latch) = none → Absorbed s .noOpEmptySlot)

/-- R114 with the boundary `<=` that the spec chose (decision D9): a function above NSUB makes every data-port access a no-op
that reads all-ones; function 0 resolves to the primary itself, and function NSUB still to the last secondary. -/
def Obligations.FunctionAboveCountIsAbsorbed : Prop :=
  ∀ s : State, s.fault = false → s.phase = .init → latchEnabled s.latch = true → (latchDev s.latch).val < s.installed →
    s.slotAt (latchDev s.latch) ≠ none →
    (s.subCount (latchDev s.latch) < latchFn s.latch → Absorbed s .noOpNoFunction) ∧
    (∀ d, latchFn s.latch = 0 → s.slotAt (latchDev s.latch) = some d → s.resolve = .ok ⟨latchDev s.latch, 0, d⟩) ∧
    (∀ (i : Fin 7) (d : Device), latchFn s.latch = i.succ → s.subCount (latchDev s.latch) = i.succ →
      s.subAt (latchDev s.latch) i = some d → s.resolve = .ok ⟨latchDev s.latch, i.succ, d⟩)

/-- R116, R52, R75: a data-port read of a device with the default read hook returns its lanes little-endian, lane 0 the least
significant, wrapping past 0xFF in the same cell (D6, log 15), and has no side effect (R59). -/
def Obligations.GenericReadIsLittleEndian : Prop :=
  ∀ (s : State) (t : Target) (k : BitVec 2), s.fault = false → s.phase = .init → s.resolve = .ok t →
    t.dev.pr = .default →
    (∃ u, exec (.dataRd8 k) s = .next u ∧ u.result = .rdata8 (genericByte s t (regAt s k 0)) ∧
      NoStore s u ∧ u.trace = []) ∧
    (∃ u, exec (.dataRd16 k) s = .next u ∧
      u.result = .rdata16 (genericByte s t (regAt s k 1) ++ genericByte s t (regAt s k 0)) ∧
      NoStore s u ∧ u.trace = []) ∧
    (∃ u, exec (.dataRd32 k) s = .next u ∧
      u.result = .rdata32 (genericByte s t (regAt s k 3) ++ genericByte s t (regAt s k 2) ++
        genericByte s t (regAt s k 1) ++ genericByte s t (regAt s k 0)) ∧
      NoStore s u ∧ u.trace = [])

/-- R115, R75: a data-port write of a device with the default write hook stores lane `i`'s byte at register `base + i` for
every lane that the policy does not drop, and every other byte of the store reads as before. Decisions D6, D7 (log 15). -/
def Obligations.GenericWriteCommitsItsLanes : Prop :=
  ∀ (s : State) (t : Target) (k : BitVec 2) (v : Word), s.fault = false → s.phase = .init → s.resolve = .ok t →
    t.dev.pw = .default →
    ∀ w : Width, ∃ u, exec (dataWriteInstr w k v) s = .next u ∧ OnlyStore s u ∧ u.result = .nothing ∧
      (∀ i, i < w.bytes → writeDropped (s.cell t.slot t.fn) (regAt s k i) = false →
        u.store.read (storeAddr t.slot t.fn (regAt s k i)) = v.extractLsb' (8 * i) 8) ∧
      (∀ a, (∀ i, i < w.bytes → writeDropped (s.cell t.slot t.fn) (regAt s k i) = false →
          a ≠ storeAddr t.slot t.fn (regAt s k i)) → u.store.read a = s.store.read a)

/-- R32, R40, R125: whatever the hooks do, a data-port transaction changes no register and no device of the controller, and
no byte of the store outside the cell its latch resolves to; without a target, no byte at all (decision D16). -/
def Obligations.DataPortTouchesOnlyItsCell : Prop :=
  ∀ (i : Instr) (s u : State), isData i = true → exec i s = .next u →
    OnlyStore s u ∧
    (∀ a, (∀ t, s.phase = .init → s.resolve = .ok t → OutsideCell t.slot t.fn a) → u.store.read a = s.store.read a)

/-- Every data-port transaction completes when the hooks of the device it resolves to keep R32. -/
def Obligations.DataPortCompletesOnConfinedHooks : Prop :=
  ∀ (i : Instr) (s : State), isData i = true → s.fault = false →
    (∀ t, s.resolve = .ok t → confined t.dev = true) → ∃ u, exec i s = .next u ∧ u.latch = s.latch

/-- R54, R246: a wide write has exactly the effect of the 1-byte writes of its lanes, in ascending order, whatever the hooks
are. First, the lanes of one dword group, whose 1-byte writes need no other latch; then every width at every port offset, past
the group and past 0xFF too (R55; decisions D6, D7, log 15), each 1-byte write after an ADDR_WR that names its register. -/
def Obligations.WideWriteIsItsByteWrites : Prop :=
  (∀ (s : State) (v : Word),
    SameEffect (exec (.dataWr32 0#2 v) s)
      (runInstrs [.dataWr8 0#2 v, .dataWr8 1#2 (v >>> 8), .dataWr8 2#2 (v >>> 16), .dataWr8 3#2 (v >>> 24)] s) ∧
    ∀ k : BitVec 2, k ≠ 3#2 →
      SameEffect (exec (.dataWr16 k v) s) (runInstrs [.dataWr8 k v, .dataWr8 (k + 1#2) (v >>> 8)] s)) ∧
  (∀ (s : State) (w : Width) (k : BitVec 2) (v : Word),
    SameEffect (exec (dataWriteInstr w k v) s) (runInstrs (byteWrites s.latch w k v) s))

/-- R54: a wide read returns what the 1-byte reads of its lanes return, in ascending order, with the same effect, whatever
the hooks are. First, the lanes of one dword group; then every port offset, past the group and past 0xFF too (R55; decisions
D6, D7, log 15), each 1-byte read after an ADDR_WR that names its register. -/
def Obligations.WideReadIsItsByteReads : Prop :=
  ∀ s : State, s.phase = .init →
    (∀ u, exec (.dataRd32 0#2) s = .next u → ∃ (u₀ u₁ u₂ u₃ : State) (b₀ b₁ b₂ b₃ : Byte),
      exec (.dataRd8 0#2) s = .next u₀ ∧ u₀.result = .rdata8 b₀ ∧
      exec (.dataRd8 1#2) u₀ = .next u₁ ∧ u₁.result = .rdata8 b₁ ∧
      exec (.dataRd8 2#2) u₁ = .next u₂ ∧ u₂.result = .rdata8 b₂ ∧
      exec (.dataRd8 3#2) u₂ = .next u₃ ∧ u₃.result = .rdata8 b₃ ∧
      u.result = .rdata32 (b₃ ++ b₂ ++ b₁ ++ b₀) ∧ SameEffect (.next u) (.next u₃)) ∧
    (∀ (k : BitVec 2) (u : State), k ≠ 3#2 → exec (.dataRd16 k) s = .next u →
      ∃ (u₀ u₁ : State) (b₀ b₁ : Byte),
        exec (.dataRd8 k) s = .next u₀ ∧ u₀.result = .rdata8 b₀ ∧
        exec (.dataRd8 (k + 1#2)) u₀ = .next u₁ ∧ u₁.result = .rdata8 b₁ ∧
        u.result = .rdata16 (b₁ ++ b₀) ∧ SameEffect (.next u) (.next u₁)) ∧
    (∀ (k : BitVec 2) (u : State), exec (.dataRd16 k) s = .next u → ∃ (t : State) (b₀ b₁ : Byte),
      byteReads s.latch k [0, 1] s = some (t, [b₀, b₁]) ∧ u.result = .rdata16 (b₁ ++ b₀) ∧
      SameEffect (.next u) (exec (.addrWr s.latch) t)) ∧
    (∀ (k : BitVec 2) (u : State), exec (.dataRd32 k) s = .next u → ∃ (t : State) (b₀ b₁ b₂ b₃ : Byte),
      byteReads s.latch k [0, 1, 2, 3] s = some (t, [b₀, b₁, b₂, b₃]) ∧
      u.result = .rdata32 (b₃ ++ b₂ ++ b₁ ++ b₀) ∧ SameEffect (.next u) (exec (.addrWr s.latch) t))

/-- R32: what a data-port access of one cell returns and leaves there does not depend on any other cell. -/
def Obligations.CellsDoNotInterfere : Prop :=
  ∀ (i : Instr) (s₁ s₂ u₁ : State) (t : Target), isData i = true → s₁.phase = .init → s₁.resolve = .ok t →
    AgreeOnCell t.slot t.fn s₁ s₂ → exec i s₁ = .next u₁ →
    ∃ u₂, exec i s₂ = .next u₂ ∧ u₂.result = u₁.result ∧ u₂.trace = u₁.trace ∧ AgreeOnCell t.slot t.fn u₁ u₂

/-! ## The register policy (42_register_policy.md) -/

/-- R140: a write to 0x00..0x03, 0x06..0x0B or 0x0E is dropped: no hook is called and nothing changes, for every device, every
value and every state of the cell. -/
def Obligations.ReadOnlyRegistersDropWrites : Prop :=
  ∀ r : Byte, r ≤ 0x03#8 ∨ (0x06#8 ≤ r ∧ r ≤ 0x0B#8) ∨ r = 0x0E#8 →
    (∀ (s : State) (t : Target) (b : Byte), regWrByte s t r b = .ok (s.note .dropReadOnly)) ∧
    (∀ (s : State) (t : Target) (k : BitVec 2) (v : Word), s.fault = false → s.phase = .init → s.resolve = .ok t →
      laneBase s.latch k = r →
      exec (.dataWr8 k v) s = .next { s with result := .nothing, trace := [.dropReadOnly] })

/-- R141: under the standard header 0x00 a write to 0x28..0x2F is dropped; under any other layout code it takes the generic
write path. Bit 7 of the stored header byte plays no part. The stored byte is looked at (decision D36). -/
def Obligations.StandardHeaderDropsSubsystemWrites : Prop :=
  ∀ (s : State) (t : Target) (r b : Byte), 0x28#8 ≤ r → r ≤ 0x2F#8 →
    (s.readByte t.slot t.fn 0x0E#8 &&& 0x7F#8 = 0x00#8 → regWrByte s t r b = .ok (s.note .dropSubsystem)) ∧
    (s.readByte t.slot t.fn 0x0E#8 &&& 0x7F#8 ≠ 0x00#8 → t.dev.pw = .default →
      ∃ u, regWrByte s t r b = .ok u ∧ OnlyStore s u ∧
        u.store.read (storeAddr t.slot t.fn r) = b ∧
        ∀ a, a ≠ storeAddr t.slot t.fn r → u.store.read a = s.store.read a)

/-- R142, R143, R149: a 1-byte write that no policy drops calls the write hook once, with the cell as it stands; the cell it
returns is installed, and then its replacement byte is committed at `r` over it, or nothing is if it vetoes (decision D15). A
hook that breaks R32 refuses the step (decision D16). -/
def Obligations.WriteHookCommitsOrVetoes : Prop :=
  ∀ (s : State) (t : Target) (k : BitVec 2) (v : Word), s.fault = false → s.phase = .init → s.resolve = .ok t →
    writeDropped (s.cell t.slot t.fn) (laneBase s.latch k) = false →
    (∀ (c : Cell) (b : Byte),
      runPw t.dev.pw (Config.envDraw s.draws) (s.cell t.slot t.fn) (laneBase s.latch k) (v.extractLsb' 0 8)
        = some (c, some b) →
      ∃ u, exec (.dataWr8 k v) s = .next u ∧ OnlyStore s u ∧ u.draws = s.draws + 1 ∧ u.trace = [] ∧
        (∀ x, u.readByte t.slot t.fn x = if x = laneBase s.latch k then b else c x) ∧
        (∀ a, OutsideCell t.slot t.fn a → u.store.read a = s.store.read a)) ∧
    (∀ c : Cell,
      runPw t.dev.pw (Config.envDraw s.draws) (s.cell t.slot t.fn) (laneBase s.latch k) (v.extractLsb' 0 8)
        = some (c, none) →
      ∃ u, exec (.dataWr8 k v) s = .next u ∧ OnlyStore s u ∧ u.draws = s.draws + 1 ∧ u.trace = [.dropHookVeto] ∧
        u.cell t.slot t.fn = c ∧ (∀ a, OutsideCell t.slot t.fn a → u.store.read a = s.store.read a)) ∧
    (runPw t.dev.pw (Config.envDraw s.draws) (s.cell t.slot t.fn) (laneBase s.latch k) (v.extractLsb' 0 8) = none →
      exec (.dataWr8 k v) s = .refused .hookUnconfined)

/-- R144, R53: offsets 0x00..0x03 read the record's vendor and device identity, low byte first, whatever the hooks and the
store are; no hook is called. A 4-byte read of them returns the device ID above the vendor ID, which R53 derives from R52 and
R144. -/
def Obligations.IdentityRegistersReadTheRecord : Prop :=
  ∀ (s : State) (t : Target),
    (regRdByte s t 0x00#8 = .ok (s, t.dev.vid.extractLsb' 0 8) ∧ regRdByte s t 0x01#8 = .ok (s, t.dev.vid.extractLsb' 8 8) ∧
      regRdByte s t 0x02#8 = .ok (s, t.dev.did.extractLsb' 0 8) ∧
      regRdByte s t 0x03#8 = .ok (s, t.dev.did.extractLsb' 8 8)) ∧
    (s.fault = false → s.phase = .init → s.resolve = .ok t → latchGrp s.latch = 0x00#8 →
      exec (.dataRd32 0#2) s = .next { s with result := .rdata32 (t.dev.did ++ t.dev.vid), trace := [] })

/-- R145: register 0x0E reads the stored byte's low 7 bits, with bit 7 set if and only if the routed device is a primary with
at least one secondary; no hook is called, in a lane of any access and so in a 1-byte read. -/
def Obligations.HeaderBitSevenIsSynthesized : Prop :=
  ∀ (s : State) (t : Target), ∃ b : Byte, regRdByte s t 0x0E#8 = .ok (s, b) ∧
    b.extractLsb' 0 7 = (s.readByte t.slot t.fn 0x0E#8).extractLsb' 0 7 ∧
    (b.getLsbD 7 = true ↔ t.fn = 0 ∧ s.subCount t.slot ≠ 0) ∧
    ∀ k : BitVec 2, s.fault = false → s.phase = .init → s.resolve = .ok t → laneBase s.latch k = 0x0E#8 →
      exec (.dataRd8 k) s = .next { s with result := .rdata8 b, trace := [] }

/-- R146 to R149: a 1-byte read of any other register calls the read hook first. A remapped read returns the byte of the
post-hook cell at the remapped offset, raw; else the override hook's blend of the post-hook stored byte; else 0xFF. The cells
the hooks return are installed, one draw is taken a call, and a hook that breaks R32 refuses the step. A device that supplies no
override hook (R31) and whose read hook declines reads 0xFF, the cell left as the read hook made it. Decisions D12, D15, D16. -/
def Obligations.ReadHooksRemapBlendOrDecline : Prop :=
  ∀ (s : State) (t : Target) (k : BitVec 2) (r : Byte), s.fault = false → s.phase = .init → s.resolve = .ok t →
    laneBase s.latch k = r → ¬r ≤ 0x03#8 → r ≠ 0x0E#8 →
    (∀ (c : Cell) (r' : Byte), runPr t.dev.pr (Config.envDraw s.draws) (s.cell t.slot t.fn) r = some (c, some r') →
      ∃ u, exec (.dataRd8 k) s = .next u ∧ u.result = .rdata8 (c r') ∧ OnlyStore s u ∧ u.cell t.slot t.fn = c ∧
        u.draws = s.draws + 1 ∧ u.trace = []) ∧
    (∀ (c c' : Cell) (value mask : Byte),
      runPr t.dev.pr (Config.envDraw s.draws) (s.cell t.slot t.fn) r = some (c, none) →
      runOvr t.dev.ovr (Config.envDraw (s.draws + 1)) c r = some (c', some (value, mask)) →
      ∃ u, exec (.dataRd8 k) s = .next u ∧ u.result = .rdata8 ((c' r &&& ~~~mask) ||| (value &&& mask)) ∧
        OnlyStore s u ∧ u.cell t.slot t.fn = c' ∧ u.draws = s.draws + 2 ∧ u.trace = []) ∧
    (∀ c c' : Cell,
      runPr t.dev.pr (Config.envDraw s.draws) (s.cell t.slot t.fn) r = some (c, none) →
      runOvr t.dev.ovr (Config.envDraw (s.draws + 1)) c r = some (c', none) →
      ∃ u, exec (.dataRd8 k) s = .next u ∧ u.result = .rdata8 0xFF#8 ∧
        OnlyStore s u ∧ u.cell t.slot t.fn = c' ∧ u.draws = s.draws + 2 ∧ u.trace = [.readHookDecline]) ∧
    (∀ c : Cell, t.dev.ovr = .default →
      runPr t.dev.pr (Config.envDraw s.draws) (s.cell t.slot t.fn) r = some (c, none) →
      ∃ u, exec (.dataRd8 k) s = .next u ∧ u.result = .rdata8 0xFF#8 ∧
        OnlyStore s u ∧ u.cell t.slot t.fn = c ∧ u.draws = s.draws + 2 ∧ u.trace = [.readHookDecline]) ∧
    (runPr t.dev.pr (Config.envDraw s.draws) (s.cell t.slot t.fn) r = none →
      exec (.dataRd8 k) s = .refused .hookUnconfined) ∧
    (∀ c : Cell, runPr t.dev.pr (Config.envDraw s.draws) (s.cell t.slot t.fn) r = some (c, none) →
      runOvr t.dev.ovr (Config.envDraw (s.draws + 1)) c r = none → exec (.dataRd8 k) s = .refused .hookUnconfined)

/-- R154: on a device with default hooks, a 1-byte write to a register that the policy does not drop is read back by the next
1-byte read of it. -/
def Obligations.GenericReadAfterWrite : Prop :=
  ∀ (s : State) (t : Target) (k : BitVec 2) (v : Word), s.fault = false → s.phase = .init → s.resolve = .ok t →
    generic t.dev = true → writeDropped (s.cell t.slot t.fn) (laneBase s.latch k) = false →
    ∃ u w, exec (.dataWr8 k v) s = .next u ∧ exec (.dataRd8 k) u = .next w ∧ w.result = .rdata8 (v.extractLsb' 0 8)

/-! ## Registration and the lifecycle (43_lifecycle.md) -/

/-- R170: CONSTRUCT on an absent controller with an empty queue goes to Uninit with the latch at 0 and returns Done; while a
controller exists it is refused. Decisions D25, D39. -/
def Obligations.ConstructCreatesTheController : Prop :=
  ∀ s : State, s.fault = false → (encode .construct).desc = 0x80000001#32 ∧
    (s.phase = .absent → s.queue = [] → exec .construct s =
      .next { s with phase := .uninit, latch := 0#32, result := .outcome .done, trace := [] }) ∧
    (s.phase ≠ .absent → exec .construct s = .refused .controllerExists)

/-- R170, R171: CONSTRUCT completes whatever is queued, if the queued records' `init` hooks keep R32: it returns Done, the
queue is empty, a controller exists and the latch is 0. Decisions D21, D22, D25. -/
def Obligations.ConstructDrainsTheQueue : Prop :=
  ∀ s : State, s.fault = false → s.phase = .absent → (∀ d ∈ s.queue, d.init ≠ .unconfined) →
    ∃ t, exec .construct s = .next t ∧ t.result = .outcome .done ∧ t.queue = [] ∧ t.phase ≠ .absent ∧
      t.latch = 0#32 ∧ t.input = s.input

/-- R188, R171: with the slot table empty, the queued records whose replayed `init` succeeds (`ok`) get the slots 0, 1, 2, ...
as their primaries, in queue order, each with the cell its `init` made of a zero cell; a record whose `init` fails is dropped,
and the drain goes on with the next one. Every other slot stays empty, and the queue is empty afterwards. If none fails, the
`j`-th record gets slot `j` (R188, derived by the spec). Decisions D10, D17, D21; that a failed `init` spends its draw is the
model's choice of log 16. -/
def Obligations.QueueIsReplayedInOrder : Prop :=
  ∀ (s : State) (ok : Device → Bool), s.fault = false → s.phase = .absent → (∀ n : Fin 32, s.slotAt n = none) →
    s.installed = 0 → s.queue.length ≤ Config.queueCap → (s.queue.map Device.ref).Nodup →
    (∀ d ∈ s.queue, s.identOf d = none) →
    (∀ (j : Nat) (d : Device), s.queue[j]? = some d → ∃ res,
      runInit d.init (Config.envDraw (s.draws + j)) (fun _ => 0#8) = some res ∧ ok d = res.isSome) →
    ∃ t, exec .construct s = .next t ∧ t.result = .outcome .done ∧ t.queue = [] ∧ t.fault = false ∧ t.latch = 0#32 ∧
      t.installed = (s.queue.filter ok).length ∧ t.phase = (if s.queue.filter ok = [] then .uninit else .init) ∧
      t.sub = s.sub ∧ t.nsub = s.nsub ∧ (∀ n : Fin 32, t.slotAt n = (s.queue.filter ok)[n.val]?) ∧
      (∀ d ∈ s.queue, ok d = false → t.identOf d = none) ∧
      (∀ (j : Nat) (n : Fin 32) (d : Device), s.queue[j]? = some d → ok d = true →
        n.val = ((s.queue.take j).filter ok).length → t.identOf d = some ⟨n, 0⟩ ∧ t.slotAt n = some d ∧
        runInit d.init (Config.envDraw (s.draws + j)) (fun _ => 0#8) = some (some (t.cell n 0)))

/-- R171: whatever the state, a replayed registration that is rejected changes nothing of the controller, and the drain goes on
past it: CONSTRUCT ends as the replay of the rest of the queue from there ends. So it does after every outcome but a Fatal,
which ends the drain (R214), and a hook that breaks R32, which refuses the transaction. Decisions D16, D20 to D22. -/
def Obligations.DrainGoesOnPastARejection : Prop :=
  ∀ (s u : State) (ds rest : List Device) (d : Device), s.fault = false → s.phase = .absent → s.queue = ds ++ d :: rest →
    replay ds (drainStart s) = .ok u → u.fault = false →
    (∀ (t : State) (reason : RejectReason), registerCore u d none = .ok (t, .rejected reason) →
      t.toController = u.toController) ∧
    (∀ (t : State) (o : HostOutcome), registerCore u d none = .ok (t, o) → t.fault = false →
      (∀ v, replay rest t = .ok v → exec .construct s = .next { v with queue := [], result := .outcome .done }) ∧
      (∀ e, replay rest t = .error e → exec .construct s = .refused e)) ∧
    (∀ (t : State) (o : HostOutcome), registerCore u d none = .ok (t, o) → t.fault = true →
      exec .construct s = .next { t with queue := [], result := .outcome .done }) ∧
    (∀ e, registerCore u d none = .error e → exec .construct s = .refused e)

/-- R173: while no controller exists, REGISTER appends the record to a queue of fewer than 16 and returns Queued; on a full
queue it drops the record and returns QueueOverflow. SLOTREQ is not kept. Decision D21. -/
def Obligations.RegisterWhileAbsentQueues : Prop :=
  ∀ (s : State) (d : Device) (req : Option Byte), s.fault = false → s.phase = .absent →
    (s.queue.length < 16 → exec (.register d req) s =
      .next { s with queue := s.queue ++ [d], result := .outcome .queued, trace := [] }) ∧
    (16 ≤ s.queue.length → exec (.register d req) s = .next { s with result := .outcome .queueOverflow, trace := [] })

/-- R174: registering a record whose identity is set is Fatal(AlreadyRegistered): FAULT is set and nothing else changes
(decision D19). -/
def Obligations.ReRegistrationIsFatal : Prop :=
  ∀ (s : State) (d : Device) (req : Option Byte), s.fault = false → s.phase ≠ .absent → s.identOf d ≠ none →
    exec (.register d req) s =
      .next { s with fault := true, result := .outcome (.fatal .alreadyRegistered), trace := [] }

/-- R175: an explicit slot must be below 32 and is then the slot; one of 32 or more is Rejected(BadSlot), and no state
changes. -/
def Obligations.ExplicitSlotMustBeBelow32 : Prop :=
  ∀ (s : State) (d : Device) (n : Byte),
    (∀ m : Fin 32, pickSlot s (some n) = .ok m ↔ m.val = n.toNat) ∧
    (32 ≤ n.toNat → s.fault = false → s.phase ≠ .absent → s.identOf d = none →
      exec (.register d (some n)) s = .next { s with result := .outcome (.rejected .badSlot), trace := [] })

/-- R176, R177, R218 (the spec's decisions D10, D11, D18): the further checks of a registration before its `init` hook, in
their order: no automatic slot left and a primary that already holds 7 secondaries change nothing but the answer; an occupied
secondary entry is Fatal. -/
def Obligations.RegistrationChecksRejectInOrder : Prop :=
  ∀ (s : State) (d : Device) (req : Option Byte), s.fault = false → s.phase ≠ .absent → s.identOf d = none →
    (req = none → 32 ≤ s.installed →
      exec (.register d req) s = .next { s with result := .outcome (.rejected .noFreeSlot), trace := [] }) ∧
    (∀ n : Fin 32, AsksFor s req n → s.slotAt n ≠ none → s.subCount n = 7 →
      exec (.register d req) s = .next { s with result := .outcome (.rejected .functionsFull), trace := [] }) ∧
    (∀ (n : Fin 32) (i : Fin 7), AsksFor s req n → s.slotAt n ≠ none → s.subCount n = i.castSucc → s.subAt n i ≠ none →
      exec (.register d req) s =
        .next { s with fault := true, result := .outcome (.fatal .subfunctionOccupied), trace := [] })

/-- R177, R178, R180: a registration that passes its checks and whose `init` succeeds becomes the primary of an empty slot, or
the next secondary function of an occupied one. The first registration of a controller also binds the ports and zeroes the
store. Decisions D10, D11, D17. -/
def Obligations.RegistrationCommits : Prop :=
  ∀ (s : State) (d : Device) (req : Option Byte) (n : Fin 32) (c : Cell), s.fault = false → s.phase ≠ .absent →
    s.identOf d = none → AsksFor s req n →
    (s.slotAt n = none → runInit d.init (Config.envDraw s.draws) (startCell s n 0) = some (some c) →
      CommitsAt s d req n 0 c (s.slot.set n (some d)) s.sub s.nsub (s.installed + 1)) ∧
    (∀ i : Fin 7, s.slotAt n ≠ none → s.subCount n = i.castSucc → s.subAt n i = none →
      runInit d.init (Config.envDraw s.draws) (startCell s n i.succ) = some (some c) →
      CommitsAt s d req n i.succ c s.slot (s.sub.set n (s.sub[n].set i (some d))) (s.nsub.set n i.succ) s.installed)

/-- R179, R181: a registration whose `init` hook fails is Rejected(InitFailed) and changes no state, not even the lazy
initialisation (decision D17; the draw it took is spent: the model's choice of log 16); one whose `init` hook breaks R32 is
refused (decision D16). -/
def Obligations.FailedInitChangesNothing : Prop :=
  ∀ (s : State) (d : Device) (req : Option Byte) (n : Fin 32) (f : Fin 8), s.fault = false → s.phase ≠ .absent →
    s.identOf d = none → AsksFor s req n →
    (s.slotAt n = none ∧ f = 0) ∨ (∃ i : Fin 7, s.slotAt n ≠ none ∧ s.subCount n = i.castSucc ∧ s.subAt n i = none ∧
      f = i.succ) →
    (runInit d.init (Config.envDraw s.draws) (startCell s n f) = some none → exec (.register d req) s =
      .next { s with draws := s.draws + 1, result := .outcome (.rejected .initFailed), trace := [] }) ∧
    (runInit d.init (Config.envDraw s.draws) (startCell s n f) = none →
      exec (.register d req) s = .refused .hookUnconfined)

/-- R181: a transaction that answers Rejected or QueueOverflow changes no state of the controller, and one that answers Fatal
changes FAULT only (decision D17). -/
def Obligations.RejectedRegistrationChangesNothing : Prop :=
  ∀ (i : Instr) (s t : State), exec i s = .next t →
    (∀ reason, t.result = .outcome (.rejected reason) → t.toController = s.toController) ∧
    (t.result = .outcome .queueOverflow → t.toController = s.toController) ∧
    (∀ reason, t.result = .outcome (.fatal reason) → t.toController = { s.toController with fault := true })

/-- R182: SHUTDOWN on an existing controller resets PHASE to Uninit, the latch, the slot table, INSTALLED, the store and the
queue, and returns Done; the records' identities stay set (log 5). Without a controller it is refused (decision D23). -/
def Obligations.ShutdownResets : Prop :=
  ∀ s : State, s.fault = false → (encode .shutdown).desc = 0x80000003#32 ∧
    (s.phase ≠ .absent → exec .shutdown s = .next { s with
      phase := .uninit, latch := 0#32, slot := Vector.replicate 32 none,
      sub := Vector.replicate 32 (Vector.replicate 7 none), nsub := Vector.replicate 32 0, installed := 0,
      store := [], queue := [], result := .outcome .done, trace := [] }) ∧
    (s.phase = .absent → exec .shutdown s = .refused .controllerAbsent)

/-- R183: two SHUTDOWNs in a row leave the same state as one, and that state is the power-on state but for PHASE (and the
identities of the records, which are the records'). Derived by the spec, which also excepts STORE: zero after SHUTDOWN, and
unspecified at power-on, where it is zero by the model's choice of log 6. -/
def Obligations.ShutdownIsIdempotent : Prop :=
  ∀ s t : State, exec .shutdown s = .next t →
    exec .shutdown t = .next t ∧
    t.toController = { Controller.powerOn with phase := .uninit, idents := s.idents }

/-- R184: DESTROY has the effect of SHUTDOWN and then leaves no controller; without one it is refused (decisions D23, D24). -/
def Obligations.DestroyIsShutdownThenAbsent : Prop :=
  ∀ s : State, s.fault = false → (encode .destroy).desc = 0x80000004#32 ∧
    (s.phase ≠ .absent → ∃ t, exec .shutdown s = .next t ∧ exec .destroy s = .next { t with phase := .absent }) ∧
    (s.phase = .absent → exec .destroy s = .refused .controllerAbsent)

/-- R185: in Init, LEGACY_CB returns Handled with the fixed result code, whatever that is, and changes nothing; otherwise it
is refused (decision D28, log 10). -/
def Obligations.LegacyCallbackIsHandled : Prop :=
  ∀ s : State, s.fault = false → (encode .legacyCb).desc = 0x80000005#32 ∧
    (s.phase = .init → exec .legacyCb s =
      .next { s with result := .outcome (.handled Config.legacyCbResult), trace := [] }) ∧
    (s.phase ≠ .init → exec .legacyCb s = .refused .callbackNotInstalled)

/-! ## Whole-machine rules -/

/-- R214: a Fatal outcome sets FAULT; while FAULT is set every transaction is refused, so nothing clears it; and a replay stops
at the registration that set it. Decisions D20, D22. -/
def Obligations.FaultIsSticky : Prop :=
  (∀ (i : Instr) (s : State), s.fault = true → exec i s = .refused .faultSet) ∧
  (∀ (i : Instr) (s t : State) (reason : FatalReason), exec i s = .next t → t.result = .outcome (.fatal reason) →
    t.fault = true) ∧
  (∀ (d : Device) (ds : List Device) (s t : State) (o : HostOutcome), registerCore s d none = .ok (t, o) →
    t.fault = true → replay (d :: ds) s = .ok t)

/-- R22 (decision D20): FAULT becomes set only by a REGISTER that answers Fatal, or by a CONSTRUCT of whose queue some record's
replayed registration, the first to do so, answers Fatal and ends the replay. -/
def Obligations.FaultIsSetOnlyByRegistration : Prop :=
  ∀ (i : Instr) (s t : State), exec i s = .next t → t.fault = true →
    (i = .construct ∧ ∃ (ds rest : List Device) (d : Device) (u w : State) (reason : FatalReason),
      s.queue = ds ++ d :: rest ∧
      replay ds (drainStart s) = .ok u ∧ u.fault = false ∧
      registerCore u d none = .ok (w, .fatal reason) ∧ t.toController = { w.toController with queue := [] }) ∨
    ∃ d req, i = .register d req ∧ ∃ reason, t.result = .outcome (.fatal reason)

/-- R21: only CONSTRUCT, REGISTER, SHUTDOWN and DESTROY change PHASE. -/
def Obligations.PhaseChangesOnlyByLifecycle : Prop :=
  ∀ (i : Instr) (s t : State), exec i s = .next t → isIo i = true ∨ i = .legacyCb → t.phase = s.phase

/-- R23: only ADDR_WR, CONSTRUCT, SHUTDOWN and DESTROY write LATCH. -/
def Obligations.LatchIsWrittenOnlyByItsWriters : Prop :=
  ∀ (i : Instr) (s t : State), exec i s = .next t → (∀ v, i ≠ .addrWr v) → i ≠ .construct → isTeardown i = false →
    t.latch = s.latch

/-- R24, R186: only SHUTDOWN and DESTROY empty the slot table: every other transaction keeps every occupied entry of SLOT and
SUB, and replaces none. -/
def Obligations.OccupiedEntriesStay : Prop :=
  ∀ (i : Instr) (s t : State), exec i s = .next t → isTeardown i = false →
    (∀ (n : Fin 32) (d : Device), s.slotAt n = some d → t.slotAt n = some d) ∧
    (∀ (n : Fin 32) (j : Fin 7) (d : Device), s.subAt n j = some d → t.subAt n j = some d)

/-- R26 (decision D11): INSTALLED never decreases except at SHUTDOWN (and DESTROY, which includes it), and one REGISTER raises it by at most
1. -/
def Obligations.InstalledOnlyGrows : Prop :=
  ∀ (i : Instr) (s t : State), exec i s = .next t → isTeardown i = false →
    s.installed ≤ t.installed ∧ (i ≠ .construct → t.installed ≤ s.installed + 1)

/-- R29: a record's identity is set once: no step, under any parameters, changes it or takes it away, SHUTDOWN and DESTROY included. -/
def Obligations.IdentityIsAssignedOnce : Prop :=
  ∀ (p : Params) (s t : State) (d : Device) (x : Ident), stepWith p s = .next t → s.identOf d = some x →
    t.identOf d = some x

/-- R242: whenever PHASE enters Init, LATCH is 0 (derived by the spec, from its decision D25). `Inv` rules out states in
which the latch was written while unbound. -/
def Obligations.LatchIsZeroWhenInitIsEntered : Prop :=
  ∀ (i : Instr) (s t : State), Inv s → exec i s = .next t → s.phase ≠ .init → t.phase = .init → t.latch = 0#32

/-- R179 (derived by the spec): the cell that `init` is called with is all zero, whether a REGISTER was issued or a queued one
is replayed. `InvDrain`, which also holds between the registrations of a drain, rules out states in which an unrouted cell was
written; the second clause says the same of every state that a drain reaches from a state of the invariant. -/
def Obligations.InitHookSeesAZeroCell : Prop :=
  (∀ (s : State) (n : Fin 32) (p : Option (Fin 7)), InvDrain s → s.phase ≠ .absent → placement s n = .ok p →
    ∀ r, (lazyInit s).cell n (placementFn p) r = 0#8) ∧
  (∀ (s u : State) (ds rest : List Device) (n : Fin 32) (p : Option (Fin 7)), Inv s → s.phase = .absent →
    s.queue = ds ++ rest → replay ds (drainStart s) = .ok u → placement u n = .ok p →
    ∀ r, (lazyInit u).cell n (placementFn p) r = 0#8)

/-- The invariant holds at power-on, whose values are the spec's decisions D25 and D27 (R39) and the model's store (log 6). -/
def Obligations.InvariantHoldsAtReset : Prop := Inv State.reset

/-- The invariant of R25 to R28, R21, R29, R242 and of the store's canonical form is kept by every step, from every state that
meets it, under all parameters, and so at the default ones. -/
def Obligations.InvariantIsKeptByEveryStep : Prop :=
  (∀ (p : Params) (s t : State), Inv s → stepWith p s = .next t → Inv t) ∧
  (∀ s t : State, Inv s → step s = .next t → Inv t)
end

