-- ==== Sys2Proof/Laws/Memory.lean ====
section
/-!
SUPPORT. The laws of the configuration-space store: a read after a write, a read after a cell is replaced (both in every
list, canonical or not), and that every operation keeps the canonical form.
-/

namespace Sys2Proof.Machine

/-! ## Addresses -/

theorem storeAddr_lt (s : Fin 32) (f : Fin 8) (r : Byte) : storeAddr s f r < 65536 := by
  have := s.isLt; have := f.isLt; have := r.isLt
  unfold storeAddr; omega

theorem storeAddr_eq_base_add (s : Fin 32) (f : Fin 8) (r : Byte) :
    storeAddr s f r = storeAddr s f 0#8 + r.toNat := by
  simp [storeAddr]

/-- Two locations have one address only if they are the same location. -/
theorem storeAddr_inj {s s' : Fin 32} {f f' : Fin 8} {r r' : Byte} :
    storeAddr s f r = storeAddr s' f' r' ↔ s = s' ∧ f = f' ∧ r = r' := by
  constructor
  · intro h
    have := s.isLt; have := f.isLt; have := r.isLt; have := s'.isLt; have := f'.isLt; have := r'.isLt
    unfold storeAddr at h
    refine ⟨Fin.ext (by omega), Fin.ext (by omega), BitVec.eq_of_toNat_eq (by omega)⟩
  · rintro ⟨rfl, rfl, rfl⟩; rfl

/-! ## Reads -/

@[simp] theorem read_nil (a : Nat) : Memory.read [] a = 0#8 := rfl

theorem read_cons (c : Host.Cell) (m : Memory) (a : Nat) :
    Memory.read (c :: m) a = if c.1 = a then c.2 else Memory.read m a := rfl

/-- An address that no entry lists reads as 0. -/
theorem read_of_unlisted {m : Memory} {a : Nat} (h : ∀ c ∈ m, c.1 ≠ a) : Memory.read m a = 0#8 := by
  induction m with
  | nil => rfl
  | cons c m ih =>
    rw [read_cons, if_neg (h c (by simp)), ih fun e he => h e (by simp [he])]

theorem read_append_of_unlisted {m m' : Memory} {a : Nat} (h : ∀ c ∈ m, c.1 ≠ a) :
    Memory.read (m ++ m') a = Memory.read m' a := by
  induction m with
  | nil => rfl
  | cons c m ih =>
    rw [List.cons_append, read_cons, if_neg (h c (by simp)), ih fun e he => h e (by simp [he])]

theorem read_append_of_right_unlisted {m m' : Memory} {a : Nat} (h : ∀ c ∈ m', c.1 ≠ a) :
    Memory.read (m ++ m') a = Memory.read m a := by
  induction m with
  | nil => simpa using read_of_unlisted h
  | cons c m ih => rw [List.cons_append, read_cons, read_cons, ih]

/-- Dropping entries of other addresses does not change a read. -/
theorem read_filter_of_keep {m : Memory} {p : Host.Cell → Bool} {a : Nat} (h : ∀ c, c.1 = a → p c = true) :
    Memory.read (m.filter p) a = Memory.read m a := by
  induction m with
  | nil => rfl
  | cons c m ih =>
    by_cases hc : c.1 = a
    · simp [h c hc, read_cons, hc]
    · by_cases hp : p c <;> simp [hp, read_cons, hc, ih]

theorem read_insert (c : Host.Cell) (m : Memory) (a : Nat) (h : ∀ e ∈ m, e.1 ≠ c.1) :
    Memory.read (Memory.insert c m) a = if c.1 = a then c.2 else Memory.read m a := by
  induction m with
  | nil => rfl
  | cons e m ih =>
    have he : e.1 ≠ c.1 := h e (by simp)
    have ih := ih fun x hx => h x (by simp [hx])
    by_cases hlt : c.1 < e.1
    · rw [Memory.insert, if_pos hlt, read_cons]
    · by_cases ha : e.1 = a
      · have : c.1 ≠ a := fun hc => he (ha.trans hc.symm)
        rw [Memory.insert, if_neg hlt, read_cons, if_pos ha, if_neg this, read_cons, if_pos ha]
      · rw [Memory.insert, if_neg hlt, read_cons, if_neg ha, ih, read_cons, if_neg ha]

/-- A read after a byte is written (R8): the byte itself at its address, and every other address as before. -/
theorem read_write (m : Memory) (a : Nat) (b : Byte) (x : Nat) :
    (m.write a b).read x = if a = x then b else m.read x := by
  have hother : ∀ e ∈ m.filter (fun c => c.1 != a), e.1 ≠ a := by simp
  by_cases hx : a = x
  · subst hx
    by_cases hb : b = 0#8
    · simp [Memory.write, hb, read_of_unlisted hother]
    · simp [Memory.write, hb, read_insert (a, b) _ a hother]
  · have hkeep : Memory.read (m.filter fun c => c.1 != a) x = Memory.read m x :=
      read_filter_of_keep (by intro c hc; simp [hc, Ne.symm hx])
    by_cases hb : b = 0#8
    · simp [Memory.write, hb, hx, hkeep]
    · simp [Memory.write, hb, hx, read_insert (a, b) _ x hother, hkeep]

/-! ## Cells -/

theorem mem_cellEntries {base : Nat} {c : Cell} {e : Host.Cell} :
    e ∈ Memory.cellEntries base c ↔
      ∃ r < 256, c (BitVec.ofNat 8 r) ≠ 0#8 ∧ e = (base + r, c (BitVec.ofNat 8 r)) := by
  simp only [Memory.cellEntries, List.mem_filterMap, List.mem_range]
  constructor
  · rintro ⟨r, hr, h⟩
    by_cases h0 : c (BitVec.ofNat 8 r) = 0#8
    · simp [h0] at h
    · rw [if_neg h0] at h
      exact ⟨r, hr, h0, (Option.some.inj h).symm⟩
  · rintro ⟨r, hr, h0, rfl⟩
    exact ⟨r, hr, by rw [if_neg h0]⟩

theorem read_filterMap_range (base : Nat) (c : Cell) (n : Nat) (hn : n ≤ 256) (r : Byte) :
    Memory.read ((List.range n).filterMap fun i =>
        if c (BitVec.ofNat 8 i) = 0#8 then none else some (base + i, c (BitVec.ofNat 8 i))) (base + r.toNat)
      = if r.toNat < n then c r else 0#8 := by
  induction n with
  | zero => simp
  | succ n ih =>
    have ih := ih (by omega)
    rw [List.range_succ, List.filterMap_append]
    by_cases hr : r.toNat = n
    · have hb : BitVec.ofNat 8 n = r := by rw [← hr]; simp
      have hun : ∀ e ∈ (List.range n).filterMap (fun i =>
          if c (BitVec.ofNat 8 i) = 0#8 then none else some (base + i, c (BitVec.ofNat 8 i))), e.1 ≠ base + r.toNat := by
        intro e he
        obtain ⟨i, hi, h⟩ := List.mem_filterMap.mp he
        have hi := List.mem_range.mp hi
        by_cases h0 : c (BitVec.ofNat 8 i) = 0#8
        · simp [h0] at h
        · rw [if_neg h0] at h
          have := (Option.some.inj h).symm
          subst this
          simp only
          omega
      rw [read_append_of_unlisted hun]
      by_cases h0 : c r = 0#8
      · simp [hb, h0, hr]
      · simp [hb, h0, hr, read_cons]
    · have hun : ∀ e ∈ [n].filterMap (fun i =>
          if c (BitVec.ofNat 8 i) = 0#8 then none else some (base + i, c (BitVec.ofNat 8 i))), e.1 ≠ base + r.toNat := by
        intro e he
        by_cases h0 : c (BitVec.ofNat 8 n) = 0#8
        · simp [h0] at he
        · simp [h0] at he
          rw [he]; simp only; omega
      rw [read_append_of_right_unlisted hun, ih]
      by_cases hlt : r.toNat < n
      · rw [if_pos hlt, if_pos (by omega)]
      · rw [if_neg hlt, if_neg (by omega)]

theorem read_cellEntries (base : Nat) (c : Cell) (r : Byte) :
    Memory.read (Memory.cellEntries base c) (base + r.toNat) = c r := by
  have h := read_filterMap_range base c 256 (by omega) r
  rwa [if_pos r.isLt] at h

theorem cellEntries_range {base : Nat} {c : Cell} {e : Host.Cell} (h : e ∈ Memory.cellEntries base c) :
    base ≤ e.1 ∧ e.1 < base + 256 := by
  obtain ⟨r, hr, -, rfl⟩ := mem_cellEntries.mp h
  exact ⟨by simp, by simp only; omega⟩

/-- A read after a cell is replaced (R149): inside the cell, the new cell's byte. -/
theorem read_setCell_inside (m : Memory) (s : Fin 32) (f : Fin 8) (c : Cell) (r : Byte) :
    (m.setCell s f c).read (storeAddr s f r) = c r := by
  rw [storeAddr_eq_base_add]
  simp only [Memory.setCell]
  rw [read_append_of_right_unlisted, read_append_of_unlisted, read_cellEntries]
  · intro e he; simp at he; omega
  · intro e he; have := r.isLt; simp at he; omega

/-- A read after a cell is replaced: outside the cell, as before. -/
theorem read_setCell_outside (m : Memory) (s : Fin 32) (f : Fin 8) (c : Cell) (a : Nat)
    (h : a < storeAddr s f 0#8 ∨ storeAddr s f 0#8 + 256 ≤ a) : (m.setCell s f c).read a = m.read a := by
  simp only [Memory.setCell]
  have hmid : ∀ e ∈ Memory.cellEntries (storeAddr s f 0#8) c, e.1 ≠ a := by
    intro e he; have := cellEntries_range he; omega
  rcases h with h | h
  · rw [read_append_of_right_unlisted, read_append_of_right_unlisted hmid]
    · exact read_filter_of_keep (by intro c hc; simp [hc, h])
    · intro e he; simp at he; omega
  · rw [List.append_assoc, read_append_of_unlisted, read_append_of_unlisted hmid]
    · exact read_filter_of_keep (by intro c hc; simp [hc, h])
    · intro e he; simp at he; omega

/-- The address lies outside the cell of every other location. -/
theorem storeAddr_outside {s s' : Fin 32} {f f' : Fin 8} (h : ¬(s' = s ∧ f' = f)) (r : Byte) :
    storeAddr s' f' r < storeAddr s f 0#8 ∨ storeAddr s f 0#8 + 256 ≤ storeAddr s' f' r := by
  have := s.isLt; have := f.isLt; have := r.isLt; have := s'.isLt; have := f'.isLt
  rcases lt_trichotomy s.val s'.val with hs | hs | hs
  · right; simp only [storeAddr, BitVec.toNat_ofNat]; omega
  · have hf : f.val ≠ f'.val := fun hf => h ⟨Fin.ext hs.symm, Fin.ext hf.symm⟩
    simp only [storeAddr, BitVec.toNat_ofNat]; omega
  · left; simp only [storeAddr, BitVec.toNat_ofNat]; omega

@[simp] theorem cell_setCell_same (m : Memory) (s : Fin 32) (f : Fin 8) (c : Cell) : (m.setCell s f c).cell s f = c := by
  funext r; exact read_setCell_inside m s f c r

theorem cell_setCell_other (m : Memory) {s s' : Fin 32} {f f' : Fin 8} (c : Cell) (h : ¬(s' = s ∧ f' = f)) :
    (m.setCell s f c).cell s' f' = m.cell s' f' := by
  funext r; exact read_setCell_outside m s f c _ (storeAddr_outside h r)

/-! ## The canonical form -/

theorem wf_nil : Memory.wf [] = true := rfl

/-- The canonical form, in the terms of lists. -/
theorem wf_iff (m : Memory) :
    m.wf = true ↔ (∀ c ∈ m, c.1 < 65536 ∧ c.2 ≠ 0#8) ∧ m.Pairwise fun c e => c.1 < e.1 := by
  induction m with
  | nil => simp [Memory.wf]
  | cons c m ih =>
    simp only [Memory.wf, Bool.and_eq_true, decide_eq_true_eq, ih, List.all_eq_true, List.pairwise_cons,
      List.forall_mem_cons, bne_iff_ne, ne_eq]
    tauto

theorem wf_filter {m : Memory} (h : m.wf = true) (p : Host.Cell → Bool) : Memory.wf (m.filter p) = true := by
  rw [wf_iff] at h ⊢
  exact ⟨fun c hc => h.1 c (List.mem_of_mem_filter hc), h.2.filter p⟩

theorem mem_insert {c e : Host.Cell} {m : Memory} : e ∈ Memory.insert c m ↔ e = c ∨ e ∈ m := by
  induction m with
  | nil => simp [Memory.insert]
  | cons x m ih =>
    by_cases h : c.1 < x.1
    · simp [Memory.insert, h]
    · simp only [Memory.insert, h, if_false, List.mem_cons, ih]; tauto

theorem wf_insert {m : Memory} {c : Host.Cell} (h : m.wf = true) (hc : c.1 < 65536) (h0 : c.2 ≠ 0#8)
    (hnew : ∀ e ∈ m, e.1 ≠ c.1) : Memory.wf (Memory.insert c m) = true := by
  rw [wf_iff] at h ⊢
  refine ⟨fun e he => ?_, ?_⟩
  · rcases mem_insert.mp he with rfl | he
    · exact ⟨hc, h0⟩
    · exact h.1 e he
  · obtain ⟨-, hp⟩ := h
    induction m with
    | nil => simp [Memory.insert]
    | cons x m ih =>
      rw [List.pairwise_cons] at hp
      by_cases hlt : c.1 < x.1
      · rw [Memory.insert, if_pos hlt, List.pairwise_cons, List.pairwise_cons, List.forall_mem_cons]
        exact ⟨⟨hlt, fun e he => hlt.trans (hp.1 e he)⟩, hp⟩
      · have hx : x.1 ≠ c.1 := hnew x (by simp)
        simp only [Memory.insert, hlt, if_false, List.pairwise_cons]
        refine ⟨fun e he => ?_, ih (fun e he => hnew e (by simp [he])) hp.2⟩
        rcases mem_insert.mp he with rfl | he
        · omega
        · exact hp.1 e he

/-- Writing a byte of the store keeps the canonical form. -/
theorem wf_write {m : Memory} (h : m.wf = true) {a : Nat} (ha : a < 65536) (b : Byte) : (m.write a b).wf = true := by
  have hf := wf_filter h fun c => c.1 != a
  by_cases hb : b = 0#8
  · simpa [Memory.write, hb] using hf
  · simp only [Memory.write, hb, if_false]
    exact wf_insert hf ha hb (by simp)

/-- Replacing a cell keeps the canonical form. -/
theorem wf_setCell {m : Memory} (h : m.wf = true) (s : Fin 32) (f : Fin 8) (c : Cell) : (m.setCell s f c).wf = true := by
  have hbound : storeAddr s f 0#8 + 256 ≤ 65536 := by
    have := s.isLt; have := f.isLt; simp only [storeAddr, BitVec.toNat_ofNat]; omega
  rw [wf_iff] at h ⊢
  simp only [Memory.setCell]
  constructor
  · intro e he
    simp only [List.mem_append, List.mem_filter] at he
    rcases he with (he | he) | he
    · exact h.1 e he.1
    · obtain ⟨r, hr, h0, rfl⟩ := mem_cellEntries.mp he
      exact ⟨by simp only; omega, h0⟩
    · exact h.1 e he.1
  · rw [List.pairwise_append, List.pairwise_append]
    refine ⟨⟨h.2.filter _, ?_, ?_⟩, h.2.filter _, ?_⟩
    · refine List.Pairwise.filterMap _ ?_ (List.pairwise_lt_range (n := 256))
      intro i j hij e he e' he'
      by_cases hi : c (BitVec.ofNat 8 i) = 0#8
      · simp [hi] at he
      by_cases hj : c (BitVec.ofNat 8 j) = 0#8
      · simp [hj] at he'
      simp only [hi, hj, if_false, Option.some.injEq] at he he'
      subst he; subst he'; simp only; omega
    · intro e he e' he'
      have := cellEntries_range he'
      simp at he; omega
    · intro e he e' he'
      simp only [List.mem_append, List.mem_filter, decide_eq_true_eq] at he he'
      rcases he with he | he
      · omega
      · have := cellEntries_range he; omega

theorem wf_zero : Memory.wf Memory.zero = true := rfl

/-- Canonical stores that read alike are equal. -/
theorem eq_of_read_eq {m m' : Memory} (h : m.wf = true) (h' : m'.wf = true)
    (hr : ∀ a, m.read a = m'.read a) : m = m' := by
  rw [wf_iff] at h h'
  obtain ⟨h, hp⟩ := h
  obtain ⟨h', hp'⟩ := h'
  induction m generalizing m' with
  | nil =>
    cases m' with
    | nil => rfl
    | cons c m' =>
      have := hr c.1
      simp [read_cons] at this
      exact absurd this.symm (h' c (by simp)).2
  | cons c m ih =>
    cases m' with
    | nil =>
      have := hr c.1
      simp [read_cons] at this
      exact absurd this (h c (by simp)).2
    | cons e m' =>
      rw [List.pairwise_cons] at hp hp'
      have hge : ∀ x ∈ m, x.1 ≠ c.1 := fun x hx => (hp.1 x hx).ne'
      have hge' : ∀ x ∈ m', x.1 ≠ e.1 := fun x hx => (hp'.1 x hx).ne'
      have hkey : c.1 = e.1 := by
        rcases lt_trichotomy c.1 e.1 with hlt | heq | hlt
        · have := hr c.1
          rw [read_cons, if_pos rfl, read_cons, if_neg hlt.ne',
            read_of_unlisted fun x hx => (hlt.trans (hp'.1 x hx)).ne'] at this
          exact absurd this (h c (by simp)).2
        · exact heq
        · have := hr e.1
          rw [read_cons, if_neg hlt.ne', read_of_unlisted fun x hx => (hlt.trans (hp.1 x hx)).ne', read_cons,
            if_pos rfl] at this
          exact absurd this.symm (h' e (by simp)).2
      have hval : c.2 = e.2 := by
        have := hr c.1
        rwa [read_cons, if_pos rfl, read_cons, if_pos hkey.symm] at this
      have hce : c = e := Prod.ext hkey hval
      subst hce
      congr 1
      refine ih ?_ (fun x hx => h x (by simp [hx])) hp.2 (fun x hx => h' x (by simp [hx])) hp'.2
      intro a
      by_cases ha : c.1 = a
      · subst ha; rw [read_of_unlisted hge, read_of_unlisted hge']
      · have := hr a
        rwa [read_cons, if_neg ha, read_cons, if_neg ha] at this

/-- Putting a cell back as it is leaves a canonical store equal. -/
theorem setCell_self {m : Memory} (h : m.wf = true) (s : Fin 32) (f : Fin 8) : m.setCell s f (m.cell s f) = m := by
  apply eq_of_read_eq (wf_setCell h s f _) h
  intro a
  by_cases ha : a < storeAddr s f 0#8 ∨ storeAddr s f 0#8 + 256 ≤ a
  · exact read_setCell_outside m s f _ a ha
  · have hr : a = storeAddr s f (BitVec.ofNat 8 (a - storeAddr s f 0#8)) := by
      rw [storeAddr_eq_base_add, BitVec.toNat_ofNat]; omega
    rw [hr, read_setCell_inside]; rfl

end Sys2Proof.Machine
end

