-- ==== Sys2Proof/Laws/State.lean ====
section
/-!
SUPPORT. The small lemmas of the state's updates: what each leaves of the controller state, and of the model's own fields.
With them no proof unfolds a record update.
-/

namespace Sys2Proof.Machine

variable (σ : State)

/-! ## `start`, `answer`, `note`, `draw`, `present`: the controller state is untouched -/

@[simp] theorem start_toController : σ.start.toController = σ.toController := rfl
@[simp] theorem start_input : σ.start.input = σ.input := rfl
@[simp] theorem start_draws : σ.start.draws = σ.draws := rfl
@[simp] theorem start_result : σ.start.result = .nothing := rfl
@[simp] theorem start_trace : σ.start.trace = [] := rfl

@[simp] theorem answer_toController (r : Result) : (σ.answer r).toController = σ.toController := rfl
@[simp] theorem answer_input (r : Result) : (σ.answer r).input = σ.input := rfl
@[simp] theorem answer_draws (r : Result) : (σ.answer r).draws = σ.draws := rfl
@[simp] theorem answer_result (r : Result) : (σ.answer r).result = r := rfl
@[simp] theorem answer_trace (r : Result) : (σ.answer r).trace = σ.trace := rfl

@[simp] theorem note_toController (c : Cause) : (σ.note c).toController = σ.toController := rfl
@[simp] theorem note_input (c : Cause) : (σ.note c).input = σ.input := rfl
@[simp] theorem note_draws (c : Cause) : (σ.note c).draws = σ.draws := rfl
@[simp] theorem note_result (c : Cause) : (σ.note c).result = σ.result := rfl
@[simp] theorem note_trace (c : Cause) : (σ.note c).trace = σ.trace ++ [c] := rfl

@[simp] theorem draw_toController : σ.draw.toController = σ.toController := rfl
@[simp] theorem draw_input : σ.draw.input = σ.input := rfl
@[simp] theorem draw_draws : σ.draw.draws = σ.draws + 1 := rfl
@[simp] theorem draw_result : σ.draw.result = σ.result := rfl
@[simp] theorem draw_trace : σ.draw.trace = σ.trace := rfl

@[simp] theorem present_toController (t : Transaction) : (σ.present t).toController = σ.toController := rfl
@[simp] theorem present_input (t : Transaction) : (σ.present t).input = t :: σ.input := rfl

/-! ## `setLatch`, `raiseFatal`: one register -/

@[simp] theorem setLatch_toController (v : Word) :
    (σ.setLatch v).toController = { σ.toController with latch := v } := rfl
@[simp] theorem setLatch_input (v : Word) : (σ.setLatch v).input = σ.input := rfl
@[simp] theorem setLatch_draws (v : Word) : (σ.setLatch v).draws = σ.draws := rfl
@[simp] theorem setLatch_result (v : Word) : (σ.setLatch v).result = σ.result := rfl
@[simp] theorem setLatch_trace (v : Word) : (σ.setLatch v).trace = σ.trace := rfl

@[simp] theorem raiseFatal_toController : σ.raiseFatal.toController = { σ.toController with fault := true } := rfl
@[simp] theorem raiseFatal_input : σ.raiseFatal.input = σ.input := rfl
@[simp] theorem raiseFatal_draws : σ.raiseFatal.draws = σ.draws := rfl
@[simp] theorem raiseFatal_result : σ.raiseFatal.result = σ.result := rfl
@[simp] theorem raiseFatal_trace : σ.raiseFatal.trace = σ.trace := rfl

/-! ## `setCell`, `writeByte`: the store -/

@[simp] theorem setCell_toController (s : Fin 32) (f : Fin 8) (c : Cell) :
    (σ.setCell s f c).toController = { σ.toController with store := σ.store.setCell s f c } := rfl
@[simp] theorem setCell_input (s : Fin 32) (f : Fin 8) (c : Cell) : (σ.setCell s f c).input = σ.input := rfl
@[simp] theorem setCell_draws (s : Fin 32) (f : Fin 8) (c : Cell) : (σ.setCell s f c).draws = σ.draws := rfl
@[simp] theorem setCell_result (s : Fin 32) (f : Fin 8) (c : Cell) : (σ.setCell s f c).result = σ.result := rfl
@[simp] theorem setCell_trace (s : Fin 32) (f : Fin 8) (c : Cell) : (σ.setCell s f c).trace = σ.trace := rfl

@[simp] theorem writeByte_toController (s : Fin 32) (f : Fin 8) (r b : Byte) :
    (σ.writeByte s f r b).toController
      = { σ.toController with store := σ.store.write (storeAddr s f r) b } := rfl
@[simp] theorem writeByte_input (s : Fin 32) (f : Fin 8) (r b : Byte) : (σ.writeByte s f r b).input = σ.input := rfl
@[simp] theorem writeByte_draws (s : Fin 32) (f : Fin 8) (r b : Byte) : (σ.writeByte s f r b).draws = σ.draws := rfl
@[simp] theorem writeByte_result (s : Fin 32) (f : Fin 8) (r b : Byte) :
    (σ.writeByte s f r b).result = σ.result := rfl
@[simp] theorem writeByte_trace (s : Fin 32) (f : Fin 8) (r b : Byte) : (σ.writeByte s f r b).trace = σ.trace := rfl

/-! ## `setIdent`, `addPrimary`, `addSecondary`: the commit of a registration -/

@[simp] theorem setIdent_toController (d : Device) (s : Fin 32) (f : Fin 8) :
    (σ.setIdent d s f).toController = { σ.toController with idents := σ.idents ++ [(d.ref, ⟨s, f⟩)] } := rfl
@[simp] theorem setIdent_input (d : Device) (s : Fin 32) (f : Fin 8) : (σ.setIdent d s f).input = σ.input := rfl
@[simp] theorem setIdent_draws (d : Device) (s : Fin 32) (f : Fin 8) : (σ.setIdent d s f).draws = σ.draws := rfl
@[simp] theorem setIdent_trace (d : Device) (s : Fin 32) (f : Fin 8) : (σ.setIdent d s f).trace = σ.trace := rfl

@[simp] theorem addPrimary_toController (d : Device) (s : Fin 32) :
    (σ.addPrimary d s).toController
      = { σ.toController with slot := σ.slot.set s (some d), installed := σ.installed + 1 } := rfl
@[simp] theorem addPrimary_input (d : Device) (s : Fin 32) : (σ.addPrimary d s).input = σ.input := rfl
@[simp] theorem addPrimary_draws (d : Device) (s : Fin 32) : (σ.addPrimary d s).draws = σ.draws := rfl
@[simp] theorem addPrimary_trace (d : Device) (s : Fin 32) : (σ.addPrimary d s).trace = σ.trace := rfl

@[simp] theorem addSecondary_toController (d : Device) (s : Fin 32) (i : Fin 7) :
    (σ.addSecondary d s i).toController
      = { σ.toController with
          sub := σ.sub.set s (σ.sub[s].set i (some d)), nsub := σ.nsub.set s i.succ } := rfl
@[simp] theorem addSecondary_input (d : Device) (s : Fin 32) (i : Fin 7) :
    (σ.addSecondary d s i).input = σ.input := rfl
@[simp] theorem addSecondary_draws (d : Device) (s : Fin 32) (i : Fin 7) :
    (σ.addSecondary d s i).draws = σ.draws := rfl
@[simp] theorem addSecondary_trace (d : Device) (s : Fin 32) (i : Fin 7) :
    (σ.addSecondary d s i).trace = σ.trace := rfl

/-! ## The slot table's entries after an update -/

@[simp] theorem slotAt_set (c : Controller) (n s : Fin 32) (x : Option Device) (k : Nat) :
    ({ c with slot := c.slot.set n x, installed := k } : Controller).slotAt s = if s = n then x else c.slotAt s := by
  simp only [Controller.slotAt, Fin.getElem_fin, Vector.getElem_set, Fin.ext_iff, eq_comm]

@[simp] theorem subAt_set (c : Controller) (n s : Fin 32) (i j : Fin 7) (x : Option Device) (ns : Vector (Fin 8) 32) :
    ({ c with sub := c.sub.set n (c.sub[n].set i x), nsub := ns } : Controller).subAt s j
      = if s = n ∧ j = i then x else c.subAt s j := by
  simp only [Controller.subAt, Fin.getElem_fin, Vector.getElem_set, Fin.ext_iff]
  by_cases h : n.val = s.val
  · simp only [h, if_true, Vector.getElem_set, eq_comm, true_and]
  · simp [h, Ne.symm h]

@[simp] theorem subCount_set (c : Controller) (n s : Fin 32) (f : Fin 8) (subs : Vector (Vector (Option Device) 7) 32) :
    ({ c with sub := subs, nsub := c.nsub.set n f } : Controller).subCount s = if s = n then f else c.subCount s := by
  simp only [Controller.subCount, Fin.getElem_fin, Vector.getElem_set, Fin.ext_iff, eq_comm]

/-- Routing looks at the slot table only. -/
theorem devAt_congr {c c' : Controller} (h : c'.slot = c.slot) (h' : c'.sub = c.sub) (h'' : c'.nsub = c.nsub)
    (s : Fin 32) (f : Fin 8) : c'.devAt s f = c.devAt s f := by
  cases c; cases c'
  cases h; cases h'; cases h''; rfl

end Sys2Proof.Machine
end

