-- ==== Sys2Proof/Laws/DataPort.lean ====
section
/-!
SUPPORT. What the hook calls, the lane operations and the lane engine can do: everything but the target's own cell, the draw
count and the trace is left as it was; and what each is for a generic device.
-/

namespace Sys2Proof.Machine

/-! ## The frame of a lane -/

/-- `τ` is `σ` but for the bytes of the cell `(s, f)`, the draw count and the trace; a canonical store stays canonical. -/
structure OnlyCell (s : Fin 32) (f : Fin 8) (σ τ : State) : Prop where
  controller : τ.toController = { σ.toController with store := τ.store }
  input : τ.input = σ.input
  result : τ.result = σ.result
  outside : ∀ a, (a < storeAddr s f 0#8 ∨ storeAddr s f 0#8 + 256 ≤ a) → τ.store.read a = σ.store.read a
  wf : σ.store.wf = true → τ.store.wf = true

namespace OnlyCell

variable {s : Fin 32} {f : Fin 8} {σ τ υ : State}

theorem refl (σ : State) : OnlyCell s f σ σ := ⟨rfl, rfl, rfl, fun _ _ => rfl, id⟩

theorem trans (h : OnlyCell s f σ τ) (h' : OnlyCell s f τ υ) : OnlyCell s f σ υ where
  controller := by rw [h'.controller, h.controller]
  input := h'.input.trans h.input
  result := h'.result.trans h.result
  outside a ha := (h'.outside a ha).trans (h.outside a ha)
  wf hw := h'.wf (h.wf hw)

theorem note (h : OnlyCell s f σ τ) (c : Cause) : OnlyCell s f σ (τ.note c) :=
  ⟨h.controller, h.input, h.result, h.outside, h.wf⟩

theorem latch (h : OnlyCell s f σ τ) : τ.latch = σ.latch := by rw [h.controller]
theorem phase (h : OnlyCell s f σ τ) : τ.phase = σ.phase := by rw [h.controller]
theorem fault (h : OnlyCell s f σ τ) : τ.fault = σ.fault := by rw [h.controller]
theorem slot (h : OnlyCell s f σ τ) : τ.slot = σ.slot := by rw [h.controller]
theorem sub (h : OnlyCell s f σ τ) : τ.sub = σ.sub := by rw [h.controller]
theorem nsub (h : OnlyCell s f σ τ) : τ.nsub = σ.nsub := by rw [h.controller]
theorem installed (h : OnlyCell s f σ τ) : τ.installed = σ.installed := by rw [h.controller]
theorem queue (h : OnlyCell s f σ τ) : τ.queue = σ.queue := by rw [h.controller]
theorem idents (h : OnlyCell s f σ τ) : τ.idents = σ.idents := by rw [h.controller]

end OnlyCell

/-- A hook's returned cell, installed with its draw taken (R149(b)). -/
theorem onlyCell_draw_setCell (σ : State) (s : Fin 32) (f : Fin 8) (c : Cell) :
    OnlyCell s f σ (σ.draw.setCell s f c) :=
  ⟨rfl, rfl, rfl, fun a ha => read_setCell_outside _ s f c a ha, fun h => wf_setCell h s f c⟩

theorem onlyCell_writeByte (σ : State) (s : Fin 32) (f : Fin 8) (r b : Byte) :
    OnlyCell s f σ (σ.writeByte s f r b) where
  controller := rfl
  input := rfl
  result := rfl
  outside a ha := by
    have h : storeAddr s f r ≠ a := by have := r.isLt; rw [storeAddr_eq_base_add]; omega
    simp [read_write, h]
  wf h := wf_write h (storeAddr_lt s f r) b

/-! ## The hook calls -/

theorem callPw_onlyCell {σ τ : State} {t : Target} {r b : Byte} {res : Option Byte}
    (h : callPw σ t r b = .ok (τ, res)) : OnlyCell t.slot t.fn σ τ := by
  unfold callPw at h
  split at h
  · cases h
  · cases h; exact onlyCell_draw_setCell σ _ _ _

theorem callPr_onlyCell {σ τ : State} {t : Target} {r : Byte} {m : Option Byte}
    (h : callPr σ t r = .ok (τ, m)) : OnlyCell t.slot t.fn σ τ := by
  unfold callPr at h
  split at h
  · cases h
  · cases h; exact onlyCell_draw_setCell σ _ _ _

theorem callOvr_onlyCell {σ τ : State} {t : Target} {r : Byte} {o : Option (Byte × Byte)}
    (h : callOvr σ t r = .ok (τ, o)) : OnlyCell t.slot t.fn σ τ := by
  unfold callOvr at h
  split at h
  · cases h
  · cases h; exact onlyCell_draw_setCell σ _ _ _

/-- A confined write hook has a result (R32). -/
theorem runPw_isSome {h : Hook (Option HookExpr)} (hc : h ≠ .unconfined) (E : Env) (c : Cell) (r v : Byte) :
    ∃ x, runPw h E c r v = some x := by
  cases h with
  | default => exact ⟨_, rfl⟩
  | prog cs => simp only [runPw]; split <;> exact ⟨_, rfl⟩
  | device n => exact ⟨_, rfl⟩
  | unconfined => exact absurd rfl hc

theorem runPr_isSome {h : Hook (Option HookExpr)} (hc : h ≠ .unconfined) (E : Env) (c : Cell) (r : Byte) :
    ∃ x, runPr h E c r = some x := by
  cases h with
  | default => exact ⟨_, rfl⟩
  | prog cs => simp only [runPr]; split <;> exact ⟨_, rfl⟩
  | device n => exact ⟨_, rfl⟩
  | unconfined => exact absurd rfl hc

theorem runOvr_isSome {h : Hook (Option (HookExpr × HookExpr))} (hc : h ≠ .unconfined) (E : Env) (c : Cell)
    (r : Byte) : ∃ x, runOvr h E c r = some x := by
  cases h with
  | default => exact ⟨_, rfl⟩
  | prog cs => simp only [runOvr]; split <;> exact ⟨_, rfl⟩
  | device n => exact ⟨_, rfl⟩
  | unconfined => exact absurd rfl hc

theorem runInit_isSome {h : InitHook} (hc : h ≠ .unconfined) (E : Env) (c : Cell) : ∃ x, runInit h E c = some x := by
  cases h with
  | prog sets => exact ⟨_, rfl⟩
  | fail => exact ⟨_, rfl⟩
  | device n => exact ⟨_, rfl⟩
  | unconfined => exact absurd rfl hc

theorem confined_iff (d : Device) :
    confined d = true ↔ d.init ≠ .unconfined ∧ d.pw ≠ .unconfined ∧ d.pr ≠ .unconfined ∧ d.ovr ≠ .unconfined := by
  simp [confined, and_assoc]

/-! ## The lane operations -/

theorem regWrByte_onlyCell {σ τ : State} {t : Target} {r b : Byte} (h : regWrByte σ t r b = .ok τ) :
    OnlyCell t.slot t.fn σ τ := by
  unfold regWrByte at h
  split at h
  · cases h; exact (OnlyCell.refl σ).note _
  split at h
  · cases h; exact (OnlyCell.refl σ).note _
  split at h
  · cases h
  · next hc => cases h; exact (callPw_onlyCell hc).note _
  · next hc => cases h; exact (callPw_onlyCell hc).trans (onlyCell_writeByte _ _ _ _ _)

theorem regRdByte_onlyCell {σ τ : State} {t : Target} {r b : Byte} (h : regRdByte σ t r = .ok (τ, b)) :
    OnlyCell t.slot t.fn σ τ := by
  unfold regRdByte at h
  split at h
  · cases h; exact OnlyCell.refl σ
  split at h
  · cases h; exact OnlyCell.refl σ
  split at h
  · cases h
  · next hc => cases h; exact callPr_onlyCell hc
  · next hc =>
    split at h
    · cases h
    · next ho => cases h; exact (callPr_onlyCell hc).trans (callOvr_onlyCell ho)
    · next ho => cases h; exact ((callPr_onlyCell hc).trans (callOvr_onlyCell ho)).note _

/-- A write lane of a device whose write hook is confined has a next state. -/
theorem regWrByte_isOk {t : Target} (hc : t.dev.pw ≠ .unconfined) (σ : State) (r b : Byte) :
    ∃ τ, regWrByte σ t r b = .ok τ := by
  obtain ⟨⟨c, res⟩, hx⟩ := runPw_isSome hc (Config.envDraw σ.draws) (σ.cell t.slot t.fn) r b
  unfold regWrByte
  split
  · exact ⟨_, rfl⟩
  split
  · exact ⟨_, rfl⟩
  · cases res <;> simp [callPw, hx]

/-- A read lane of a device whose read hooks are confined has a next state. -/
theorem regRdByte_isOk {t : Target} (hr : t.dev.pr ≠ .unconfined) (ho : t.dev.ovr ≠ .unconfined) (σ : State)
    (r : Byte) : ∃ τ b, regRdByte σ t r = .ok (τ, b) := by
  obtain ⟨⟨c, m⟩, hx⟩ := runPr_isSome hr (Config.envDraw σ.draws) (σ.cell t.slot t.fn) r
  unfold regRdByte
  split
  · exact ⟨_, _, rfl⟩
  split
  · exact ⟨_, _, rfl⟩
  cases m with
  | some r' => simp [callPr, hx]
  | none =>
    obtain ⟨⟨c', o⟩, hy⟩ := runOvr_isSome ho (Config.envDraw (σ.draws + 1))
      ((σ.draw.setCell t.slot t.fn c).cell t.slot t.fn) r
    cases o <;> simp [callPr, hx, callOvr, hy]

/-! ## The lane engine -/

theorem writeLanes_onlyCell {t : Target} {base : Byte} {v : Word} {is : List Nat} {σ τ : State}
    (h : writeLanes t base v is σ = .ok τ) : OnlyCell t.slot t.fn σ τ := by
  induction is generalizing σ with
  | nil => cases h; exact OnlyCell.refl _
  | cons i is ih =>
    simp only [writeLanes] at h
    split at h
    · cases h
    · next hl => exact (regWrByte_onlyCell hl).trans (ih h)

theorem readLanes_onlyCell {t : Target} {base : Byte} {is : List Nat} {σ τ : State} {bs : List Byte}
    (h : readLanes t base is σ = .ok (τ, bs)) : OnlyCell t.slot t.fn σ τ := by
  induction is generalizing σ bs with
  | nil => cases h; exact OnlyCell.refl _
  | cons i is ih =>
    simp only [readLanes] at h
    split at h
    · cases h
    · next hl =>
      split at h
      · cases h
      · next hr => cases h; exact (regRdByte_onlyCell hl).trans (ih hr)

theorem writeLanes_isOk {t : Target} (hc : t.dev.pw ≠ .unconfined) (base : Byte) (v : Word) (is : List Nat)
    (σ : State) : ∃ τ, writeLanes t base v is σ = .ok τ := by
  induction is generalizing σ with
  | nil => exact ⟨σ, rfl⟩
  | cons i is ih =>
    obtain ⟨τ, hτ⟩ := regWrByte_isOk hc σ (laneReg base i) (laneByte v i)
    simp only [writeLanes, hτ]
    exact ih τ

theorem readLanes_isOk {t : Target} (hr : t.dev.pr ≠ .unconfined) (ho : t.dev.ovr ≠ .unconfined) (base : Byte)
    (is : List Nat) (σ : State) : ∃ τ bs, readLanes t base is σ = .ok (τ, bs) := by
  induction is generalizing σ with
  | nil => exact ⟨σ, [], rfl⟩
  | cons i is ih =>
    obtain ⟨τ, b, hτ⟩ := regRdByte_isOk hr ho σ (laneReg base i)
    obtain ⟨υ, bs, hυ⟩ := ih τ
    exact ⟨υ, b :: bs, by simp [readLanes, hτ, hυ]⟩

/-! ## Resolution -/

/-- R110: what a resolved target satisfies. -/
theorem resolve_ok {c : Controller} {t : Target} (h : c.resolve = .ok t) :
    latchEnabled c.latch = true ∧ t.slot = latchDev c.latch ∧ t.fn = latchFn c.latch ∧
      t.slot.val < c.installed ∧ c.slotAt t.slot ≠ none ∧ t.fn ≤ c.subCount t.slot ∧ c.devAt t.slot t.fn = some t.dev := by
  unfold Controller.resolve at h
  simp only at h
  split at h
  · cases h
  next h1 =>
  split at h
  · cases h
  next h2 =>
  split at h
  · cases h
  next h3 =>
  split at h
  · cases h
  next h4 =>
  split at h
  · cases h
  next d hd =>
  cases h
  exact ⟨by simpa using h1, rfl, rfl, by simpa using h2, h3, by simpa using h4, hd⟩

/-- Resolution looks at the latch, the slot table and INSTALLED only. -/
theorem resolve_congr {c c' : Controller} (h : c' = { c with store := c'.store }) : c'.resolve = c.resolve := by
  rw [h]; rfl

/-- What a data-port write can do: drop without a target, or change only the target's cell. -/
theorem dataWrite_cases {w : Width} {k : BitVec 2} {v : Word} {σ τ : State} (h : dataWrite w k v σ = .ok τ) :
    (∃ c, σ.resolve = .error c ∧ τ = σ.note c) ∨
      ∃ t, σ.resolve = .ok t ∧ writeLanes t (laneBase σ.latch k) v (List.range w.bytes) σ = .ok τ ∧
        OnlyCell t.slot t.fn σ τ := by
  unfold dataWrite at h
  split at h
  · next c hc => cases h; exact .inl ⟨c, hc, rfl⟩
  · next t ht => exact .inr ⟨t, ht, h, writeLanes_onlyCell h⟩

/-- What a data-port read can do: all-ones without a target, or change only the target's cell. -/
theorem dataRead_cases {w : Width} {k : BitVec 2} {v : Word} {σ τ : State} (h : dataRead w k σ = .ok (τ, v)) :
    (∃ c, σ.resolve = .error c ∧ τ = σ.note c ∧ v = allOnes) ∨
      ∃ t bs, σ.resolve = .ok t ∧ readLanes t (laneBase σ.latch k) (List.range w.bytes) σ = .ok (τ, bs) ∧
        v = assemble bs ∧ OnlyCell t.slot t.fn σ τ := by
  unfold dataRead at h
  split at h
  · next c hc => cases h; exact .inl ⟨c, hc, rfl, rfl⟩
  · next t ht =>
    split at h
    · cases h
    · next bs hr => cases h; exact .inr ⟨t, bs, ht, hr, rfl, readLanes_onlyCell hr⟩

/-! ## Generic devices (R31) -/

/-- A read lane of a generic device returns the identity, header or stored byte (R144 to R146), and changes no byte. -/
theorem regRdByte_generic {t : Target} (hg : t.dev.pr = .default) (σ : State) (r : Byte) :
    ∃ τ, regRdByte σ t r = .ok (τ, if r ≤ 0x03#8 then identityByte t.dev r
        else if r = 0x0E#8 then headerByte σ t else σ.readByte t.slot t.fn r) ∧
      OnlyCell t.slot t.fn σ τ ∧ (∀ a, τ.store.read a = σ.store.read a) ∧ τ.trace = σ.trace := by
  unfold regRdByte
  by_cases h1 : r ≤ 0x03#8
  · exact ⟨σ, by simp [h1], OnlyCell.refl σ, fun _ => rfl, rfl⟩
  by_cases h2 : r = 0x0E#8
  · exact ⟨σ, by simp [h2], OnlyCell.refl σ, fun _ => rfl, rfl⟩
  refine ⟨σ.draw.setCell t.slot t.fn (σ.cell t.slot t.fn), ?_, onlyCell_draw_setCell σ _ _ _, ?_, rfl⟩
  · simp only [h1, h2, if_false, callPr, hg, runPr]
    simp only [State.readByte, setCell_toController, read_setCell_inside]
    rfl
  · intro a
    by_cases ha : a < storeAddr t.slot t.fn 0#8 ∨ storeAddr t.slot t.fn 0#8 + 256 ≤ a
    · exact read_setCell_outside _ _ _ _ a ha
    · have hr : a = storeAddr t.slot t.fn (BitVec.ofNat 8 (a - storeAddr t.slot t.fn 0#8)) := by
        rw [storeAddr_eq_base_add, BitVec.toNat_ofNat]; omega
      rw [hr]; exact read_setCell_inside _ _ _ _ _

/-- A write lane of a device with the default write hook commits the byte, unless the policy drops the write. -/
theorem regWrByte_generic {t : Target} (hg : t.dev.pw = .default) (σ : State) (r b : Byte) :
    ∃ τ, regWrByte σ t r b = .ok τ ∧ OnlyCell t.slot t.fn σ τ ∧
      ∀ x, τ.readByte t.slot t.fn x
        = if writeDropped (σ.cell t.slot t.fn) r = false ∧ x = r then b else σ.readByte t.slot t.fn x := by
  unfold regWrByte writeDropped
  by_cases h1 : readOnlyReg r = true
  · exact ⟨σ.note .dropReadOnly, by simp [h1], (OnlyCell.refl σ).note _, by intro x; simp [h1]; rfl⟩
  by_cases h2 : (standardHeader (σ.cell t.slot t.fn) && subsystemReg r) = true
  · exact ⟨σ.note .dropSubsystem, by simp [h1, h2], (OnlyCell.refl σ).note _, by intro x; simp [h2]; rfl⟩
  refine ⟨(σ.draw.setCell t.slot t.fn (σ.cell t.slot t.fn)).writeByte t.slot t.fn r b, ?_,
    (onlyCell_draw_setCell σ _ _ _).trans (onlyCell_writeByte _ _ _ _ _), ?_⟩
  · simp [h1, h2, callPw, hg, runPw]
  · intro x
    simp only [State.readByte, writeByte_toController, setCell_toController, read_write, read_setCell_inside,
      storeAddr_inj, true_and]
    simp only [Bool.not_eq_true] at h1 h2
    simp only [h1, h2, Bool.or_self, true_and]
    by_cases hx : x = r
    · simp [hx]
    · simp [hx, Ne.symm hx]; rfl

end Sys2Proof.Machine
end

