-- ==== Sys2Proof/Laws/Guards.lean ====
section
/-!
SUPPORT. The guards of the transactions (60_exceptions.md R214, R217; 20_memory.md R62): what each answers in each of its
cases, and what a next state of a guarded transaction came from.
-/

namespace Sys2Proof.Machine

/-! ## The three cases of a guard -/

theorem ioRead_bound {w : Width} {body : State → Except Refusal (State × Word)} {σ : State} (hf : σ.fault = false)
    (hp : σ.phase = .init) : ioRead w body σ =
      match body σ.start with
      | .ok (τ, v) => .next (τ.answer (Result.ofWord w v))
      | .error e => .refused e := by
  cases h : body σ.start <;> simp [ioRead, hf, hp, h]

theorem ioRead_unbound {w : Width} {body : State → Except Refusal (State × Word)} {σ : State} (hf : σ.fault = false)
    (hp : σ.phase ≠ .init) :
    ioRead w body σ = .next (σ.start.draw.answer (Result.ofWord w (Config.unclaimedRead σ.draws))) := by
  unfold ioRead; rw [if_neg (by simp [hf]), if_neg hp]

theorem ioWrite_bound {body : State → Except Refusal State} {σ : State} (hf : σ.fault = false) (hp : σ.phase = .init) :
    ioWrite body σ =
      match body σ.start with
      | .ok τ => .next τ
      | .error e => .refused e := by
  cases h : body σ.start <;> simp [ioWrite, hf, hp, h]

theorem ioWrite_unbound {body : State → Except Refusal State} {σ : State} (hf : σ.fault = false)
    (hp : σ.phase ≠ .init) : ioWrite body σ = .next σ.start := by
  unfold ioWrite; rw [if_neg (by simp [hf]), if_neg hp]

theorem hostCommand_free {body : State → Except Refusal (State × HostOutcome)} {σ : State} (hf : σ.fault = false) :
    hostCommand body σ =
      match body σ.start with
      | .ok (τ, o) => .next (τ.answer (.outcome o))
      | .error e => .refused e := by
  cases h : body σ.start <;> simp [hostCommand, hf, h]

theorem ioRead_fault {w : Width} {body : State → Except Refusal (State × Word)} {σ : State} (hf : σ.fault = true) :
    ioRead w body σ = .refused .faultSet := by unfold ioRead; rw [if_pos hf]

theorem ioWrite_fault {body : State → Except Refusal State} {σ : State} (hf : σ.fault = true) :
    ioWrite body σ = .refused .faultSet := by unfold ioWrite; rw [if_pos hf]

theorem hostCommand_fault {body : State → Except Refusal (State × HostOutcome)} {σ : State} (hf : σ.fault = true) :
    hostCommand body σ = .refused .faultSet := by unfold hostCommand; rw [if_pos hf]

/-! ## Where a next state came from -/

theorem ioRead_next {w : Width} {body : State → Except Refusal (State × Word)} {σ τ : State}
    (h : ioRead w body σ = .next τ) :
    σ.fault = false ∧ ((σ.phase = .init ∧ ∃ υ v, body σ.start = .ok (υ, v) ∧ τ = υ.answer (Result.ofWord w v)) ∨
      (σ.phase ≠ .init ∧ τ = σ.start.draw.answer (Result.ofWord w (Config.unclaimedRead σ.draws)))) := by
  unfold ioRead at h
  split at h
  · cases h
  next hf =>
  refine ⟨by simpa using hf, ?_⟩
  split at h
  next hp =>
    split at h
    · next υ v hb => cases h; exact .inl ⟨hp, υ, v, hb, rfl⟩
    · cases h
  next hp => cases h; exact .inr ⟨hp, rfl⟩

theorem ioWrite_next {body : State → Except Refusal State} {σ τ : State} (h : ioWrite body σ = .next τ) :
    σ.fault = false ∧ ((σ.phase = .init ∧ body σ.start = .ok τ) ∨ (σ.phase ≠ .init ∧ τ = σ.start)) := by
  unfold ioWrite at h
  split at h
  · cases h
  next hf =>
  refine ⟨by simpa using hf, ?_⟩
  split at h
  next hp =>
    split at h
    · next υ hb => cases h; exact .inl ⟨hp, hb⟩
    · cases h
  next hp => cases h; exact .inr ⟨hp, rfl⟩

theorem hostCommand_next {body : State → Except Refusal (State × HostOutcome)} {σ τ : State}
    (h : hostCommand body σ = .next τ) :
    σ.fault = false ∧ ∃ υ o, body σ.start = .ok (υ, o) ∧ τ = υ.answer (.outcome o) := by
  unfold hostCommand at h
  split at h
  · cases h
  next hf =>
  refine ⟨by simpa using hf, ?_⟩
  split at h
  · next υ o hb => cases h; exact ⟨υ, o, hb, rfl⟩
  · cases h

/-! ## The arms of the dispatch -/

theorem exec_addrRd (s : State) : exec .addrRd s = ioRead .w4 (fun τ => .ok (τ, τ.latch)) s := rfl
theorem exec_addrWr (v : Word) (s : State) : exec (.addrWr v) s = ioWrite (fun τ => .ok (τ.setLatch v)) s := rfl
theorem exec_dataRd8 (k : BitVec 2) (s : State) : exec (.dataRd8 k) s = ioRead .w1 (dataRead .w1 k) s := rfl
theorem exec_dataRd16 (k : BitVec 2) (s : State) : exec (.dataRd16 k) s = ioRead .w2 (dataRead .w2 k) s := rfl
theorem exec_dataRd32 (k : BitVec 2) (s : State) : exec (.dataRd32 k) s = ioRead .w4 (dataRead .w4 k) s := rfl
theorem exec_dataWr8 (k : BitVec 2) (v : Word) (s : State) :
    exec (.dataWr8 k v) s = ioWrite (dataWrite .w1 k v) s := rfl
theorem exec_dataWr16 (k : BitVec 2) (v : Word) (s : State) :
    exec (.dataWr16 k v) s = ioWrite (dataWrite .w2 k v) s := rfl
theorem exec_dataWr32 (k : BitVec 2) (v : Word) (s : State) :
    exec (.dataWr32 k v) s = ioWrite (dataWrite .w4 k v) s := rfl
theorem exec_construct (s : State) : exec .construct s = hostCommand constructBody s := rfl
theorem exec_register (d : Device) (req : Option Byte) (s : State) :
    exec (.register d req) s = hostCommand (registerBody d req) s := rfl
theorem exec_shutdown (s : State) : exec .shutdown s = hostCommand shutdownBody s := rfl
theorem exec_destroy (s : State) : exec .destroy s = hostCommand destroyBody s := rfl
theorem exec_legacyCb (s : State) : exec .legacyCb s = hostCommand legacyCbBody s := rfl

end Sys2Proof.Machine
end

