-- ==== Sys2Proof/Laws/Lifecycle.lean ====
section
/-!
SUPPORT. What registration and the lifecycle commands can do: one inversion lemma per shared operation.
-/

namespace Sys2Proof.Machine

/-! ## Slots and placement -/

theorem pickSlot_explicit (σ : State) (n : Byte) (s : Fin 32) : pickSlot σ (some n) = .ok s ↔ s.val = n.toNat := by
  unfold pickSlot
  by_cases h : n.toNat < 32
  · simp [h, Fin.ext_iff, eq_comm]
  · have := s.isLt
    simp only [h, dif_neg, not_false_eq_true, reduceCtorEq, false_iff]
    omega

theorem pickSlot_auto (σ : State) (s : Fin 32) : pickSlot σ none = .ok s ↔ s.val = σ.installed := by
  unfold pickSlot
  by_cases h : σ.installed < 32
  · simp [h, Fin.ext_iff, eq_comm]
  · have := s.isLt
    simp only [h, dif_neg, not_false_eq_true, reduceCtorEq, false_iff]
    omega

/-- A slot that cannot be picked is a rejection (R175, R176). -/
theorem pickSlot_error {σ : State} {req : Option Byte} {o : HostOutcome} (h : pickSlot σ req = .error o) :
    o = .rejected .badSlot ∨ o = .rejected .noFreeSlot := by
  unfold pickSlot at h
  split at h <;> split at h <;> cases h <;> simp

/-- R177: the two placements. -/
theorem placement_ok {σ : State} {s : Fin 32} {p : Option (Fin 7)} (h : placement σ s = .ok p) :
    (p = none ∧ σ.slotAt s = none) ∨
      ∃ i, p = some i ∧ σ.slotAt s ≠ none ∧ i.val = (σ.subCount s).val ∧ σ.subAt s i = none := by
  unfold placement at h
  split at h
  · next h0 => cases h; exact .inl ⟨rfl, h0⟩
  next h0 =>
  split at h
  next h1 =>
    split at h
    · next h2 => cases h; exact .inr ⟨_, rfl, h0, rfl, h2⟩
    · cases h
  · cases h

theorem placement_error {σ : State} {s : Fin 32} {o : HostOutcome} (h : placement σ s = .error o) :
    o = .rejected .functionsFull ∨ o = .fatal .subfunctionOccupied := by
  unfold placement at h
  split at h
  · cases h
  split at h
  · split at h <;> cases h
    simp
  · cases h; simp

/-! ## The tentative state and the commit -/

theorem lazyInit_toController (σ : State) :
    (lazyInit σ).toController = if σ.phase = .uninit
      then { σ.toController with phase := .init, store := Memory.zero } else σ.toController := by
  unfold lazyInit; split <;> rfl

@[simp] theorem lazyInit_slot (σ : State) : (lazyInit σ).slot = σ.slot := by unfold lazyInit; split <;> rfl
@[simp] theorem lazyInit_sub (σ : State) : (lazyInit σ).sub = σ.sub := by unfold lazyInit; split <;> rfl
@[simp] theorem lazyInit_nsub (σ : State) : (lazyInit σ).nsub = σ.nsub := by unfold lazyInit; split <;> rfl
@[simp] theorem lazyInit_installed (σ : State) : (lazyInit σ).installed = σ.installed := by
  unfold lazyInit; split <;> rfl
@[simp] theorem lazyInit_latch (σ : State) : (lazyInit σ).latch = σ.latch := by unfold lazyInit; split <;> rfl
@[simp] theorem lazyInit_fault (σ : State) : (lazyInit σ).fault = σ.fault := by unfold lazyInit; split <;> rfl
@[simp] theorem lazyInit_queue (σ : State) : (lazyInit σ).queue = σ.queue := by unfold lazyInit; split <;> rfl
@[simp] theorem lazyInit_idents (σ : State) : (lazyInit σ).idents = σ.idents := by unfold lazyInit; split <;> rfl
@[simp] theorem lazyInit_input (σ : State) : (lazyInit σ).input = σ.input := by unfold lazyInit; split <;> rfl
@[simp] theorem lazyInit_draws (σ : State) : (lazyInit σ).draws = σ.draws := by unfold lazyInit; split <;> rfl
@[simp] theorem lazyInit_trace (σ : State) : (lazyInit σ).trace = σ.trace := by unfold lazyInit; split <;> rfl

theorem lazyInit_phase {σ : State} (h : σ.phase ≠ .absent) : (lazyInit σ).phase = .init := by
  unfold lazyInit
  split
  · rfl
  · next h' => cases hp : σ.phase <;> simp_all

theorem lazyInit_store (σ : State) : (lazyInit σ).store = if σ.phase = .uninit then Memory.zero else σ.store := by
  unfold lazyInit; split <;> rfl

/-- R180 for a primary. -/
theorem commit_primary (τ : State) (d : Device) (s : Fin 32) (c : Cell) :
    (commit τ d s none c).toController =
      { τ.toController with
        store := τ.store.setCell s 0 c
        slot := τ.slot.set s (some d)
        installed := τ.installed + 1
        idents := τ.idents ++ [(d.ref, ⟨s, 0⟩)] } := rfl

/-- R180 for a secondary. -/
theorem commit_secondary (τ : State) (d : Device) (s : Fin 32) (i : Fin 7) (c : Cell) :
    (commit τ d s (some i) c).toController =
      { τ.toController with
        store := τ.store.setCell s i.succ c
        sub := τ.sub.set s (τ.sub[s].set i (some d))
        nsub := τ.nsub.set s i.succ
        idents := τ.idents ++ [(d.ref, ⟨s, i.succ⟩)] } := rfl

@[simp] theorem commit_input (τ : State) (d : Device) (s : Fin 32) (p : Option (Fin 7)) (c : Cell) :
    (commit τ d s p c).input = τ.input := by cases p <;> rfl
@[simp] theorem commit_draws (τ : State) (d : Device) (s : Fin 32) (p : Option (Fin 7)) (c : Cell) :
    (commit τ d s p c).draws = τ.draws := by cases p <;> rfl
@[simp] theorem commit_trace (τ : State) (d : Device) (s : Fin 32) (p : Option (Fin 7)) (c : Cell) :
    (commit τ d s p c).trace = τ.trace := by cases p <;> rfl
@[simp] theorem commit_phase (τ : State) (d : Device) (s : Fin 32) (p : Option (Fin 7)) (c : Cell) :
    (commit τ d s p c).phase = τ.phase := by cases p <;> rfl
@[simp] theorem commit_latch (τ : State) (d : Device) (s : Fin 32) (p : Option (Fin 7)) (c : Cell) :
    (commit τ d s p c).latch = τ.latch := by cases p <;> rfl
@[simp] theorem commit_fault (τ : State) (d : Device) (s : Fin 32) (p : Option (Fin 7)) (c : Cell) :
    (commit τ d s p c).fault = τ.fault := by cases p <;> rfl
@[simp] theorem commit_queue (τ : State) (d : Device) (s : Fin 32) (p : Option (Fin 7)) (c : Cell) :
    (commit τ d s p c).queue = τ.queue := by cases p <;> rfl
@[simp] theorem commit_idents (τ : State) (d : Device) (s : Fin 32) (p : Option (Fin 7)) (c : Cell) :
    (commit τ d s p c).idents = τ.idents ++ [(d.ref, ⟨s, placementFn p⟩)] := by cases p <;> rfl
@[simp] theorem commit_store (τ : State) (d : Device) (s : Fin 32) (p : Option (Fin 7)) (c : Cell) :
    (commit τ d s p c).store = τ.store.setCell s (placementFn p) c := by cases p <;> rfl

/-! ## The slot table after a commit -/

theorem commit_primary_slotAt (σ : State) (d : Device) (s n : Fin 32) (c : Cell) :
    (commit (lazyInit σ).draw d s none c).slotAt n = if n = s then some d else σ.slotAt n := by
  rw [commit_primary]
  have := slotAt_set (lazyInit σ).toController s n (some d) 0
  simp only [Controller.slotAt, draw_toController, lazyInit_slot] at this ⊢
  exact this

theorem commit_primary_subAt (σ : State) (d : Device) (s n : Fin 32) (j : Fin 7) (c : Cell) :
    (commit (lazyInit σ).draw d s none c).subAt n j = σ.subAt n j := by
  rw [commit_primary]; simp [Controller.subAt]

theorem commit_primary_subCount (σ : State) (d : Device) (s n : Fin 32) (c : Cell) :
    (commit (lazyInit σ).draw d s none c).subCount n = σ.subCount n := by
  rw [commit_primary]; simp [Controller.subCount]

theorem commit_secondary_slotAt (σ : State) (d : Device) (s n : Fin 32) (i : Fin 7) (c : Cell) :
    (commit (lazyInit σ).draw d s (some i) c).slotAt n = σ.slotAt n := by
  rw [commit_secondary]; simp [Controller.slotAt]

theorem commit_secondary_subAt (σ : State) (d : Device) (s n : Fin 32) (i j : Fin 7) (c : Cell) :
    (commit (lazyInit σ).draw d s (some i) c).subAt n j = if n = s ∧ j = i then some d else σ.subAt n j := by
  rw [commit_secondary]
  have := subAt_set (lazyInit σ).toController s n i j (some d) ((lazyInit σ).nsub.set s i.succ)
  simp only [Controller.subAt, draw_toController, lazyInit_sub] at this ⊢
  exact this

theorem commit_secondary_subCount (σ : State) (d : Device) (s n : Fin 32) (i : Fin 7) (c : Cell) :
    (commit (lazyInit σ).draw d s (some i) c).subCount n = if n = s then i.succ else σ.subCount n := by
  rw [commit_secondary]
  have := subCount_set (lazyInit σ).toController s n i.succ (lazyInit σ).sub
  simp only [Controller.subCount, draw_toController, lazyInit_nsub] at this ⊢
  exact this

/-- The place a registration picks is routed to no device (R177). -/
theorem placement_unrouted {σ : State} {n : Fin 32} {p : Option (Fin 7)} (h : placement σ n = .ok p) :
    σ.devAt n (placementFn p) = none := by
  rcases placement_ok h with ⟨rfl, h0⟩ | ⟨i, rfl, h0, h1, h2⟩
  · simp [Controller.devAt, h0]
  · have : ¬i.succ ≤ σ.subCount n := by rw [Fin.le_def, Fin.val_succ]; omega
    simp [Controller.devAt, h0, placementFn, this]

/-! ## Identities -/

theorem identOf_append (c : Controller) (d d' : Device) (x : Ident) :
    ({ c with idents := c.idents ++ [(d.ref, x)] } : Controller).identOf d'
      = (c.identOf d').or (if d'.ref = d.ref then some x else none) := by
  simp only [Controller.identOf, List.lookup_append, List.lookup_cons, List.lookup_nil]
  by_cases h : d'.ref = d.ref
  · simp [h]
  · simp [h, beq_false_of_ne h]

/-! ## REGISTER_CORE and the commands -/

/-- R181, R218: everything a registration can do. -/
theorem registerCore_cases {σ τ : State} {d : Device} {req : Option Byte} {o : HostOutcome}
    (h : registerCore σ d req = .ok (τ, o)) :
    (∃ reason, o = .fatal reason ∧ τ = σ.raiseFatal) ∨
    (∃ reason, o = .rejected reason ∧ (τ = σ ∨ τ = σ.draw)) ∨
    ∃ s p c, o = .ok s ∧ σ.identOf d = none ∧ pickSlot σ req = .ok s ∧ placement σ s = .ok p ∧
      runInit d.init (Config.envDraw σ.draws) ((lazyInit σ).cell s (placementFn p)) = some (some c) ∧
      τ = commit (lazyInit σ).draw d s p c := by
  unfold registerCore at h
  split at h
  · cases h; exact .inl ⟨_, rfl, rfl⟩
  next hi =>
  split at h
  · next o' ho =>
    rcases pickSlot_error ho with rfl | rfl <;> cases h <;> exact .inr (.inl ⟨_, rfl, .inl rfl⟩)
  next s hs =>
  split at h
  · next o' ho =>
    rcases placement_error ho with rfl | rfl <;> cases h
    · exact .inr (.inl ⟨_, rfl, .inl rfl⟩)
    · exact .inl ⟨_, rfl, rfl⟩
  next p hp =>
  unfold initAndCommit at h
  split at h
  · cases h
  · cases h; exact .inr (.inl ⟨_, rfl, .inr rfl⟩)
  · next c hc => cases h; exact .inr (.inr ⟨s, p, c, rfl, by simpa using hi, hs, hp, hc, rfl⟩)

/-! ## The steps of a drain (R171) -/

/-- A replayed registration that is no Fatal, a rejected one too, lets the drain go on. -/
theorem replay_continue {d : Device} {ds : List Device} {σ τ : State} {o : HostOutcome}
    (h : registerCore σ d none = .ok (τ, o)) (hf : τ.fault = false) : replay (d :: ds) σ = replay ds τ := by
  simp [replay, h, hf]

/-- A Fatal ends the drain. -/
theorem replay_stop {d : Device} {ds : List Device} {σ τ : State} {o : HostOutcome}
    (h : registerCore σ d none = .ok (τ, o)) (hf : τ.fault = true) : replay (d :: ds) σ = .ok τ := by
  simp [replay, h, hf]

/-- A hook that breaks R32 refuses the whole drain. -/
theorem replay_error {d : Device} {ds : List Device} {σ : State} {e : Refusal} (h : registerCore σ d none = .error e) :
    replay (d :: ds) σ = .error e := by
  simp [replay, h]

/-- A drain that did not end early goes on with the rest of the queue. -/
theorem replay_append {as bs : List Device} {σ τ : State} (h : replay as σ = .ok τ) (hf : τ.fault = false) :
    replay (as ++ bs) σ = replay bs τ := by
  induction as generalizing σ with
  | nil => cases h; rfl
  | cons d ds ih =>
    simp only [replay] at h
    split at h
    · cases h
    next υ o hc =>
    split at h
    · next hυ => cases h; rw [hf] at hυ; cases hυ
    · next hυ => rw [List.cons_append, replay_continue hc (by simpa using hυ)]; exact ih h

/-- A relation that every registration keeps is kept by the replay of a queue (R171). -/
theorem replay_induction {P : State → State → Prop} (hrefl : ∀ σ, P σ σ)
    (htrans : ∀ {σ τ υ}, P σ τ → P τ υ → P σ υ)
    (hcore : ∀ {σ τ d o}, registerCore σ d none = .ok (τ, o) → P σ τ) {ds : List Device} {σ τ : State}
    (h : replay ds σ = .ok τ) : P σ τ := by
  induction ds generalizing σ with
  | nil => cases h; exact hrefl _
  | cons d ds ih =>
    simp only [replay] at h
    split at h
    · cases h
    · next hc =>
      split at h
      · cases h; exact hcore hc
      · exact htrans (hcore hc) (ih h)

/-- A registration leaves the latch, the queue and the pending transactions alone. -/
theorem registerCore_frame {σ τ : State} {d : Device} {req : Option Byte} {o : HostOutcome}
    (h : registerCore σ d req = .ok (τ, o)) :
    τ.latch = σ.latch ∧ τ.queue = σ.queue ∧ τ.input = σ.input ∧ τ.trace = σ.trace := by
  rcases registerCore_cases h with ⟨_, _, rfl⟩ | ⟨_, _, rfl | rfl⟩ | ⟨s, p, c, _, _, _, _, _, rfl⟩ <;> simp

/-! ## CONSTRUCT -/

/-- R170, R171: what CONSTRUCT does. -/
theorem constructBody_ok {σ τ : State} {o : HostOutcome} (h : constructBody σ = .ok (τ, o)) :
    σ.phase = .absent ∧ o = .done ∧
      ∃ υ, replay σ.queue { σ with phase := .uninit, latch := 0#32 } = .ok υ ∧ τ = { υ with queue := [] } := by
  unfold constructBody at h
  split at h
  next hp =>
    split at h
    · cases h
    · next υ hυ => cases h; exact ⟨hp, rfl, υ, hυ, rfl⟩
  · cases h

end Sys2Proof.Machine
end

