-- ==== Sys2Proof/Laws/Exec.lean ====
section
/-!
SUPPORT. Everything that a transaction with a next state can have done: one inversion lemma over the dispatch, from which the
rules about the whole machine follow without unfolding a meaning.
-/

namespace Sys2Proof.Machine

/-! ## The small lemmas of `enqueue` and `teardown` -/

theorem enqueue_room {σ : State} {d : Device} (h : σ.queue.length < Config.queueCap) :
    enqueue σ d = ({ σ with queue := σ.queue ++ [d] }, .queued) := if_pos h

theorem enqueue_full {σ : State} {d : Device} (h : ¬σ.queue.length < Config.queueCap) :
    enqueue σ d = (σ, .queueOverflow) := if_neg h

@[simp] theorem teardown_phase (σ : State) : (teardown σ).phase = .uninit := rfl
@[simp] theorem teardown_fault (σ : State) : (teardown σ).fault = σ.fault := rfl
@[simp] theorem teardown_latch (σ : State) : (teardown σ).latch = 0#32 := rfl
@[simp] theorem teardown_slotAt (σ : State) (n : Fin 32) : (teardown σ).slotAt n = none := by
  simp [Controller.slotAt, teardown]
@[simp] theorem teardown_subAt (σ : State) (n : Fin 32) (i : Fin 7) : (teardown σ).subAt n i = none := by
  simp [Controller.subAt, teardown]
@[simp] theorem teardown_subCount (σ : State) (n : Fin 32) : (teardown σ).subCount n = 0 := by
  simp [Controller.subCount, teardown]
@[simp] theorem teardown_installed (σ : State) : (teardown σ).installed = 0 := rfl
@[simp] theorem teardown_store (σ : State) : (teardown σ).store = Memory.zero := rfl
@[simp] theorem teardown_queue (σ : State) : (teardown σ).queue = [] := rfl
@[simp] theorem teardown_idents (σ : State) : (teardown σ).idents = σ.idents := rfl
@[simp] theorem teardown_input (σ : State) : (teardown σ).input = σ.input := rfl

/-! ## Data-port bodies without a target -/

theorem dataRead_noTarget {w : Width} {k : BitVec 2} {σ : State} {c : Cause} (h : σ.resolve = .error c) :
    dataRead w k σ = .ok (σ.note c, allOnes) := by unfold dataRead; rw [h]

theorem dataWrite_noTarget {w : Width} {k : BitVec 2} {v : Word} {σ : State} {c : Cause} (h : σ.resolve = .error c) :
    dataWrite w k v σ = .ok (σ.note c) := by unfold dataWrite; rw [h]

/-! ## The inversion of the dispatch -/

/-- What a transaction did on the way from `s` to its next state `t`. -/
inductive Effect (s t : State) : Instr → Prop
  /-- ADDR_WR on a bound port (R100). -/
  | latch (v : Word) : s.phase = .init → t = s.start.setLatch v → Effect s t (.addrWr v)
  /-- Nothing to the controller: ADDR_RD, LEGACY_CB, an access without a target, and I/O on unbound ports. -/
  | idle (i : Instr) : isIo i = true ∨ i = .legacyCb → (∀ v, i = .addrWr v → s.phase ≠ .init) →
      t.toController = s.toController → t.input = s.input → Effect s t i
  /-- A data-port access with a target: bytes of the target's cell only. -/
  | cell (i : Instr) (tg : Target) : isIo i = true → (∀ v, i ≠ .addrWr v) → s.phase = .init → s.resolve = .ok tg →
      t.toController = { s.toController with store := t.store } → t.input = s.input →
      (∀ a, a < storeAddr tg.slot tg.fn 0#8 ∨ storeAddr tg.slot tg.fn 0#8 + 256 ≤ a → t.store.read a = s.store.read a) →
      (s.store.wf = true → t.store.wf = true) → Effect s t i
  /-- CONSTRUCT: the queue is replayed and emptied (R170, R171). -/
  | construct (υ : State) : s.phase = .absent →
      replay s.queue { s.start with phase := .uninit, latch := 0#32 } = .ok υ →
      t = ({ υ with queue := [] } : State).answer (.outcome .done) → Effect s t .construct
  /-- REGISTER on an existing controller (R174 to R181). -/
  | register (d : Device) (req : Option Byte) (υ : State) (o : HostOutcome) : s.phase ≠ .absent →
      registerCore s.start d req = .ok (υ, o) → t = υ.answer (.outcome o) → Effect s t (.register d req)
  /-- REGISTER while no controller exists, with room in the queue (R173). -/
  | queued (d : Device) (req : Option Byte) : s.phase = .absent → s.queue.length < Config.queueCap →
      t = ({ s.start with queue := s.queue ++ [d] } : State).answer (.outcome .queued) → Effect s t (.register d req)
  /-- REGISTER while no controller exists, on a full queue (R173). -/
  | overflow (d : Device) (req : Option Byte) : s.phase = .absent → ¬s.queue.length < Config.queueCap →
      t = s.start.answer (.outcome .queueOverflow) → Effect s t (.register d req)
  /-- SHUTDOWN (R182). -/
  | shutdown : s.phase ≠ .absent → t = (teardown s.start).answer (.outcome .done) → Effect s t .shutdown
  /-- DESTROY (R184). -/
  | destroy : s.phase ≠ .absent → t = ({ teardown s.start with phase := .absent } : State).answer (.outcome .done) →
      Effect s t .destroy

theorem Effect.of_dataRead {i : Instr} {w : Width} {k : BitVec 2} {s t : State} (hi : isIo i = true)
    (ha : ∀ v, i ≠ .addrWr v) (h : ioRead w (dataRead w k) s = .next t) : s.fault = false ∧ Effect s t i := by
  obtain ⟨hf, ⟨hp, υ, v, hb, rfl⟩ | ⟨hp, rfl⟩⟩ := ioRead_next h
  · refine ⟨hf, ?_⟩
    rcases dataRead_cases hb with ⟨c, hc, rfl, rfl⟩ | ⟨tg, bs, ht, hr, rfl, ho⟩
    · exact .idle i (.inl hi) (fun v hv => absurd hv (ha v)) rfl rfl
    · exact .cell i tg hi ha hp ht ho.controller ho.input ho.outside ho.wf
  · exact ⟨hf, .idle i (.inl hi) (fun v hv => absurd hv (ha v)) rfl rfl⟩

theorem Effect.of_dataWrite {i : Instr} {w : Width} {k : BitVec 2} {v : Word} {s t : State} (hi : isIo i = true)
    (ha : ∀ v, i ≠ .addrWr v) (h : ioWrite (dataWrite w k v) s = .next t) : s.fault = false ∧ Effect s t i := by
  obtain ⟨hf, ⟨hp, hb⟩ | ⟨hp, rfl⟩⟩ := ioWrite_next h
  · refine ⟨hf, ?_⟩
    rcases dataWrite_cases hb with ⟨c, hc, rfl⟩ | ⟨tg, ht, hr, ho⟩
    · exact .idle i (.inl hi) (fun v hv => absurd hv (ha v)) rfl rfl
    · exact .cell i tg hi ha hp ht ho.controller ho.input ho.outside ho.wf
  · exact ⟨hf, .idle i (.inl hi) (fun v hv => absurd hv (ha v)) rfl rfl⟩

/-- A transaction that has a next state ran with FAULT = 0 and had one of the effects above. -/
theorem exec_effect {i : Instr} {s t : State} (h : exec i s = .next t) : s.fault = false ∧ Effect s t i := by
  cases i with
  | addrRd =>
    obtain ⟨hf, ⟨hp, υ, v, hb, rfl⟩ | ⟨hp, rfl⟩⟩ := ioRead_next (exec_addrRd s ▸ h)
    · cases hb; exact ⟨hf, .idle _ (.inl rfl) nofun rfl rfl⟩
    · exact ⟨hf, .idle _ (.inl rfl) nofun rfl rfl⟩
  | addrWr v =>
    obtain ⟨hf, ⟨hp, hb⟩ | ⟨hp, rfl⟩⟩ := ioWrite_next (exec_addrWr v s ▸ h)
    · cases hb; exact ⟨hf, .latch v hp rfl⟩
    · exact ⟨hf, .idle _ (.inl rfl) (fun _ _ => hp) rfl rfl⟩
  | dataRd8 k => exact Effect.of_dataRead rfl nofun (exec_dataRd8 k s ▸ h)
  | dataRd16 k => exact Effect.of_dataRead rfl nofun (exec_dataRd16 k s ▸ h)
  | dataRd32 k => exact Effect.of_dataRead rfl nofun (exec_dataRd32 k s ▸ h)
  | dataWr8 k v => exact Effect.of_dataWrite rfl nofun (exec_dataWr8 k v s ▸ h)
  | dataWr16 k v => exact Effect.of_dataWrite rfl nofun (exec_dataWr16 k v s ▸ h)
  | dataWr32 k v => exact Effect.of_dataWrite rfl nofun (exec_dataWr32 k v s ▸ h)
  | construct =>
    obtain ⟨hf, υ, o, hb, rfl⟩ := hostCommand_next (exec_construct s ▸ h)
    obtain ⟨hp, rfl, υ', hr, rfl⟩ := constructBody_ok hb
    exact ⟨hf, .construct υ' hp hr rfl⟩
  | register d req =>
    obtain ⟨hf, υ, o, hb, rfl⟩ := hostCommand_next (exec_register d req s ▸ h)
    refine ⟨hf, ?_⟩
    unfold registerBody at hb
    split at hb
    next hp =>
      by_cases hq : s.queue.length < Config.queueCap
      · rw [enqueue_room (σ := s.start) hq] at hb; cases hb; exact .queued d req hp hq rfl
      · rw [enqueue_full (σ := s.start) hq] at hb; cases hb; exact .overflow d req hp hq rfl
    next hp => exact .register d req υ o hp hb rfl
  | shutdown =>
    obtain ⟨hf, υ, o, hb, rfl⟩ := hostCommand_next (exec_shutdown s ▸ h)
    unfold shutdownBody at hb
    split at hb
    · cases hb
    next hp => cases hb; exact ⟨hf, .shutdown hp rfl⟩
  | destroy =>
    obtain ⟨hf, υ, o, hb, rfl⟩ := hostCommand_next (exec_destroy s ▸ h)
    unfold destroyBody at hb
    split at hb
    · cases hb
    next hp => cases hb; exact ⟨hf, .destroy hp rfl⟩
  | legacyCb =>
    obtain ⟨hf, υ, o, hb, rfl⟩ := hostCommand_next (exec_legacyCb s ▸ h)
    unfold legacyCbBody at hb
    split at hb
    · cases hb; exact ⟨hf, .idle _ (.inr rfl) nofun rfl rfl⟩
    · cases hb

end Sys2Proof.Machine
end

