-- ==== Sys2Proof/Laws/PerInstr.lean ====
section
/-!
SUPPORT. What holds of every transaction as syntax: its encoded descriptor matches its own row of the opcode table, and no
other row (30_encoding.md R82).
-/

namespace Sys2Proof

/-- The rows of the table that cover a descriptor word. -/
def rowsCovering (d : Word) : List OpcodeRow := opcodeTable.filter fun row => row.covers d

/-- The descriptor matches the row of its transaction, and that row alone. -/
def Laws.EncodeRow.Statement (i : Instr) : Prop := rowsCovering (encode i).desc = [opcodeRow i]

theorem Laws.EncodeRow.addrRd : Laws.EncodeRow.Statement .addrRd := by unfold Laws.EncodeRow.Statement; decide

theorem Laws.EncodeRow.addrWr (wdata : Word) : Laws.EncodeRow.Statement (.addrWr wdata) := by
  change rowsCovering (encode (.addrWr 0#32)).desc = [opcodeRow (.addrWr 0#32)]; decide

theorem Laws.EncodeRow.dataRd8 (k : BitVec 2) : Laws.EncodeRow.Statement (.dataRd8 k) := by
  unfold Laws.EncodeRow.Statement; revert k; decide

theorem Laws.EncodeRow.dataRd16 (k : BitVec 2) : Laws.EncodeRow.Statement (.dataRd16 k) := by
  unfold Laws.EncodeRow.Statement; revert k; decide

theorem Laws.EncodeRow.dataRd32 (k : BitVec 2) : Laws.EncodeRow.Statement (.dataRd32 k) := by
  unfold Laws.EncodeRow.Statement; revert k; decide

theorem Laws.EncodeRow.dataWr8 (k : BitVec 2) (wdata : Word) : Laws.EncodeRow.Statement (.dataWr8 k wdata) := by
  change rowsCovering (encode (.dataWr8 k 0#32)).desc = [opcodeRow (.dataWr8 k 0#32)]; revert k; decide

theorem Laws.EncodeRow.dataWr16 (k : BitVec 2) (wdata : Word) : Laws.EncodeRow.Statement (.dataWr16 k wdata) := by
  change rowsCovering (encode (.dataWr16 k 0#32)).desc = [opcodeRow (.dataWr16 k 0#32)]; revert k; decide

theorem Laws.EncodeRow.dataWr32 (k : BitVec 2) (wdata : Word) : Laws.EncodeRow.Statement (.dataWr32 k wdata) := by
  change rowsCovering (encode (.dataWr32 k 0#32)).desc = [opcodeRow (.dataWr32 k 0#32)]; revert k; decide

theorem Laws.EncodeRow.construct : Laws.EncodeRow.Statement .construct := by
  unfold Laws.EncodeRow.Statement; decide

theorem Laws.EncodeRow.register (d : Device) (slotReq : Option Byte) :
    Laws.EncodeRow.Statement (.register d slotReq) := by
  change rowsCovering (encode (.register Device.zero none)).desc = [opcodeRow (.register Device.zero none)]; decide

theorem Laws.EncodeRow.shutdown : Laws.EncodeRow.Statement .shutdown := by unfold Laws.EncodeRow.Statement; decide

theorem Laws.EncodeRow.destroy : Laws.EncodeRow.Statement .destroy := by unfold Laws.EncodeRow.Statement; decide

theorem Laws.EncodeRow.legacyCb : Laws.EncodeRow.Statement .legacyCb := by unfold Laws.EncodeRow.Statement; decide

end Sys2Proof
end

