-- ==== Sys2Proof/Laws/Step.lean ====
section
/-!
SUPPORT. Everything that a step can have done: it took the host's next transaction, and then ran an instruction or completed
a narrow access to the address port, which leaves the controller alone.
-/

namespace Sys2Proof.Machine

@[simp] theorem fetch_present (s : State) (t : Transaction) : (s.present t).fetch = some (t, s) := rfl

/-- A fetched state is the state with the first transaction taken from the host's sequence. -/
theorem fetch_some {s s' : State} {t : Transaction} (h : s.fetch = some (t, s')) :
    s.input = t :: s'.input ∧ s' = { s with input := s'.input } := by
  unfold State.fetch at h
  split at h
  · cases h
  · next hi => cases h; exact ⟨hi, rfl⟩

/-- A narrow access that completes leaves the controller and the host's sequence as they were (R102, R40; log 9). -/
theorem execNarrow_next {p : Params} {write : Bool} {w : Width} {s t : State} (h : execNarrow p write w s = .next t) :
    s.fault = false ∧ p.narrow ≠ none ∧ t.toController = s.toController ∧ t.input = s.input := by
  unfold execNarrow at h
  split at h
  · cases h
  next v hv =>
  refine (fun (hr : s.fault = false ∧ t.toController = s.toController ∧ t.input = s.input) =>
    ⟨hr.1, by rw [hv]; exact nofun, hr.2⟩) ?_
  unfold narrowAccess at h
  split at h
  · obtain ⟨hf, ⟨_, hb⟩ | ⟨_, rfl⟩⟩ := ioWrite_next h
    · cases hb; exact ⟨hf, rfl, rfl⟩
    · exact ⟨hf, rfl, rfl⟩
  · obtain ⟨hf, ⟨_, υ, x, hb, rfl⟩ | ⟨_, rfl⟩⟩ := ioRead_next h
    · cases hb; exact ⟨hf, rfl, rfl⟩
    · exact ⟨hf, rfl, rfl⟩

/-- Where the next state of a step came from. -/
theorem stepWith_next {p : Params} {s t : State} (h : stepWith p s = .next t) : ∃ (tr : Transaction) (s' : State),
    s.input = tr :: s'.input ∧ s' = { s with input := s'.input } ∧
      ((∃ i, decodeWith p tr = .instr i ∧ exec i s' = .next t) ∨
        (∃ write w, decodeWith p tr = .narrow write w ∧ t.toController = s'.toController ∧ t.input = s'.input)) := by
  unfold stepWith at h
  split at h
  · cases h
  next tr s' hf =>
  refine ⟨tr, s', (fetch_some hf).1, (fetch_some hf).2, ?_⟩
  split at h
  · next i hd => exact .inl ⟨i, hd, h⟩
  · next write w hd => exact .inr ⟨write, w, hd, (execNarrow_next h).2.2⟩
  · cases h
  · cases h

end Sys2Proof.Machine
end

