-- ==== Sys2Proof/Tests/Slice0.lean ====
section
/-!
SUPPORT. The model's own tests. Every expected value is the spec's: R82's table and the vectors of 95_test_vectors.md, whose
part or row each comment names. Then, for every statement that has hypotheses, a state and operands that meet them together.
-/

namespace Sys2Proof.Tests

open Sys2Proof Sys2Proof.Machine Sys2Proof.Claims

/-! ## Fixtures (95_test_vectors.md part 0) -/

/-- A record with default hooks; `bytes` are the bytes its `init` writes. -/
def device (ref : Nat) (vid did : Half) (bytes : List (Byte × Byte)) : Device :=
  { ref := ref, vid := vid, did := did, init := .prog (bytes.map fun p => ⟨.lit p.1, .lit p.2⟩)
    pw := .default, pr := .default, ovr := .default }

def devA : Device := device 1 0x5333#16 0x8811#16 [(0x04#8, 0x07#8), (0x08#8, 0x02#8)]
def devB : Device := device 2 0x1234#16 0x0001#16 []
def devP : Device := device 8 0x8086#16 0x7000#16 []
def devS1 : Device := device 9 0x8086#16 0x7010#16 []
def devH1 : Device := device 6 0x8086#16 0x2448#16 [(0x0E#8, 0x01#8)]
def devF : Device := { device 7 0xDEAD#16 0xBEEF#16 [] with init := .fail }

/-- M: masks the low bytes of BAR0 and vetoes the expansion-ROM register. -/
def devM : Device :=
  { device 3 0x10EC#16 0x8029#16 [] with
    pw := .prog [⟨0x10#8, 0x12#8, [], some (.lit 0#8)⟩, ⟨0x13#8, 0x13#8, [], some .val⟩, ⟨0x30#8, 0x33#8, [], none⟩] }

/-- K: remaps 0x40, blends 0x50 and declines 0x60. -/
def devK : Device :=
  { device 4 0x1AF4#16 0x1000#16 [(0x44#8, 0xAB#8), (0x50#8, 0xF5#8)] with
    pr := .prog [⟨0x40#8, 0x40#8, [], some (.lit 0x44#8)⟩, ⟨0x50#8, 0x50#8, [], none⟩, ⟨0x60#8, 0x60#8, [], none⟩]
    ovr := .prog [⟨0x50#8, 0x50#8, [], some (.lit 0x0A#8, .lit 0x0F#8)⟩] }

/-- C: a read of 0x70 counts in 0x71. -/
def devC : Device :=
  { device 5 0xC0DE#16 0x0001#16 [] with
    pr := .prog [⟨0x70#8, 0x70#8, [⟨.lit 0x71#8, .add (.cell (.lit 0x71#8)) (.lit 1#8)⟩], some (.lit 0x71#8)⟩] }

/-- A record whose hooks all break R32. -/
def devBad : Device :=
  { device 20 0#16 0#16 [] with init := .unconfined, pw := .unconfined, pr := .unconfined, ovr := .unconfined }

/-- A record that declines every read, with an override that breaks R32. -/
def devBadOvr : Device :=
  { device 21 0#16 0#16 [] with pr := .prog [⟨0#8, 0xFF#8, [], none⟩], ovr := .unconfined }

/-- A record that declines every read and supplies no override. -/
def devDecl : Device := { device 22 0#16 0#16 [] with pr := .prog [⟨0#8, 0xFF#8, [], none⟩] }

/-- State ONE(d) with the latch `l` and the store `m`. -/
def one (d : Device) (l : Word) (m : Memory) : State :=
  { State.reset with
    phase := .init, latch := l, slot := State.reset.slot.set 0 (some d), installed := 1, store := m
    idents := [(d.ref, ⟨0, 0⟩)] }

/-- State EX with the latch `l`. -/
def ex (l : Word) : State := one devA l [(4, 0x07#8), (8, 0x02#8)]

/-- State TWO (part 4.1) with the latch `l`. -/
def two (l : Word) : State :=
  { ex l with
    slot := (State.reset.slot.set 0 (some devA)).set 1 (some devP), installed := 2
    sub := State.reset.sub.set 1 ((Vector.replicate 7 none).set 0 (some devS1))
    nsub := State.reset.nsub.set 1 1, idents := [(1, ⟨0, 0⟩), (8, ⟨1, 0⟩), (9, ⟨1, 1⟩)] }

/-- A controller whose slot 0 has a primary and 7 secondaries. -/
def full : State :=
  { ex 0#32 with sub := State.reset.sub.set 0 (Vector.replicate 7 (some devS1)), nsub := State.reset.nsub.set 0 7 }

/-- A controller without devices. -/
def uninit : State := { State.reset with phase := .uninit }

/-- A controller that does not exist, with three records queued. -/
def queued : State := { State.reset with queue := [devA, devB, devK] }

/-- A controller that does not exist, with A, F and B queued (part 6). -/
def queuedAFB : State := { State.reset with queue := [devA, devF, devB] }

/-- A P_ADDR_NARROW that is not the default: narrow reads return 0. -/
def narrowZero : NarrowRead := fun _ _ _ => 0#32

/-- Parameters that are not the defaults. -/
def otherParams : Params := { ports := ⟨0x1000#16, 0x2000#16⟩, narrow := some narrowZero }

/-- What a step returns. -/
def resultOf : Host.Outcome State Fault Refusal → Option Result
  | .next t => some t.result
  | .fault _ => none
  | .refused _ => none

/-- The store a step leaves. -/
def storeOf : Host.Outcome State Fault Refusal → Option Memory
  | .next t => some t.store
  | .fault _ => none
  | .refused _ => none

/-- The state a step leaves. -/
def after (o : Host.Outcome State Fault Refusal) : State :=
  match o with
  | .next t => t
  | .fault _ => State.reset
  | .refused _ => State.reset

/-! ## WellFormed: one ill-formed term for each check -/

theorem test_init_may_not_name_the_register :
    ({ devB with init := .prog [⟨.reg, .lit 0#8⟩] } : Device).wf = false := by decide
theorem test_init_may_not_name_the_value :
    ({ devB with init := .prog [⟨.lit 0#8, .val⟩] } : Device).wf = false := by decide
theorem test_read_hook_may_not_name_the_value :
    ({ devB with pr := .prog [⟨0#8, 1#8, [], some .val⟩] } : Device).wf = false := by decide
theorem test_override_mask_may_not_name_the_value :
    ({ devB with ovr := .prog [⟨0#8, 1#8, [], some (.reg, .not .val)⟩] } : Device).wf = false := by decide
theorem test_hook_write_may_not_name_the_value :
    ({ devB with pr := .prog [⟨0#8, 1#8, [⟨.reg, .val⟩], none⟩] } : Device).wf = false := by decide
theorem test_clause_may_not_be_empty :
    ({ devB with pw := .prog [⟨2#8, 1#8, [], none⟩] } : Device).wf = false := by decide
theorem test_fixtures_are_well_formed :
    ([devA, devB, devM, devK, devC, devF, devBad].all fun d => Instr.wf (.register d none)) = true := by decide

/-! ## Decode: one word a row, written out from R76 to R79 (part 2) -/

/-- CLASS 01, WID 10, MBZ, PORT 0x0CF8. -/
theorem test_decode_addrWr :
    decode ⟨0b01_10_000000000000_0000110011111000#32, { OutOfBand.zero with wdata := 5#32 }⟩ = .instr (.addrWr 5#32) := by
  decide
theorem test_decode_addrRd : decode ⟨0b00_10_000000000000_0000110011111000#32, OutOfBand.zero⟩ = .instr .addrRd := by decide
theorem test_decode_dataRd8 : decode ⟨0b00_00_000000000000_0000110011111111#32, OutOfBand.zero⟩ = .instr (.dataRd8 3#2) := by
  decide
theorem test_decode_dataRd16 :
    decode ⟨0b00_01_000000000000_0000110011111110#32, OutOfBand.zero⟩ = .instr (.dataRd16 2#2) := by decide
theorem test_decode_dataRd32 :
    decode ⟨0b00_10_000000000000_0000110011111101#32, OutOfBand.zero⟩ = .instr (.dataRd32 1#2) := by decide
theorem test_decode_dataWr8 :
    decode ⟨0b01_00_000000000000_0000110011111100#32, { OutOfBand.zero with wdata := 0xFF5A#32 }⟩
      = .instr (.dataWr8 0#2 0xFF5A#32) := by decide
theorem test_decode_dataWr16 :
    decode ⟨0b01_01_000000000000_0000110011111111#32, { OutOfBand.zero with wdata := 0x1234#32 }⟩
      = .instr (.dataWr16 3#2 0x1234#32) := by decide
theorem test_decode_dataWr32 :
    decode ⟨0b01_10_000000000000_0000110011111111#32, { OutOfBand.zero with wdata := 0xAABBCCDD#32 }⟩
      = .instr (.dataWr32 3#2 0xAABBCCDD#32) := by decide
/-- CLASS 10, MBZ, CMD 0x01. -/
theorem test_decode_construct : decode ⟨0b10_0000000000000000000000_00000001#32, OutOfBand.zero⟩ = .instr .construct := by
  decide
theorem test_decode_register :
    decode ⟨0b10_0000000000000000000000_00000010#32, { OutOfBand.zero with dev := devM, slotReq := some 31#8 }⟩
      = .instr (.register devM (some 31#8)) := by decide
theorem test_decode_shutdown : decode ⟨0b10_0000000000000000000000_00000011#32, OutOfBand.zero⟩ = .instr .shutdown := by
  decide
theorem test_decode_destroy : decode ⟨0b10_0000000000000000000000_00000100#32, OutOfBand.zero⟩ = .instr .destroy := by decide
theorem test_decode_legacyCb : decode ⟨0b10_0000000000000000000000_00000101#32, OutOfBand.zero⟩ = .instr .legacyCb := by
  decide

/-- The refusals of part 2, and the record check of log 12. -/
theorem test_decode_refusals :
    ([0xC0000CFC#32, 0x30000CFC#32, 0x00010CFC#32, 0x80000101#32, 0x80000000#32, 0x80000006#32, 0x800000FF#32, 0x00000CF8#32,
      0x50000CF8#32].map fun d => decode ⟨d, OutOfBand.zero⟩)
      = [.refused .reservedClass, .refused .reservedWidth, .refused .nonzeroReservedBits, .refused .nonzeroReservedBits,
        .refused .reservedCommand, .refused .reservedCommand, .refused .reservedCommand, .refused .narrowAddressAccess,
        .refused .narrowAddressAccess] := by decide
theorem test_decode_other_ports :
    ([0x20000CF9#32, 0x00000080#32, 0x20000D00#32].map fun d => decode ⟨d, OutOfBand.zero⟩)
      = [.notThisBlock, .notThisBlock, .notThisBlock] := by decide
theorem test_decode_malformed_record :
    decode ⟨0x80000002#32, { OutOfBand.zero with dev := { devB with init := .prog [⟨.reg, .reg⟩] } }⟩
      = .refused .malformedRecord := by decide

/-- The fixed host question, and the step it asks about: DATA_RD8 3 on a controller that is not bound takes a draw (R62). -/
theorem test_table_word :
    decodeTableWord 32 0x00000CFF = some (.dataRd8 3#2) ∧
      step (State.reset.withFetchWord 32 0x00000CFF) = exec (.dataRd8 3#2) State.reset := by
  exact ⟨by decide, rfl⟩

/-- R78 at other ports: the same word moves with DATA_BASE, and the default port is another device's. -/
theorem test_decode_other_parameters :
    decodeWith otherParams ⟨0x00002003#32, OutOfBand.zero⟩ = .instr (.dataRd8 3#2) ∧
      decodeWith otherParams ⟨0x20000CF8#32, OutOfBand.zero⟩ = .notThisBlock ∧
      decodeWith otherParams ⟨0x50001000#32, OutOfBand.zero⟩ = .narrow true .w2 := by decide

/-- R102: a narrow write is never a partial latch update, and a narrow read returns its parameter. -/
theorem test_narrow_access :
    (after (stepWith otherParams ((ex 0x80000010#32).present ⟨0x50001000#32, { OutOfBand.zero with wdata := 5#32 }⟩))).latch
        = 0x80000010#32 ∧
      resultOf (stepWith otherParams ((ex 0x80000010#32).present ⟨0x00001000#32, OutOfBand.zero⟩)) = some (.rdata8 0#8) := by
  decide

/-- R84's expansions (part 2). -/
theorem test_pseudo_expansions :
    cfgAddr 31 7 0xFF#8 = .addrWr 0x8000FFFC#32 ∧
      cfgRd16 2 3 0x42#8 = [.addrWr 0x80001340#32, .dataRd16 2#2] ∧
      cfgWr32 0 0 0x13#8 0xAABBCCDD#32 = [.addrWr 0x80000010#32, .dataWr32 3#2 0xAABBCCDD#32] := by decide

/-- R85's rendering. -/
theorem test_guest_port_io :
    decode (guestOut .w4 0x0CF8#16 0x80000010#32) = .instr (.addrWr 0x80000010#32) ∧
      decode (guestIn .w2 0x0CFE#16) = .instr (.dataRd16 2#2) := by decide

/-! ## One step each (parts 1, 3 to 6) -/

theorem test_addrRd : resultOf (exec .addrRd (ex 0x7F00FF03#32)) = some (.rdata32 0x7F00FF03#32) := by decide
theorem test_addrWr : (after (exec (.addrWr 0x7F00FF03#32) (ex 0#32))).latch = 0x7F00FF03#32 := by decide
theorem test_addrWr_unbound : (after (exec (.addrWr 0x80000010#32) uninit)).latch = 0#32 := by decide
/-- Part 4.1: the `<=` boundary, function 1 = NSUB[1]. -/
theorem test_dataRd32_secondary : resultOf (exec (.dataRd32 0#2) (two 0x80000900#32)) = some (.rdata32 0x70108086#32) := by
  decide
/-- Part 4.2: the wrap past 0xFF. -/
theorem test_dataRd32_wrap :
    resultOf (exec (.dataRd32 3#2) (one devA 0x800000FC#32 [(0xFF, 0xDD#8)])) = some (.rdata32 0x115333DD#32) := by decide
/-- Part 4.2: registers 0x03 and 0x04. -/
theorem test_dataRd16 : resultOf (exec (.dataRd16 3#2) (ex 0x80000000#32)) = some (.rdata16 0x0788#16) := by decide
/-- Part 4.1: device 2 is INSTALLED. -/
theorem test_dataRd16_absent : resultOf (exec (.dataRd16 3#2) (two 0x80001000#32)) = some (.rdata16 0xFFFF#16) := by decide
/-- Part 5.3: K's blend, (0xF5 & 0xF0) | (0x0A & 0x0F). -/
theorem test_dataRd8_blend :
    resultOf (exec (.dataRd8 0#2) (one devK 0x80000050#32 [(0x50, 0xF5#8)])) = some (.rdata8 0xFA#8) := by decide
/-- Part 5.4: C's counter, in the post-hook cell. -/
theorem test_dataRd8_counts :
    resultOf (exec (.dataRd8 0#2) (one devC 0x80000070#32 [(0x71, 0x04#8)])) = some (.rdata8 0x05#8) ∧
      storeOf (exec (.dataRd8 0#2) (one devC 0x80000070#32 [(0x71, 0x04#8)])) = some [(0x71, 0x05#8)] := by decide
/-- Part 4.2: bits 31:8 of WDATA are ignored. -/
theorem test_dataWr8 :
    storeOf (exec (.dataWr8 0#2 0xFFFFFF5A#32) (ex 0x8000003C#32)) = some [(4, 0x07#8), (8, 0x02#8), (0x3C, 0x5A#8)] := by
  decide
/-- R141: 0x28 of a standard header is dropped. -/
theorem test_dataWr8_subsystem :
    storeOf (exec (.dataWr8 0#2 0x5A#32) (one devA 0x80000028#32 [(0x0E, 0x80#8)])) = some [(0x0E, 0x80#8)] := by decide
/-- Part 4.2: 0xFF commits 0x34, 0x00 is dropped. -/
theorem test_dataWr16_wrap :
    storeOf (exec (.dataWr16 3#2 0x1234#32) (one devB 0x800000FC#32 [])) = some [(0xFF, 0x34#8)] := by decide
/-- P2: M's BAR0 keeps its top byte only. -/
theorem test_dataWr32_masked :
    storeOf (exec (.dataWr32 0#2 0xE5123456#32) (one devM 0x80000010#32 [])) = some [(0x13, 0xE5#8)] := by decide
/-- Part 4.2: lanes 0x0F..0x12 at offset 3. -/
theorem test_dataWr32_unaligned :
    storeOf (exec (.dataWr32 3#2 0x44332211#32) (one devB 0x8000000C#32 []))
      = some [(0x0F, 0x11#8), (0x10, 0x22#8), (0x11, 0x33#8), (0x12, 0x44#8)] := by decide
/-- W8: the queue in order, and C13: with B in the second slot. -/
theorem test_construct_replays :
    (after (exec .construct queued)).slotAt 2 = some devK ∧ (after (exec .construct queued)).installed = 3 := by
  decide +kernel
theorem test_construct_refused : exec .construct uninit = .refused .controllerExists := rfl
/-- W5: the second registration in slot 0 is function 1. -/
theorem test_register_secondary :
    (after (exec (.register devS1 (some 0#8)) (one devP 0#32 []))).identOf devS1 = some ⟨0, 1⟩ ∧
      (after (exec (.register devS1 (some 0#8)) (one devP 0#32 []))).subCount 0 = 1 := by decide +kernel
/-- Part 6: A's initial cell. -/
theorem test_register_first :
    storeOf (exec (.register devA none) uninit) = some [(4, 0x07#8), (8, 0x02#8)] ∧
      resultOf (exec (.register devA none) uninit) = some (.outcome (.ok 0)) := by decide +kernel
theorem test_shutdown : (after (exec .shutdown (ex 0x80000800#32))).latch = 0#32 ∧
    (after (exec .shutdown (ex 0x80000800#32))).slotAt 0 = none := by decide
theorem test_destroy : (after (exec .destroy (ex 0#32))).phase = .absent ∧
    exec .destroy State.reset = .refused .controllerAbsent := ⟨by decide, rfl⟩
theorem test_legacyCb : (after (exec .legacyCb (ex 0#32))).toController = (ex 0#32).toController ∧
    exec .legacyCb uninit = .refused .callbackNotInstalled := ⟨by decide, rfl⟩
theorem test_fault_refuses : exec .addrRd { ex 0#32 with fault := true } = .refused .faultSet := rfl
/-- R58, R59: ADDR_RD changes nothing but the answer. -/
theorem test_addrRd_changes_nothing : (after (exec .addrRd (ex 7#32))).toController = (ex 7#32).toController := by decide
/-- R211's codes. -/
theorem test_codes :
    (HostOutcome.rejected .functionsFull).code = 0x22#8 ∧ (HostOutcome.fatal .alreadyRegistered).code = 0x30#8 ∧
      Cause.readHookDecline.code = 0x08#8 := by decide

/-! ## Witnesses: a state and operands that meet the hypotheses of each statement together -/

/-- EX with device 1 below INSTALLED but its slot empty: what an explicit slot leaves (R189, R245). -/
def hole (l : Word) : State := { ex l with installed := 2, slot := (State.reset.slot.set 0 (some devA)).set 5 (some devB) }

theorem witness_DecodeOfEncodeIsInstr :
    Config.params.wf = true ∧ Params.wf ⟨⟨0xFFFF#16, 0xFFF8#16⟩, some narrowZero⟩ = true ∧ Instr.wf (.register devM (some 5#8)) = true := by decide

theorem witness_DecodedWordsAreTheTableRows :
    decodeWord Config.params 0x20000CFF#32 OutOfBand.zero = .instr (.dataRd32 3#2) ∧
      opcodeRow (.dataRd32 3#2) ∈ opcodeTable ∧ (opcodeRow (.dataRd32 0#2)).covers 0x20000CFF#32 = true := by decide

theorem witness_ReservedDescriptorsRefused :
    (0xC0000CFC#32).extractLsb' 30 2 = 3#2 ∧
      ((0x30000CFC#32).extractLsb' 31 1 = 0#1 ∧ (0x30000CFC#32).extractLsb' 28 2 = 3#2) ∧
      ((0x48000CFC#32).extractLsb' 31 1 = 0#1 ∧ (0x48000CFC#32).extractLsb' 28 2 ≠ 3#2 ∧
        (0x48000CFC#32).extractLsb' 16 12 ≠ 0#12) ∧
      ((0xA0000001#32).extractLsb' 30 2 = 2#2 ∧ (0xA0000001#32).extractLsb' 8 22 ≠ 0#22) ∧
      ((0x80000000#32).extractLsb' 30 2 = 2#2 ∧ (0x80000000#32).extractLsb' 8 22 = 0#22 ∧
        (0x80000000#32).extractLsb' 0 8 = 0#8) ∧
      ((0x80000006#32).extractLsb' 30 2 = 2#2 ∧ (0x80000006#32).extractLsb' 8 22 = 0#22 ∧
        6#8 ≤ (0x80000006#32).extractLsb' 0 8) ∧
      ((0x50000CF8#32).extractLsb' 31 1 = 0#1 ∧ (0x50000CF8#32).extractLsb' 16 12 = 0#12 ∧
        (0x50000CF8#32).extractLsb' 28 2 = 1#2 ∧ (0x50000CF8#32).extractLsb' 0 16 = Config.params.ports.addrPort) ∧
      ((0x20000D00#32).extractLsb' 31 1 = 0#1 ∧ (0x20000D00#32).extractLsb' 16 12 = 0#12 ∧
        (0x20000D00#32).extractLsb' 28 2 ≠ 3#2 ∧ (0x20000D00#32).extractLsb' 0 16 ≠ Config.params.ports.addrPort ∧
        (0x20000D00#32).extractLsb' 2 14 ≠ Config.params.ports.dataBase.extractLsb' 2 14) ∧
      Config.params.narrow.isNone = true := by decide

theorem witness_StepRunsTheDecodedTransaction :
    ((ex 0#32).present ⟨0x20000CF8#32, OutOfBand.zero⟩).input = ⟨0x20000CF8#32, OutOfBand.zero⟩ :: [] ∧
      decode ⟨0x20000CF8#32, OutOfBand.zero⟩ = .instr .addrRd ∧ Instr.wf .addrRd = true := by decide

/-- Parameters of both kinds, and a bound, an unbound and a faulted controller. -/
theorem witness_NarrowAccessIsItsParameter :
    (Width.w1 ≠ .w4 ∧ Width.w2 ≠ .w4) ∧ Config.params.narrow = none ∧ otherParams.narrow = some narrowZero ∧
      ({ ex 0#32 with fault := true } : State).fault = true ∧ ((ex 0#32).fault = false ∧ (ex 0#32).phase = .init) ∧
      uninit.fault = false ∧ uninit.phase ≠ .init := ⟨by decide, rfl, rfl, rfl, ⟨rfl, rfl⟩, rfl, by decide⟩

theorem witness_UndecodedTransactionHasNoStep :
    decode ⟨0xC0000CFC#32, OutOfBand.zero⟩ = .refused .reservedClass ∧
      decode ⟨0x20000CF9#32, OutOfBand.zero⟩ = .notThisBlock ∧
      ((ex 0#32).present ⟨0xC0000CFC#32, OutOfBand.zero⟩).input = [⟨0xC0000CFC#32, OutOfBand.zero⟩] ∧
      (ex 0#32).input = [] := by decide

theorem witness_PseudoAddressSelectsItsRegister :
    (ex 0#32).fault = false ∧ (ex 0#32).phase = .init ∧ (∃ t, runInstrs (cfgRd8 31 7 0xFF#8) (ex 0#32) = .next t) ∧
      (∃ t, runInstrs (cfgRd16 0 0 0x02#8) (ex 0#32) = .next t) ∧ (∃ t, runInstrs (cfgRd32 0 0 0x04#8) (ex 0#32) = .next t) ∧
      (∃ t, runInstrs (cfgWr8 0 0 0x3C#8 1#32) (ex 0#32) = .next t) ∧
      (∃ t, runInstrs (cfgWr16 0 0 0x3C#8 1#32) (ex 0#32) = .next t) ∧
      (∃ t, runInstrs (cfgWr32 0 0 0xFF#8 1#32) (ex 0#32) = .next t) :=
  ⟨rfl, rfl, ⟨_, rfl⟩, ⟨_, rfl⟩, ⟨_, rfl⟩, ⟨_, rfl⟩, ⟨_, rfl⟩, ⟨_, rfl⟩⟩

theorem witness_PseudoReadReachesTheLocation :
    ((two 0#32).fault = false ∧ (two 0#32).phase = .init ∧ (1 : Fin 32).val < (two 0#32).installed ∧
      (two 0#32).devAt 1 1 = some devS1 ∧ devS1.pr = .default) ∧
      ((one devK 0#32 []).fault = false ∧ (one devK 0#32 []).phase = .init ∧
        (0 : Fin 32).val < (one devK 0#32 []).installed ∧ (one devK 0#32 []).devAt 0 0 = some devK) := by decide

theorem witness_AddrWrStoresTheLatch : (ex 0#32).fault = false ∧ (ex 0#32).phase = .init := by decide

theorem witness_AddrRdReturnsTheLatch :
    (ex 7#32).fault = false ∧ (ex 7#32).phase = .init ∧ (∃ t, exec (.addrWr 0xFFFFFFFF#32) (ex 7#32) = .next t) ∧
      ∃ t u, exec .shutdown (ex 7#32) = .next t ∧ exec (.register devB (some 31#8)) t = .next u ∧ u.phase = .init :=
  ⟨rfl, rfl, ⟨_, rfl⟩, _, _, rfl, rfl, rfl⟩

theorem witness_UnboundPortsLeaveTheBlockAlone :
    (uninit.fault = false ∧ uninit.phase ≠ .init) ∧ State.reset.fault = false ∧ State.reset.phase ≠ .init := by decide

theorem witness_ResolveChecksInOrder :
    (two 0x80000800#32).resolve = .ok ⟨1, 0, devP⟩ ∧ (two 0x80000900#32).resolve = .ok ⟨1, 1, devS1⟩ ∧
      latchEnabled (two 0x7FFFFFFF#32).latch = false ∧
      (latchEnabled (two 0x80001000#32).latch = true ∧
        (two 0x80001000#32).installed = (latchDev (two 0x80001000#32).latch).val) ∧
      (latchEnabled (hole 0x80000800#32).latch = true ∧
        (latchDev (hole 0x80000800#32).latch).val + 1 = (hole 0x80000800#32).installed ∧
        (hole 0x80000800#32).slotAt (latchDev (hole 0x80000800#32).latch) = none) ∧
      (latchEnabled (two 0x80000A00#32).latch = true ∧
        (latchDev (two 0x80000A00#32).latch).val < (two 0x80000A00#32).installed ∧
        (two 0x80000A00#32).slotAt (latchDev (two 0x80000A00#32).latch) ≠ none ∧
        (two 0x80000A00#32).subCount (latchDev (two 0x80000A00#32).latch) < latchFn (two 0x80000A00#32).latch) :=
  ⟨rfl, rfl, by decide⟩

theorem witness_NoTargetIsAbsorbed :
    (two 0x80000A00#32).fault = false ∧ (two 0x80000A00#32).phase = .init ∧
      (two 0x80000A00#32).resolve = .error .noOpNoFunction := ⟨rfl, rfl, rfl⟩

theorem witness_DisabledOrOtherBusIsAbsorbed :
    (ex 0x7FFFFFFF#32).fault = false ∧ (ex 0x7FFFFFFF#32).phase = .init ∧ (ex 0x7FFFFFFF#32).latch.getLsbD 31 = false ∧
      (ex 0x80010000#32).fault = false ∧ (ex 0x80010000#32).phase = .init ∧
      (ex 0x80010000#32).latch.extractLsb' 16 8 ≠ 0#8 ∧ (ex 0x80800000#32).latch.extractLsb' 16 8 ≠ 0#8 ∧
      (0xFF000003#32).extractLsb' 2 22 = (0x80000000#32).extractLsb' 2 22 ∧
      (0xFF000003#32).getLsbD 31 = (0x80000000#32).getLsbD 31 := by decide

theorem witness_OutOfBoundsIsAbsorbed :
    ((two 0x80001000#32).fault = false ∧ (two 0x80001000#32).phase = .init ∧ latchEnabled (two 0x80001000#32).latch = true ∧
      (two 0x80001000#32).installed = (latchDev (two 0x80001000#32).latch).val) ∧
    ((hole 0x80000800#32).fault = false ∧ (hole 0x80000800#32).phase = .init ∧
      latchEnabled (hole 0x80000800#32).latch = true ∧
      (latchDev (hole 0x80000800#32).latch).val < (hole 0x80000800#32).installed ∧
      (hole 0x80000800#32).slotAt (latchDev (hole 0x80000800#32).latch) = none) ∧
    latchEnabled ({ uninit with phase := .init, latch := 0x80000000#32 } : State).latch = true :=
  ⟨⟨rfl, rfl, rfl, rfl⟩, ⟨rfl, rfl, rfl, by decide, rfl⟩, rfl⟩

/-- Functions 0, 1 = NSUB[1] and 2 of slot 1. -/
theorem witness_FunctionAboveCountIsAbsorbed :
    (latchEnabled 0x80000A00#32 = true ∧ latchDev 0x80000800#32 = 1 ∧ latchDev 0x80000900#32 = 1 ∧
        latchDev 0x80000A00#32 = 1) ∧
      (two 0x80000A00#32).fault = false ∧ (two 0x80000A00#32).phase = .init ∧ (two 0x80000A00#32).installed = 2 ∧
      (two 0x80000A00#32).subCount 1 < latchFn 0x80000A00#32 ∧
      (latchFn 0x80000800#32 = 0 ∧ (two 0x80000800#32).slotAt 1 = some devP) ∧
      (latchFn 0x80000900#32 = (0 : Fin 7).succ ∧ (two 0x80000900#32).subCount 1 = (0 : Fin 7).succ ∧
        (two 0x80000900#32).subAt 1 0 = some devS1) :=
  ⟨by decide, rfl, rfl, rfl, show (1 : Fin 8) < latchFn 0x80000A00#32 by decide, ⟨rfl, rfl⟩, rfl, rfl, rfl⟩

theorem witness_GenericReadIsLittleEndian :
    (two 0x800009FC#32).fault = false ∧ (two 0x800009FC#32).phase = .init ∧
      (two 0x800009FC#32).resolve = .ok ⟨1, 1, devS1⟩ ∧ devS1.pr = .default ∧ regAt (two 0x800009FC#32) 3#2 1 = 0#8 :=
  ⟨rfl, rfl, rfl, rfl, rfl⟩

/-- A lane that commits and a lane that is dropped, past the wrap. -/
theorem witness_GenericWriteCommitsItsLanes :
    (two 0x800009FC#32).fault = false ∧ (two 0x800009FC#32).phase = .init ∧
      (two 0x800009FC#32).resolve = .ok ⟨1, 1, devS1⟩ ∧ devS1.pw = .default ∧
      writeDropped ((two 0x800009FC#32).cell 1 1) (regAt (two 0x800009FC#32) 3#2 0) = false ∧
      writeDropped ((two 0x800009FC#32).cell 1 1) (regAt (two 0x800009FC#32) 3#2 1) = true :=
  ⟨rfl, rfl, rfl, rfl, rfl, rfl⟩

theorem witness_DataPortTouchesOnlyItsCell :
    isData (.dataWr32 3#2 5#32) = true ∧ (∃ u, exec (.dataWr32 3#2 5#32) (two 0x800009FC#32) = .next u) ∧
      (∀ t, (two 0x800009FC#32).phase = .init → (two 0x800009FC#32).resolve = .ok t → OutsideCell t.slot t.fn 2560) ∧
      OutsideCell 1 1 2303 :=
  ⟨rfl, ⟨_, rfl⟩, fun t _ h => by cases h; unfold OutsideCell; decide, by unfold OutsideCell; decide⟩

theorem witness_DataPortCompletesOnConfinedHooks :
    isData (.dataRd16 0#2) = true ∧ (one devK 0x80000050#32 []).fault = false ∧
      ∀ t, (one devK 0x80000050#32 []).resolve = .ok t → confined t.dev = true :=
  ⟨rfl, rfl, fun t h => by cases h; decide⟩

theorem witness_WideWriteIsItsByteWrites : (2#2 : BitVec 2) ≠ 3#2 := by decide

theorem witness_WideReadIsItsByteReads :
    (one devK 0x80000050#32 []).phase = .init ∧ (∃ u, exec (.dataRd32 0#2) (one devK 0x80000050#32 []) = .next u) ∧
      (2#2 : BitVec 2) ≠ 3#2 ∧ (∃ u, exec (.dataRd16 2#2) (one devK 0x80000050#32 []) = .next u) ∧
      ((∃ u, exec (.dataRd16 3#2) (one devK 0x800000FC#32 []) = .next u) ∧
        ∃ u, exec (.dataRd32 3#2) (one devK 0x800000FC#32 []) = .next u) :=
  ⟨rfl, ⟨_, rfl⟩, by decide, ⟨_, rfl⟩, ⟨_, rfl⟩, _, rfl⟩

/-- The lanes past 0xFF: 0xFF is written, 0x00 is dropped, and the latch is put back. -/
theorem test_byteWrites_wrap :
    storeOf (runInstrs (byteWrites 0x800000FC#32 .w2 3#2 0x1234#32) (one devB 0x800000FC#32 [])) = some [(0xFF, 0x34#8)] ∧
      (after (runInstrs (byteWrites 0x800000FC#32 .w2 3#2 0x1234#32) (one devB 0x800000FC#32 []))).latch = 0x800000FC#32 := by
  decide

/-- The two states differ in the cell (0,0). -/
theorem witness_CellsDoNotInterfere :
    isData (.dataRd8 0#2) = true ∧ (two 0x80000900#32).phase = .init ∧
      (two 0x80000900#32).resolve = .ok ⟨1, 1, devS1⟩ ∧
      AgreeOnCell 1 1 (two 0x80000900#32) { two 0x80000900#32 with store := [(5, 0x01#8)] } ∧
      ∃ u, exec (.dataRd8 0#2) (two 0x80000900#32) = .next u := by
  refine ⟨rfl, rfl, rfl, ⟨rfl, rfl, ?_⟩, _, rfl⟩
  funext r
  have h : ∀ a, a ≤ 8 → ¬storeAddr 1 1 r = a := by intro a ha; rw [storeAddr_eq_base_add]; simp [storeAddr]; omega
  simp [State.cell, Memory.cell, two, ex, one, read_cons, Ne.symm (h 4 (by omega)), Ne.symm (h 5 (by omega)),
    Ne.symm (h 8 (by omega))]

theorem witness_ReadOnlyRegistersDropWrites :
    (∀ r ∈ [0x03#8, 0x06#8, 0x0B#8, 0x0E#8], r ≤ 0x03#8 ∨ (0x06#8 ≤ r ∧ r ≤ 0x0B#8) ∨ r = 0x0E#8) ∧
      (ex 0x80000004#32).fault = false ∧ (ex 0x80000004#32).phase = .init ∧
      (∃ t, (ex 0x80000004#32).resolve = .ok t) ∧ laneBase (ex 0x80000004#32).latch 2#2 = 0x06#8 :=
  ⟨by decide, rfl, rfl, ⟨_, rfl⟩, rfl⟩

theorem witness_StandardHeaderDropsSubsystemWrites :
    (0x28#8 : Byte) ≤ 0x28#8 ∧ (0x28#8 : Byte) ≤ 0x2F#8 ∧ (0x2F#8 : Byte) ≤ 0x2F#8 ∧
      (one devA 0#32 [(0x0E, 0x80#8)]).readByte 0 0 0x0E#8 &&& 0x7F#8 = 0x00#8 ∧
      (one devH1 0#32 [(0x0E, 0x01#8)]).readByte 0 0 0x0E#8 &&& 0x7F#8 ≠ 0x00#8 ∧ devH1.pw = .default := by decide

theorem witness_WriteHookCommitsOrVetoes :
    ((one devM 0x80000010#32 []).fault = false ∧ (one devM 0x80000010#32 []).phase = .init ∧
      (one devM 0x80000010#32 []).resolve = .ok ⟨0, 0, devM⟩ ∧
      writeDropped ((one devM 0x80000010#32 []).cell 0 0) 0x10#8 = false ∧
      ∀ E c, runPw devM.pw E c 0x12#8 0xFF#8 = some (c, some 0#8)) ∧
    (writeDropped ((one devM 0x80000030#32 []).cell 0 0) 0x30#8 = false ∧
      ∀ E c, runPw devM.pw E c 0x30#8 0xFF#8 = some (c, none)) ∧
    ((one devBad 0x80000030#32 []).resolve = .ok ⟨0, 0, devBad⟩ ∧
      writeDropped ((one devBad 0x80000030#32 []).cell 0 0) 0x30#8 = false ∧
      ∀ E c, runPw devBad.pw E c 0x30#8 0xFF#8 = none) :=
  ⟨⟨rfl, rfl, rfl, rfl, fun _ _ => rfl⟩, ⟨rfl, fun _ _ => rfl⟩, rfl, rfl, fun _ _ => rfl⟩

theorem witness_IdentityRegistersReadTheRecord :
    (two 0x80000900#32).fault = false ∧ (two 0x80000900#32).phase = .init ∧
      (two 0x80000900#32).resolve = .ok ⟨1, 1, devS1⟩ ∧ latchGrp (two 0x80000900#32).latch = 0x00#8 := ⟨rfl, rfl, rfl, rfl⟩

/-- A primary with a secondary, and the secondary itself. -/
theorem witness_HeaderBitSevenIsSynthesized :
    (two 0x8000080C#32).fault = false ∧ (two 0x8000080C#32).phase = .init ∧
      (two 0x8000080C#32).resolve = .ok ⟨1, 0, devP⟩ ∧ laneBase (two 0x8000080C#32).latch 2#2 = 0x0E#8 ∧
      (two 0x8000080C#32).subCount 1 ≠ 0 ∧ (two 0x8000090C#32).resolve = .ok ⟨1, 1, devS1⟩ :=
  ⟨rfl, rfl, rfl, rfl, by decide, rfl⟩

theorem witness_ReadHooksRemapBlendOrDecline :
    (one devK 0x80000040#32 []).fault = false ∧ (one devK 0x80000040#32 []).phase = .init ∧
      ((one devK 0x80000040#32 []).resolve = .ok ⟨0, 0, devK⟩ ∧ (one devK 0x80000050#32 []).resolve = .ok ⟨0, 0, devK⟩ ∧
        (one devK 0x80000060#32 []).resolve = .ok ⟨0, 0, devK⟩) ∧
      (laneBase 0x80000040#32 0#2 = 0x40#8 ∧ ¬(0x40#8 : Byte) ≤ 0x03#8 ∧ (0x40#8 : Byte) ≠ 0x0E#8) ∧
      (∀ E c, runPr devK.pr E c 0x40#8 = some (c, some 0x44#8)) ∧
      (∀ E E' c, runPr devK.pr E c 0x50#8 = some (c, none) ∧
        runOvr devK.ovr E' c 0x50#8 = some (c, some (0x0A#8, 0x0F#8))) ∧
      (∀ E E' c, runPr devK.pr E c 0x60#8 = some (c, none) ∧ runOvr devK.ovr E' c 0x60#8 = some (c, none)) ∧
      ((one devBad 0x80000040#32 []).resolve = .ok ⟨0, 0, devBad⟩ ∧ ∀ E c, runPr devBad.pr E c 0x40#8 = none) ∧
      ((one devBadOvr 0x80000040#32 []).resolve = .ok ⟨0, 0, devBadOvr⟩ ∧
        ∀ E E' c, runPr devBadOvr.pr E c 0x40#8 = some (c, none) ∧ runOvr devBadOvr.ovr E' c 0x40#8 = none) ∧
      ((one devDecl 0x80000040#32 []).resolve = .ok ⟨0, 0, devDecl⟩ ∧ devDecl.ovr = .default ∧
        ∀ E c, runPr devDecl.pr E c 0x40#8 = some (c, none)) :=
  ⟨rfl, rfl, ⟨rfl, rfl, rfl⟩, by decide, fun _ _ => rfl, fun _ _ _ => ⟨rfl, rfl⟩, fun _ _ _ => ⟨rfl, rfl⟩,
    ⟨rfl, fun _ _ => rfl⟩, ⟨rfl, fun _ _ _ => ⟨rfl, rfl⟩⟩, rfl, rfl, fun _ _ => rfl⟩

theorem witness_GenericReadAfterWrite :
    (ex 0x800000FC#32).fault = false ∧ (ex 0x800000FC#32).phase = .init ∧
      (ex 0x800000FC#32).resolve = .ok ⟨0, 0, devA⟩ ∧ generic devA = true ∧
      writeDropped ((ex 0x800000FC#32).cell 0 0) (laneBase (ex 0x800000FC#32).latch 3#2) = false :=
  ⟨rfl, rfl, rfl, rfl, rfl⟩

theorem witness_ConstructCreatesTheController :
    (State.reset.fault = false ∧ State.reset.phase = .absent ∧ State.reset.queue = []) ∧
      uninit.fault = false ∧ uninit.phase ≠ .absent := by decide

theorem witness_ConstructDrainsTheQueue :
    queued.fault = false ∧ queued.phase = .absent ∧ ∀ d ∈ queued.queue, d.init ≠ .unconfined := by decide

/-- Part 6: A, F, B queued; F is the record whose `init` fails. -/
theorem witness_QueueIsReplayedInOrder :
    queuedAFB.fault = false ∧ queuedAFB.phase = .absent ∧ (∀ n : Fin 32, queuedAFB.slotAt n = none) ∧
      queuedAFB.installed = 0 ∧ queuedAFB.queue.length ≤ Config.queueCap ∧ (queuedAFB.queue.map Device.ref).Nodup ∧
      (∀ d ∈ queuedAFB.queue, queuedAFB.identOf d = none) ∧
      (∀ (j : Nat) (d : Device), queuedAFB.queue[j]? = some d → ∃ res,
        runInit d.init (Config.envDraw (queuedAFB.draws + j)) (fun _ => 0#8) = some res ∧
          (d.init != .fail) = res.isSome) ∧
      queuedAFB.queue.filter (fun d => d.init != .fail) = [devA, devB] := by
  refine ⟨rfl, rfl, by decide, rfl, by decide, by decide, by decide, fun j d hd => ?_, by decide⟩
  have hd := List.mem_of_getElem? hd
  simp only [queuedAFB, List.mem_cons, List.not_mem_nil, or_false] at hd
  rcases hd with rfl | rfl | rfl <;> exact ⟨_, rfl, rfl⟩

/-- Part 6: F, then A; a Fatal; and a record whose `init` breaks R32. -/
theorem witness_DrainGoesOnPastARejection :
    (State.reset.fault = false ∧ State.reset.phase = .absent ∧ replay [] (drainStart State.reset) = .ok uninit ∧
      uninit.fault = false) ∧
    (∃ t v, registerCore uninit devF none = .ok (t, .rejected .initFailed) ∧ t.fault = false ∧
      replay [devA] t = .ok v ∧ v.slotAt 0 = some devA) ∧
    (∃ t, registerCore uninit devF none = .ok (t, .rejected .initFailed) ∧ replay [devBad] t = .error .hookUnconfined) ∧
    (∃ u t o, replay [devA] uninit = .ok u ∧ u.fault = false ∧ registerCore u devA none = .ok (t, o) ∧ t.fault = true) ∧
    registerCore uninit devBad none = .error .hookUnconfined :=
  ⟨⟨rfl, rfl, rfl, rfl⟩, ⟨_, _, rfl, rfl, rfl, rfl⟩, ⟨_, rfl, rfl⟩, ⟨_, _, _, rfl, rfl, rfl, rfl⟩, rfl⟩

theorem witness_RegisterWhileAbsentQueues :
    queued.fault = false ∧ queued.phase = .absent ∧ queued.queue.length < 16 ∧
      ({ queued with queue := List.replicate 15 devA } : State).queue.length < 16 ∧
      16 ≤ ({ queued with queue := List.replicate 16 devA } : State).queue.length := by decide

theorem witness_ReRegistrationIsFatal :
    (ex 0#32).fault = false ∧ (ex 0#32).phase ≠ .absent ∧ (ex 0#32).identOf devA ≠ none := by decide

theorem witness_ExplicitSlotMustBeBelow32 :
    32 ≤ (0x20#8 : Byte).toNat ∧ uninit.fault = false ∧ uninit.phase ≠ .absent ∧ uninit.identOf devB = none ∧
      (31 : Fin 32).val = (0x1F#8 : Byte).toNat := by decide

theorem witness_RegistrationChecksRejectInOrder :
    (full.fault = false ∧ full.phase ≠ .absent ∧ full.identOf devB = none) ∧
      32 ≤ ({ full with installed := 32 } : State).installed ∧
      (AsksFor full (some 0#8) 0 ∧ full.slotAt 0 ≠ none ∧ full.subCount 0 = 7) ∧
      (AsksFor { full with nsub := full.nsub.set 0 0 } (some 0#8) 0 ∧
        ({ full with nsub := full.nsub.set 0 0 } : State).subCount 0 = (0 : Fin 7).castSucc ∧ full.subAt 0 0 ≠ none) ∧
      AsksFor { uninit with installed := 31 } none 31 := by
  simp only [AsksFor]
  refine ⟨by decide, by decide, ⟨⟨fun m h => by cases h; rfl, nofun⟩, by decide⟩,
    ⟨⟨fun m h => by cases h; rfl, nofun⟩, by decide⟩, nofun, fun _ => rfl⟩

theorem witness_RegistrationCommits :
    (uninit.fault = false ∧ uninit.phase ≠ .absent ∧ uninit.identOf devA = none ∧ AsksFor uninit (some 31#8) 31 ∧
      uninit.slotAt 31 = none ∧ ∃ c, runInit devA.init (Config.envDraw uninit.draws) (startCell uninit 31 0) = some (some c)) ∧
    ((ex 0#32).identOf devS1 = none ∧ AsksFor (ex 0#32) (some 0#8) 0 ∧ (ex 0#32).slotAt 0 ≠ none ∧
      (ex 0#32).subCount 0 = (0 : Fin 7).castSucc ∧ (ex 0#32).subAt 0 0 = none ∧
      ∃ c, runInit devS1.init (Config.envDraw (ex 0#32).draws) (startCell (ex 0#32) 0 1) = some (some c)) := by
  simp only [AsksFor]
  exact ⟨⟨rfl, by decide, rfl, ⟨fun m h => by cases h; rfl, nofun⟩, rfl, _, rfl⟩,
    rfl, ⟨fun m h => by cases h; rfl, nofun⟩, by decide, rfl, rfl, _, rfl⟩

theorem witness_FailedInitChangesNothing :
    (uninit.fault = false ∧ uninit.phase ≠ .absent ∧ uninit.identOf devF = none ∧ AsksFor uninit none 0 ∧
      uninit.slotAt 0 = none ∧ runInit devF.init (Config.envDraw uninit.draws) (startCell uninit 0 0) = some none) ∧
    (uninit.identOf devBad = none ∧ runInit devBad.init (Config.envDraw uninit.draws) (startCell uninit 0 0) = none) ∧
    (AsksFor (ex 0#32) (some 0#8) 0 ∧ (ex 0#32).slotAt 0 ≠ none ∧ (ex 0#32).subCount 0 = (0 : Fin 7).castSucc ∧
      (ex 0#32).subAt 0 0 = none) := by
  simp only [AsksFor]
  exact ⟨⟨rfl, by decide, rfl, ⟨nofun, fun _ => rfl⟩, rfl, rfl⟩, ⟨rfl, rfl⟩, ⟨fun m h => by cases h; rfl, nofun⟩,
    by decide, rfl, rfl⟩

theorem witness_RejectedRegistrationChangesNothing :
    resultOf (exec (.register devB (some 32#8)) uninit) = some (.outcome (.rejected .badSlot)) ∧
      resultOf (exec (.register devB none) { State.reset with queue := List.replicate 16 devA })
        = some (.outcome .queueOverflow) ∧
      resultOf (exec (.register devA none) (ex 0#32)) = some (.outcome (.fatal .alreadyRegistered)) := by decide

theorem witness_ShutdownResets :
    ((ex 7#32).fault = false ∧ (ex 7#32).phase ≠ .absent) ∧ State.reset.fault = false ∧ State.reset.phase = .absent := by
  decide

theorem witness_ShutdownIsIdempotent : ∃ t, exec .shutdown (ex 7#32) = .next t := ⟨_, rfl⟩

theorem witness_DestroyIsShutdownThenAbsent :
    (uninit.fault = false ∧ uninit.phase ≠ .absent) ∧ State.reset.fault = false ∧ State.reset.phase = .absent := by decide

theorem witness_LegacyCallbackIsHandled :
    ((ex 0#32).fault = false ∧ (ex 0#32).phase = .init) ∧ uninit.fault = false ∧ uninit.phase ≠ .init := by decide

theorem witness_FaultIsSticky :
    ({ ex 0#32 with fault := true } : State).fault = true ∧
      (∃ t, exec (.register devA none) (ex 0#32) = .next t ∧ t.result = .outcome (.fatal .alreadyRegistered)) ∧
      ∃ t o, registerCore (ex 0#32) devA none = .ok (t, o) ∧ t.fault = true :=
  ⟨rfl, ⟨_, rfl, rfl⟩, _, _, rfl, rfl⟩

theorem witness_FaultIsSetOnlyByRegistration :
    (∃ t, exec (.register devA none) (ex 0#32) = .next t ∧ t.fault = true) ∧
      ∃ t, exec .construct { State.reset with queue := [devA, devA] } = .next t ∧ t.fault = true :=
  ⟨⟨_, rfl, rfl⟩, _, rfl, rfl⟩

theorem witness_PhaseChangesOnlyByLifecycle :
    (∃ t, exec (.dataWr8 0#2 1#32) (ex 0x80000010#32) = .next t) ∧ isIo (.dataWr8 0#2 1#32) = true ∧
      ∃ t, exec .legacyCb (ex 0#32) = .next t := ⟨⟨_, rfl⟩, rfl, _, rfl⟩

theorem witness_LatchIsWrittenOnlyByItsWriters :
    (∃ t, exec (.dataWr8 0#2 1#32) (ex 0x80000010#32) = .next t) ∧ (∀ v, Instr.dataWr8 0#2 1#32 ≠ .addrWr v) ∧
      Instr.dataWr8 0#2 1#32 ≠ .construct ∧ isTeardown (.dataWr8 0#2 1#32) = false :=
  ⟨⟨_, rfl⟩, nofun, nofun, rfl⟩

theorem witness_OccupiedEntriesStay :
    (∃ t, exec (.register devB (some 1#8)) (two 0#32) = .next t) ∧ isTeardown (.register devB (some 1#8)) = false ∧
      (two 0#32).slotAt 1 = some devP ∧ (two 0#32).subAt 1 0 = some devS1 := ⟨⟨_, rfl⟩, rfl, rfl, rfl⟩

theorem witness_InstalledOnlyGrows :
    (∃ t, exec (.register devB none) (two 0#32) = .next t) ∧ isTeardown (.register devB none) = false ∧
      Instr.register devB none ≠ .construct := ⟨⟨_, rfl⟩, rfl, nofun⟩

theorem witness_IdentityIsAssignedOnce :
    (∃ t, step ((ex 0#32).present (encode .destroy)) = .next t) ∧
      ((ex 0#32).present (encode .destroy)).identOf devA = some ⟨0, 0⟩ := ⟨⟨_, rfl⟩, rfl⟩

/-- The invariant holds of a controller without devices. -/
theorem inv_uninit : Inv uninit where
  storeWf := rfl
  subFilled := by decide +kernel
  emptySlot := by decide +kernel
  installedCount := by decide +kernel
  initIffInstalled := by decide
  latchIdle _ := rfl
  queueBound := by decide
  queueAbsent _ := rfl
  unroutedZero _ _ _ _ := rfl
  routedIdent n f d h := by
    have hn : ∀ (n : Fin 32) (f : Fin 8), uninit.devAt n f = none := by decide +kernel
    rw [hn] at h; cases h

/-- The invariant holds of EX, whatever its latch is. -/
theorem inv_ex (l : Word) : Inv (ex l) := by
  have hd : ∀ (n : Fin 32) (f : Fin 8), (ex l).devAt n f = if n = 0 ∧ f = 0 then some devA else none := by
    change ∀ (n : Fin 32) (f : Fin 8), (ex 0#32).devAt n f = if n = 0 ∧ f = 0 then some devA else none
    decide +kernel
  refine ⟨⟨rfl, ?_, ?_, rfl, by simp [ex, one], by simp [ex, one], by simp [ex, one, Config.queueCap, State.reset,
    Controller.powerOn], ?_, ?_⟩, by simp [ex, one, State.reset, Controller.powerOn]⟩
  · change ∀ (n : Fin 32) (i : Fin 7), ((ex 0#32).subAt n i).isSome = true ↔ i.val < ((ex 0#32).subCount n).val
    decide +kernel
  · change ∀ n : Fin 32, (ex 0#32).slotAt n = none → (ex 0#32).subCount n = 0
    decide +kernel
  · intro n f h r
    have hnf : ¬(n = 0 ∧ f = 0) := fun hc => by rw [hd, if_pos hc] at h; cases h
    have ha : ∀ a, a ≤ 8 → ¬a = storeAddr n f r := by
      intro a ha e
      have := r.isLt
      refine hnf ⟨Fin.ext ?_, Fin.ext ?_⟩ <;> simp [storeAddr] at e ⊢ <;> omega
    simp [State.readByte, ex, one, read_cons, ha 4 (by omega), ha 8 (by omega)]
  · intro n f d h
    rw [hd] at h
    split at h
    · next hc => obtain ⟨rfl, rfl⟩ := hc; cases h; rfl
    · cases h

theorem witness_LatchIsZeroWhenInitIsEntered :
    Inv uninit ∧ uninit.phase ≠ .init ∧ ∃ t, exec (.register devA none) uninit = .next t ∧ t.phase = .init :=
  ⟨inv_uninit, by decide, _, rfl, rfl⟩

/-- The invariant holds at power-on, whatever is queued, up to the queue's bound. -/
theorem inv_reset (q : List Device) (hq : q.length ≤ Config.queueCap) : Inv { State.reset with queue := q } where
  toInvDrain := { inv_uninit.toInvDrain with
    initIffInstalled := ⟨nofun, nofun⟩, latchIdle := fun _ => rfl, queueBound := hq }
  queueAbsent h := absurd rfl h

theorem witness_InitHookSeesAZeroCell :
    (InvDrain uninit ∧ uninit.phase ≠ .absent ∧ placement uninit 31 = .ok none) ∧
      (InvDrain (ex 0#32) ∧ (ex 0#32).phase ≠ .absent ∧ placement (ex 0#32) 0 = .ok (some 0)) ∧
      (InvDrain { ex 0#32 with queue := [devA, devB] } ∧ placement { ex 0#32 with queue := [devA, devB] } 1 = .ok none) ∧
      Inv queuedAFB ∧ queuedAFB.phase = .absent ∧ queuedAFB.queue = [devA, devF] ++ [devB] ∧
        ∃ u, replay [devA, devF] (drainStart queuedAFB) = .ok u ∧ placement u 1 = .ok none :=
  ⟨⟨inv_uninit.toInvDrain, by decide, rfl⟩, ⟨(inv_ex 0#32).toInvDrain, by decide, rfl⟩,
    ⟨{ (inv_ex 0#32).toInvDrain with queueBound := by decide }, rfl⟩, inv_reset _ (by decide), rfl, rfl, _, rfl, rfl⟩

theorem witness_InvariantIsKeptByEveryStep :
    Inv ((ex 0x80000010#32).present (encode (.dataWr32 0#2 0x11223344#32))) ∧
      ∃ t, step ((ex 0x80000010#32).present (encode (.dataWr32 0#2 0x11223344#32))) = .next t :=
  ⟨{ inv_ex 0x80000010#32 with }, _, rfl⟩

end Sys2Proof.Tests
end

section
/-!
PROOFS. The fields of the latch word (30_encoding.md R71, R72): the enable condition by its bits, and DEV, FN and the register
group as numbers.
-/

namespace Sys2Proof.Machine

/-! ## The enable condition (R71) -/

/-- R71's mask covers EN (bit 31) and BUS (bits 23:16), and nothing else. -/
theorem enableMask_getLsbD : ∀ i < 32,
    (0x80FF0000#32).getLsbD i = (decide (i = 31) || decide (16 ≤ i ∧ i < 24)) := by decide

/-- R71's value has EN set and BUS = 0. -/
theorem enableValue_getLsbD : ∀ i < 32, (0x80000000#32).getLsbD i = decide (i = 31) := by decide

/-- R71's masked comparison, one bit at a time: only the bits under the mask count. -/
theorem latchEnabled_iff_bits (l : Word) :
    latchEnabled l = true ↔ l.getLsbD 31 = true ∧ ∀ i, 16 ≤ i → i < 24 → l.getLsbD i = false := by
  rw [latchEnabled, beq_iff_eq, BitVec.eq_of_getLsbD_eq_iff]
  simp only [BitVec.getLsbD_and]
  constructor
  · intro h
    refine ⟨by simpa using h 31 (by decide), fun i hlo hhi => ?_⟩
    have hi : i < 32 := by omega
    have hne : i ≠ 31 := by omega
    simpa [enableMask_getLsbD i hi, enableValue_getLsbD i hi, hlo, hhi, hne] using h i hi
  · rintro ⟨hen, hbus⟩ i hi
    rw [enableMask_getLsbD i hi, enableValue_getLsbD i hi]
    by_cases h31 : i = 31
    · simp [h31, hen]
    · by_cases hb : 16 ≤ i ∧ i < 24
      · simp [h31, hbus i hb.1 hb.2]
      · simp [h31, hb]

/-- The BUS field is zero exactly when each of the bits 23:16 is. -/
theorem busField_eq_zero_iff (l : Word) :
    l.extractLsb' 16 8 = 0#8 ↔ ∀ i, 16 ≤ i → i < 24 → l.getLsbD i = false := by
  simp only [BitVec.eq_of_getElem_eq_iff, BitVec.getElem_extractLsb', BitVec.getElem_zero]
  constructor
  · intro h i hlo hhi
    simpa [Nat.add_sub_cancel' hlo] using h (i - 16) (by omega)
  · exact fun h i hi => h (16 + i) (by omega) (by omega)

theorem latchEnabled_iff (l : Word) :
    latchEnabled l = true ↔ l.getLsbD 31 = true ∧ l.extractLsb' 16 8 = 0#8 := by
  rw [latchEnabled_iff_bits, busField_eq_zero_iff]

/-! ## The fields as numbers (R72) -/

theorem latchDev_val (l : Word) : (latchDev l).val = l.toNat / 2 ^ 11 % 32 := by
  simp [latchDev, Nat.shiftRight_eq_div_pow]

theorem latchFn_val (l : Word) : (latchFn l).val = l.toNat / 2 ^ 8 % 8 := by
  simp [latchFn, Nat.shiftRight_eq_div_pow]

/-- The two zero bits below the group are a multiplication by 4. -/
theorem latchGrp_toNat (l : Word) : (latchGrp l).toNat = l.toNat / 4 % 64 * 4 := by
  rw [latchGrp, BitVec.toNat_append]
  simp [Nat.shiftRight_eq_div_pow, Nat.shiftLeft_eq]

/-! ## The obligation -/

/-- Settles O8: the enable condition by the bits under R71's mask, and each field of R72 as a number. -/
theorem latchFieldsAreTheSpecsBits : Obligations.LatchFieldsAreTheSpecsBits :=
  fun l => ⟨latchEnabled_iff l, latchDev_val l, latchFn_val l, latchGrp_toNat l⟩

end Sys2Proof.Machine
end

section
/-!
PROOFS. The address-latch port (40_address_port.md R100, R101): ADDR_WR and ADDR_RD on a bound port, and the latch that
SHUTDOWN and the initialisation after it leave.
-/

namespace Sys2Proof.Machine

/-! ## The two transactions on a bound port -/

/-- R100: the exact next state of ADDR_WR. -/
theorem exec_addrWr_bound {s : State} (v : Word) (hf : s.fault = false) (hp : s.phase = .init) :
    exec (.addrWr v) s = .next { s with latch := v, result := .nothing, trace := [] } := by
  rw [exec_addrWr, ioWrite_bound hf hp]; rfl

/-- R101: the exact next state of ADDR_RD. -/
theorem exec_addrRd_bound {s : State} (hf : s.fault = false) (hp : s.phase = .init) :
    exec .addrRd s = .next { s with result := .rdata32 s.latch, trace := [] } := by
  rw [exec_addrRd, ioRead_bound hf hp]; rfl

/-- R101: a value that was just written is read back. -/
theorem addrRd_after_addrWr {s t : State} {v : Word} (hp : s.phase = .init) (h : exec (.addrWr v) s = .next t) :
    exec .addrRd t = .next { t with result := .rdata32 v, trace := [] } := by
  have hf : s.fault = false := (exec_effect h).1
  rw [exec_addrWr_bound v hf hp] at h
  cases h
  exact exec_addrRd_bound hf hp

/-! ## The initialisation that follows a SHUTDOWN -/

/-- R182: a SHUTDOWN that completes leaves FAULT = 0, PHASE = Uninit and LATCH = 0. -/
theorem exec_shutdown_next {s t : State} (h : exec .shutdown s = .next t) :
    t.fault = false ∧ t.phase = .uninit ∧ t.latch = 0#32 := by
  obtain ⟨hf, he⟩ := exec_effect h
  cases he with
  | idle _ hi => simp [isIo] at hi
  | cell _ _ hi => simp [isIo] at hi
  | shutdown _ ht => subst ht; exact ⟨hf, rfl, rfl⟩

/-- R178, R181: only a commit enters Init, so a registration that does so raises no Fatal. -/
theorem registerCore_fault_of_enters_init {σ τ : State} {d : Device} {req : Option Byte} {o : HostOutcome}
    (h : registerCore σ d req = .ok (τ, o)) (hσ : σ.phase = .uninit) (hτ : τ.phase = .init) : τ.fault = σ.fault := by
  rcases registerCore_cases h with ⟨_, _, rfl⟩ | ⟨_, _, rfl | rfl⟩ | ⟨s, p, c, _, _, _, _, _, rfl⟩
  · simp [hσ] at hτ
  · rfl
  · rfl
  · simp

/-- R178: the REGISTER that initialises the controller leaves the latch alone and FAULT = 0. -/
theorem exec_register_enters_init {s t : State} {d : Device} {req : Option Byte}
    (h : exec (.register d req) s = .next t) (hs : s.phase = .uninit) (ht : t.phase = .init) :
    t.fault = false ∧ t.latch = s.latch := by
  obtain ⟨hf, he⟩ := exec_effect h
  cases he with
  | idle _ hi => simp [isIo] at hi
  | cell _ _ hi => simp [isIo] at hi
  | register _ _ υ o _ hr hυ =>
    subst hυ
    exact ⟨(registerCore_fault_of_enters_init hr hs ht).trans hf, (registerCore_frame hr).1⟩
  | queued _ _ hp => simp [hs] at hp
  | overflow _ _ hp => simp [hs] at hp

/-- R101, R182: the latch reads 0 once a SHUTDOWN and the REGISTER after it have initialised the controller again. -/
theorem addrRd_after_reinitialisation {s t u : State} {d : Device} {req : Option Byte}
    (ht : exec .shutdown s = .next t) (hu : exec (.register d req) t = .next u) (hp : u.phase = .init) :
    exec .addrRd u = .next { u with result := .rdata32 0#32, trace := [] } := by
  obtain ⟨-, hphase, hlatch⟩ := exec_shutdown_next ht
  obtain ⟨hf, hkeep⟩ := exec_register_enters_init hu hphase hp
  rw [exec_addrRd_bound hf hp, hkeep, hlatch]

/-! ## The obligations -/

/-- Settles O12: the descriptor is the table's word, and the bound write is `exec_addrWr_bound`. -/
theorem addrWrStoresTheLatch : Obligations.AddrWrStoresTheLatch :=
  fun v _ => ⟨rfl, exec_addrWr_bound v⟩

/-- Settles O13: the bound read, the read after a write, and the read after a SHUTDOWN and the REGISTER that follows it. -/
theorem addrRdReturnsTheLatch : Obligations.AddrRdReturnsTheLatch :=
  fun _ => ⟨rfl, exec_addrRd_bound, fun _ _ => addrRd_after_addrWr, fun _ _ _ _ => addrRd_after_reinitialisation⟩

end Sys2Proof.Machine
end

section
/-!
PROOFS. The data ports without a target (41_data_port.md R111 to R113, R117): which latches have none, and that every access
is then absorbed.
-/

namespace Sys2Proof.Machine

/-! ## Resolution where a check fails (R110) -/

/-- R111: the first check. -/
theorem resolve_disabled {c : Controller} (he : latchEnabled c.latch = false) : c.resolve = .error .noOpDisabled := by
  simp [Controller.resolve, he]

/-- R112: the second check. -/
theorem resolve_noDevice {c : Controller} (he : latchEnabled c.latch = true) (hd : c.installed ≤ (latchDev c.latch).val) :
    c.resolve = .error .noOpNoDevice := by
  simp [Controller.resolve, he, hd]

/-- R113: the third check. -/
theorem resolve_emptySlot {c : Controller} (he : latchEnabled c.latch = true) (hd : (latchDev c.latch).val < c.installed)
    (hs : c.slotAt (latchDev c.latch) = none) : c.resolve = .error .noOpEmptySlot := by
  simp [Controller.resolve, he, Nat.not_le.mpr hd, hs]

/-! ## Absorption (R117) -/

/-- R117: a read of width `w` without a target returns `ones(8w)`. -/
theorem ioRead_dataRead_noTarget {s : State} {c : Cause} (w : Width) (k : BitVec 2) (hf : s.fault = false)
    (hp : s.phase = .init) (hr : s.resolve = .error c) :
    ioRead w (dataRead w k) s = .next { s with result := Result.ofWord w allOnes, trace := [c] } := by
  rw [ioRead_bound hf hp, dataRead_noTarget (σ := s.start) hr]; rfl

/-- R117: a write without a target is dropped. -/
theorem ioWrite_dataWrite_noTarget {s : State} {c : Cause} (w : Width) (k : BitVec 2) (v : Word) (hf : s.fault = false)
    (hp : s.phase = .init) (hr : s.resolve = .error c) :
    ioWrite (dataWrite w k v) s = .next { s with result := .nothing, trace := [c] } := by
  rw [ioWrite_bound hf hp, dataWrite_noTarget (σ := s.start) hr]; rfl

/-- Settles O16: each of the six transactions is a read or a write of its width without a target. -/
theorem noTargetIsAbsorbed : Obligations.NoTargetIsAbsorbed :=
  fun _ _ hf hp hr k v =>
    ⟨ioRead_dataRead_noTarget .w1 k hf hp hr, ioRead_dataRead_noTarget .w2 k hf hp hr,
      ioRead_dataRead_noTarget .w4 k hf hp hr, ioWrite_dataWrite_noTarget .w1 k v hf hp hr,
      ioWrite_dataWrite_noTarget .w2 k v hf hp hr, ioWrite_dataWrite_noTarget .w4 k v hf hp hr⟩

/-! ## The enable check (R111) -/

/-- R111: the check fails exactly on EN = 0 or another bus. -/
theorem latchEnabled_eq_false_iff (l : Word) :
    latchEnabled l = false ↔ l.getLsbD 31 = false ∨ l.extractLsb' 16 8 ≠ 0#8 := by
  rw [← Bool.not_eq_true, latchEnabled_iff, not_and_or, Bool.not_eq_true]

/-- BUS is the upper part of the bits 23:2. -/
theorem busField_eq_extract_addrBits (l : Word) : l.extractLsb' 16 8 = (l.extractLsb' 2 22).extractLsb' 14 8 := by
  ext i hi
  simp only [BitVec.getElem_extractLsb', BitVec.getLsbD_extractLsb']
  simp [show 14 + i < 22 by omega, ← Nat.add_assoc]

/-- R111: only EN and the bits 23:2 reach the check. -/
theorem latchEnabled_congr {l l' : Word} (hbits : l.extractLsb' 2 22 = l'.extractLsb' 2 22)
    (hen : l.getLsbD 31 = l'.getLsbD 31) : latchEnabled l = latchEnabled l' := by
  rw [Bool.eq_iff_iff, latchEnabled_iff, latchEnabled_iff, busField_eq_extract_addrBits l,
    busField_eq_extract_addrBits l', hbits, hen]

/-- Settles O17: the check fails by `latchEnabled_eq_false_iff`, and resolution with it. -/
theorem disabledOrOtherBusIsAbsorbed : Obligations.DisabledOrOtherBusIsAbsorbed :=
  ⟨fun s hf hp h => noTargetIsAbsorbed s _ hf hp (resolve_disabled ((latchEnabled_eq_false_iff _).mpr h)),
    fun _ _ => latchEnabled_congr⟩

/-! ## The device number and the slot (R112, R113) -/

/-- Settles O18: with INSTALLED = 0 every device number is at or above it. -/
theorem outOfBoundsIsAbsorbed : Obligations.OutOfBoundsIsAbsorbed := by
  intro s hf hp he
  have hnoDevice (hd : s.installed ≤ (latchDev s.latch).val) : Claims.Absorbed s .noOpNoDevice :=
    noTargetIsAbsorbed s _ hf hp (resolve_noDevice he hd)
  exact ⟨hnoDevice, fun h0 => hnoDevice (h0.trans_le (Nat.zero_le _)),
    fun hd hs => noTargetIsAbsorbed s _ hf hp (resolve_emptySlot he hd hs)⟩

end Sys2Proof.Machine
end

section
/-!
PROOFS. The registers the policy decides without a hook (42_register_policy.md R140, R145): dropped writes to the globally
read-only registers, and the header-type byte with its synthesized bit 7; and the 1-byte data-port access as its one lane.
-/

namespace Sys2Proof.Machine

/-! ## A 1-byte access is its one lane (R115, R116) -/

/-- R74: the first lane is at the base register. -/
@[simp] theorem laneReg_zero (base : Byte) : laneReg base 0 = base := BitVec.add_zero base

/-- R75: a word assembled from one lane gives that lane back. -/
theorem ofWord_assemble_singleton (b : Byte) : Result.ofWord .w1 (assemble [b]) = .rdata8 b := by
  simp [Result.ofWord, assemble]

/-- R121: a DATA_WR8 with a target ends where its write lane ends. -/
theorem exec_dataWr8_of_lane {s τ : State} {t : Target} {k : BitVec 2} {v : Word} (hf : s.fault = false)
    (hp : s.phase = .init) (ht : s.resolve = .ok t)
    (hl : regWrByte s.start t (laneBase s.latch k) (laneByte v 0) = .ok τ) : exec (.dataWr8 k v) s = .next τ := by
  have hw : dataWrite .w1 k v s.start = .ok τ := by
    simp [dataWrite, ht, Width.bytes, List.range_succ, writeLanes, hl]
  rw [exec_dataWr8, ioWrite_bound hf hp, hw]

/-- R118: a DATA_RD8 with a target ends where its read lane ends, and answers the lane's byte. -/
theorem exec_dataRd8_of_lane {s τ : State} {t : Target} {k : BitVec 2} {b : Byte} (hf : s.fault = false)
    (hp : s.phase = .init) (ht : s.resolve = .ok t)
    (hl : regRdByte s.start t (laneBase s.latch k) = .ok (τ, b)) :
    exec (.dataRd8 k) s = .next (τ.answer (.rdata8 b)) := by
  have hr : dataRead .w1 k s.start = .ok (τ, assemble [b]) := by
    simp [dataRead, ht, Width.bytes, List.range_succ, readLanes, hl]
  rw [exec_dataRd8, ioRead_bound hf hp, hr, ← ofWord_assemble_singleton]

/-! ## The globally read-only registers (R140) -/

theorem readOnlyReg_iff (r : Byte) :
    readOnlyReg r = true ↔ r ≤ 0x03#8 ∨ (0x06#8 ≤ r ∧ r ≤ 0x0B#8) ∨ r = 0x0E#8 := by
  simp [readOnlyReg, or_assoc]

/-- R140: the drop comes before the header is looked at and before any hook. -/
theorem regWrByte_readOnly {r : Byte} (hr : readOnlyReg r = true) (s : State) (t : Target) (b : Byte) :
    regWrByte s t r b = .ok (s.note .dropReadOnly) := by
  simp [regWrByte, hr]

/-- Settles O27: the write lane is dropped by `regWrByte_readOnly`, and a 1-byte write is that lane. -/
theorem readOnlyRegistersDropWrites : Obligations.ReadOnlyRegistersDropWrites := by
  intro r hr
  have hdrop := regWrByte_readOnly ((readOnlyReg_iff r).mpr hr)
  refine ⟨hdrop, fun s t k v hf hp ht hbase => ?_⟩
  exact exec_dataWr8_of_lane hf hp ht (hbase ▸ hdrop s.start t (laneByte v 0))

/-! ## The header-type register (R145) -/

/-- R145: the read lane of 0x0E is the header byte; it calls no hook. -/
theorem regRdByte_header (s : State) (t : Target) : regRdByte s t 0x0E#8 = .ok (s, headerByte s t) := by
  have hid : ¬(0x0E#8 : Byte) ≤ 0x03#8 := by decide
  simp [regRdByte, hid]

/-- R34: the routed device has a subdevice exactly when it is a primary whose slot has one. -/
theorem nsubAt_pos_iff (c : Controller) (n : Fin 32) (f : Fin 8) : 0 < c.nsubAt n f ↔ f = 0 ∧ c.subCount n ≠ 0 := by
  simp only [Controller.nsubAt, Fin.ext_iff, Fin.val_zero, ne_eq]
  split <;> omega

/-- R145: the mask keeps the low 7 stored bits, and the indicator has none of them. -/
theorem headerByte_low (s : State) (t : Target) :
    (headerByte s t).extractLsb' 0 7 = (s.readByte t.slot t.fn 0x0E#8).extractLsb' 0 7 := by
  have hmask : ∀ i < 7, (0x7F#8).getLsbD i = true ∧ (0x80#8).getLsbD i = false := by decide
  ext i hi
  obtain ⟨hkeep, hnone⟩ := hmask i hi
  unfold headerByte
  split <;> simp [hkeep, hnone]

/-- R145: bit 7 of the stored byte is masked away, so it is the indicator alone. -/
theorem headerByte_bit7 (s : State) (t : Target) :
    (headerByte s t).getLsbD 7 = true ↔ t.fn = 0 ∧ s.subCount t.slot ≠ 0 := by
  rw [← nsubAt_pos_iff]
  by_cases h : 0 < s.nsubAt t.slot t.fn <;> simp [headerByte, h]

/-- Settles O31: the byte is `headerByte`, by its low bits and its bit 7, and a 1-byte read is the lane that returns it. -/
theorem headerBitSevenIsSynthesized : Obligations.HeaderBitSevenIsSynthesized := by
  intro s t
  refine ⟨headerByte s t, regRdByte_header s t, headerByte_low s t, headerByte_bit7 s t, fun k hf hp ht hbase => ?_⟩
  exact exec_dataRd8_of_lane hf hp ht (hbase ▸ regRdByte_header s.start t)

end Sys2Proof.Machine
end

section
/-!
PROOFS. The explicit slot of a registration (43_lifecycle.md R175): BadSlot from 32 on, and the rejection that REGISTER
answers.
-/

namespace Sys2Proof.Machine

/-- R175: an explicit slot of 32 or more is BadSlot. -/
theorem pickSlot_badSlot (σ : State) {n : Byte} (hn : 32 ≤ n.toNat) :
    pickSlot σ (some n) = .error (.rejected .badSlot) := by
  simp [pickSlot, Nat.not_lt.mpr hn]

/-- R174, R218: a new record without a slot is abandoned before its placement and its `init` hook. -/
theorem registerCore_of_pickSlot_error {σ : State} {d : Device} {req : Option Byte} {o : HostOutcome}
    (hi : σ.identOf d = none) (ho : pickSlot σ req = .error o) : registerCore σ d req = .ok (abandon σ o) := by
  simp [registerCore, hi, ho]

/-- R172: where a controller exists, REGISTER ends where REGISTER_CORE ends, and answers its outcome. -/
theorem exec_register_of_core {s τ : State} {d : Device} {req : Option Byte} {o : HostOutcome} (hf : s.fault = false)
    (hp : s.phase ≠ .absent) (hc : registerCore s.start d req = .ok (τ, o)) :
    exec (.register d req) s = .next (τ.answer (.outcome o)) := by
  have hbody : registerBody d req s.start = .ok (τ, o) := (if_neg hp).trans hc
  rw [exec_register, hostCommand_free hf, hbody]

/-- Settles O40: `pickSlot_explicit` below 32; from 32 on the registration is abandoned with BadSlot. -/
theorem explicitSlotMustBeBelow32 : Obligations.ExplicitSlotMustBeBelow32 := by
  refine fun s d n => ⟨pickSlot_explicit s n, fun hn hf hp hi => ?_⟩
  have hcore : registerCore s.start d (some n) = .ok (s.start, .rejected .badSlot) :=
    registerCore_of_pickSlot_error (σ := s.start) hi (pickSlot_badSlot s.start hn)
  exact exec_register_of_core hf hp hcore

end Sys2Proof.Machine
end

section
/-!
PROOFS. The descriptor decoder and encoder (30_encoding.md R76 to R82): the fields of an encoded descriptor, the decoder on
encoded descriptors, and that a decoded descriptor is the encoding of its transaction.
-/

namespace Sys2Proof

/-! ## The fields of an encoded descriptor (R76) -/

@[simp] theorem encodeIo_class (cls : BitVec 2) (w : Width) (port : BitVec 16) :
    (encodeIo cls w port).extractLsb' 30 2 = cls := by
  rw [encodeIo, BitVec.extractLsb'_append_eq_of_le (by decide), BitVec.extractLsb'_append_eq_of_le (by decide),
    BitVec.extractLsb'_append_eq_left]

@[simp] theorem encodeIo_width (cls : BitVec 2) (w : Width) (port : BitVec 16) :
    (encodeIo cls w port).extractLsb' 28 2 = w.code := by
  rw [encodeIo, BitVec.extractLsb'_append_eq_of_le (by decide), BitVec.extractLsb'_append_eq_of_le (by decide),
    BitVec.extractLsb'_append_eq_right]

@[simp] theorem encodeIo_reserved (cls : BitVec 2) (w : Width) (port : BitVec 16) :
    (encodeIo cls w port).extractLsb' 16 12 = 0#12 := by
  rw [encodeIo, BitVec.extractLsb'_append_eq_of_le (by decide), BitVec.extractLsb'_append_eq_right]

@[simp] theorem encodeIo_port (cls : BitVec 2) (w : Width) (port : BitVec 16) :
    (encodeIo cls w port).extractLsb' 0 16 = port := by
  rw [encodeIo, BitVec.extractLsb'_append_eq_right]

@[simp] theorem encodeHost_class (cmd : Byte) : (encodeHost cmd).extractLsb' 30 2 = 2#2 := by
  rw [encodeHost, BitVec.extractLsb'_append_eq_of_le (by decide), BitVec.extractLsb'_append_eq_left]

@[simp] theorem encodeHost_reserved (cmd : Byte) : (encodeHost cmd).extractLsb' 8 22 = 0#22 := by
  rw [encodeHost, BitVec.extractLsb'_append_eq_of_le (by decide), BitVec.extractLsb'_append_eq_right]

@[simp] theorem encodeHost_cmd (cmd : Byte) : (encodeHost cmd).extractLsb' 0 8 = cmd := by
  rw [encodeHost, BitVec.extractLsb'_append_eq_right]

@[simp] theorem dataPort_block (p : Ports) (k : BitVec 2) :
    (dataPort p k).extractLsb' 2 14 = p.dataBase.extractLsb' 2 14 := by
  rw [dataPort, BitVec.extractLsb'_append_eq_left]

@[simp] theorem dataPort_offset (p : Ports) (k : BitVec 2) : (dataPort p k).extractLsb' 0 2 = k := by
  rw [dataPort, BitVec.extractLsb'_append_eq_right]

/-- An I/O descriptor is made of its four fields. -/
theorem encodeIo_fields {d : Word} {w : Width} (hw : d.extractLsb' 28 2 = w.code) (hz : d.extractLsb' 16 12 = 0#12) :
    encodeIo (d.extractLsb' 30 2) w (d.extractLsb' 0 16) = d := by
  rw [encodeIo, ← hw, ← hz, BitVec.extractLsb'_append_extractLsb'_eq_extractLsb' (show 30 = 28 + 2 from rfl),
    BitVec.extractLsb'_append_extractLsb'_eq_extractLsb' (show 28 = 16 + 12 from rfl),
    BitVec.extractLsb'_append_extractLsb'_eq_extractLsb' (show 16 = 0 + 16 from rfl)]
  exact BitVec.extractLsb'_eq_self

/-- A host command descriptor is made of its three fields. -/
theorem encodeHost_fields {d : Word} (hc : d.extractLsb' 30 2 = 2#2) (hz : d.extractLsb' 8 22 = 0#22) :
    encodeHost (d.extractLsb' 0 8) = d := by
  rw [encodeHost, ← hc, ← hz, BitVec.extractLsb'_append_extractLsb'_eq_extractLsb' (show 30 = 8 + 22 from rfl),
    BitVec.extractLsb'_append_extractLsb'_eq_extractLsb' (show 8 = 0 + 8 from rfl)]
  exact BitVec.extractLsb'_eq_self

/-- A port of the data block is DATA_BASE + k for its low two bits. -/
theorem dataPort_fields {p : Ports} {port : BitVec 16} (h : port.extractLsb' 2 14 = p.dataBase.extractLsb' 2 14) :
    dataPort p (port.extractLsb' 0 2) = port := by
  rw [dataPort, ← h, BitVec.extractLsb'_append_extractLsb'_eq_extractLsb' (show 2 = 0 + 2 from rfl)]
  exact BitVec.extractLsb'_eq_self

/-- R77: the width codes, 11 being no width. -/
theorem widthOfCode_eq_some (wid : BitVec 2) (w : Width) : widthOfCode wid = some w ↔ wid = w.code := by
  revert wid; cases w <;> decide

theorem widthOfCode_eq_none (wid : BitVec 2) : widthOfCode wid = none ↔ wid = 3#2 := by
  revert wid; decide

/-- R78: ADDR_PORT lies outside the data block. -/
theorem dataPort_ne_addrPort {p : Ports} (hp : p.wf = true) (k : BitVec 2) : dataPort p k ≠ p.addrPort := by
  intro h
  simp only [Ports.wf, Bool.and_eq_true, bne_iff_ne] at hp
  exact hp.2 (by rw [← h, dataPort_block])

/-! ## The decoder, class by class (R80) -/

theorem decodeWord_host {p : Params} {d : Word} (o : OutOfBand) (hc : d.extractLsb' 30 2 = 2#2) :
    decodeWord p d o = decodeHost d o := by
  simp [decodeWord, hc]

theorem decodeWord_read {p : Params} {d : Word} (o : OutOfBand) (hc : d.extractLsb' 30 2 = 0#2) :
    decodeWord p d o = decodeIo p false d o.wdata := by
  simp [decodeWord, hc]

theorem decodeWord_write {p : Params} {d : Word} (o : OutOfBand) (hc : d.extractLsb' 30 2 = 1#2) :
    decodeWord p d o = decodeIo p true d o.wdata := by
  simp [decodeWord, hc]

/-- An I/O descriptor of a legal width and zero reserved bits is decoded by its port (R78). -/
theorem decodeIo_port {p : Params} {write : Bool} {d : Word} {w : Width} (v : Word) (hw : d.extractLsb' 28 2 = w.code)
    (hz : d.extractLsb' 16 12 = 0#12) : decodeIo p write d v = decodePort p write w (d.extractLsb' 0 16) v := by
  simp [decodeIo, (widthOfCode_eq_some _ w).mpr hw, hz]

theorem decodePort_addr (p : Params) (write : Bool) (v : Word) :
    decodePort p write .w4 p.ports.addrPort v = .instr (if write then .addrWr v else .addrRd) := by
  simp [decodePort]

theorem decodePort_addr_narrow (p : Params) (write : Bool) {w : Width} (v : Word) (hw : w ≠ .w4) :
    decodePort p write w p.ports.addrPort v = decodeNarrow p write w := by
  simp [decodePort, hw]

theorem decodePort_data {p : Params} (hp : p.wf = true) (write : Bool) (w : Width) (k : BitVec 2) (v : Word) :
    decodePort p write w (dataPort p.ports k) v = .instr (if write then dataWriteInstr w k v else dataReadInstr w k) := by
  simp [decodePort, dataPort_ne_addrPort hp]

theorem decodeWord_encodeIo_read (p : Params) (w : Width) (port : BitVec 16) (o : OutOfBand) :
    decodeWord p (encodeIo 0#2 w port) o = decodePort p false w port o.wdata := by
  rw [decodeWord_read o (encodeIo_class ..), decodeIo_port _ (encodeIo_width ..) (encodeIo_reserved ..), encodeIo_port]

theorem decodeWord_encodeIo_write (p : Params) (w : Width) (port : BitVec 16) (o : OutOfBand) :
    decodeWord p (encodeIo 1#2 w port) o = decodePort p true w port o.wdata := by
  rw [decodeWord_write o (encodeIo_class ..), decodeIo_port _ (encodeIo_width ..) (encodeIo_reserved ..), encodeIo_port]

/-! ## Decoding an encoded transaction (R76 to R82) -/

/-- The transaction with the out-of-band operands `o` in place of its own (R76). -/
def Instr.withOperands (o : OutOfBand) : Instr → Instr
  | .addrRd => .addrRd
  | .addrWr _ => .addrWr o.wdata
  | .dataRd8 k => .dataRd8 k
  | .dataRd16 k => .dataRd16 k
  | .dataRd32 k => .dataRd32 k
  | .dataWr8 k _ => .dataWr8 k o.wdata
  | .dataWr16 k _ => .dataWr16 k o.wdata
  | .dataWr32 k _ => .dataWr32 k o.wdata
  | .construct => .construct
  | .register _ _ => .register o.dev o.slotReq
  | .shutdown => .shutdown
  | .destroy => .destroy
  | .legacyCb => .legacyCb

/-- The encoder drops no operand. -/
@[simp] theorem withOperands_encodeOob (i : Instr) : i.withOperands (encodeOob i) = i := by cases i <;> rfl

/-- R81: the descriptor of a transaction decodes to that transaction, with the operands presented beside it. -/
theorem decodeWord_encodeDesc {p : Params} (hp : p.wf = true) (i : Instr) (o : OutOfBand) :
    decodeWord p (encodeDesc p.ports i) o = .instr (i.withOperands o) := by
  cases i with
  | addrRd => rw [encodeDesc, decodeWord_encodeIo_read, decodePort_addr]; rfl
  | addrWr v => rw [encodeDesc, decodeWord_encodeIo_write, decodePort_addr]; rfl
  | dataRd8 k => rw [encodeDesc, decodeWord_encodeIo_read, decodePort_data hp]; rfl
  | dataRd16 k => rw [encodeDesc, decodeWord_encodeIo_read, decodePort_data hp]; rfl
  | dataRd32 k => rw [encodeDesc, decodeWord_encodeIo_read, decodePort_data hp]; rfl
  | dataWr8 k v => rw [encodeDesc, decodeWord_encodeIo_write, decodePort_data hp]; rfl
  | dataWr16 k v => rw [encodeDesc, decodeWord_encodeIo_write, decodePort_data hp]; rfl
  | dataWr32 k v => rw [encodeDesc, decodeWord_encodeIo_write, decodePort_data hp]; rfl
  | construct => rw [encodeDesc, decodeWord_host o (encodeHost_class _)]; simp [decodeHost, Instr.withOperands]
  | register d req => rw [encodeDesc, decodeWord_host o (encodeHost_class _)]; simp [decodeHost, Instr.withOperands]
  | shutdown => rw [encodeDesc, decodeWord_host o (encodeHost_class _)]; simp [decodeHost, Instr.withOperands]
  | destroy => rw [encodeDesc, decodeWord_host o (encodeHost_class _)]; simp [decodeHost, Instr.withOperands]
  | legacyCb => rw [encodeDesc, decodeWord_host o (encodeHost_class _)]; simp [decodeHost, Instr.withOperands]

theorem decodeWith_of_word {p : Params} {t : Transaction} {i : Instr} (h : decodeWord p t.desc t.oob = .instr i)
    (hi : i.wf = true) : decodeWith p t = .instr i := by
  simp [decodeWith, h, hi]

/-- Settles O1: the descriptor decodes by `decodeWord_encodeDesc`, and the operands presented are the transaction's own. -/
theorem decodeOfEncodeIsInstr : Obligations.DecodeOfEncodeIsInstr := by
  intro p i hp hi
  have hword : decodeWord p (encodeWith p.ports i).desc (encodeWith p.ports i).oob = .instr i :=
    (decodeWord_encodeDesc hp i (encodeOob i)).trans (by rw [withOperands_encodeOob])
  exact decodeWith_of_word hword hi

/-! ## A decoded descriptor is an encoding (R81) -/

theorem encodeDesc_addrInstr (p : Ports) (write : Bool) (v : Word) :
    encodeDesc p (if write then .addrWr v else .addrRd) = encodeIo (if write then 1#2 else 0#2) .w4 p.addrPort := by
  cases write <;> rfl

theorem encodeDesc_dataInstr (p : Ports) (write : Bool) (w : Width) (k : BitVec 2) (v : Word) :
    encodeDesc p (if write then dataWriteInstr w k v else dataReadInstr w k)
      = encodeIo (if write then 1#2 else 0#2) w (dataPort p k) := by
  cases write
  · cases w <;> rfl
  · cases w <;> rfl

theorem decodePort_instr {p : Params} {write : Bool} {w : Width} {port : BitVec 16} {v : Word} {i : Instr}
    (h : decodePort p write w port v = .instr i) :
    encodeDesc p.ports i = encodeIo (if write then 1#2 else 0#2) w port := by
  unfold decodePort at h
  split at h
  next hport =>
    split at h
    next hw => cases h; rw [encodeDesc_addrInstr, hw, hport]
    next => unfold decodeNarrow at h; split at h <;> cases h
  next =>
    split at h
    next hblock => cases h; rw [encodeDesc_dataInstr, dataPort_fields hblock]
    next => cases h

theorem decodeIo_instr {p : Params} {write : Bool} {d v : Word} {i : Instr} (h : decodeIo p write d v = .instr i)
    (hc : d.extractLsb' 30 2 = if write then 1#2 else 0#2) : encodeDesc p.ports i = d := by
  unfold decodeIo at h
  split at h
  · cases h
  next w hw =>
  split at h
  · cases h
  next hz =>
  rw [decodePort_instr h, ← hc, encodeIo_fields ((widthOfCode_eq_some _ _).mp hw) (not_not.mp hz)]

theorem decodeHost_instr {p : Ports} {d : Word} {o : OutOfBand} {i : Instr} (h : decodeHost d o = .instr i)
    (hc : d.extractLsb' 30 2 = 2#2) : encodeDesc p i = d := by
  unfold decodeHost at h
  split at h
  · cases h
  next hz =>
  have hd := encodeHost_fields hc (not_not.mp hz)
  split at h
  next hcmd => cases h; rw [← hd, hcmd]; rfl
  split at h
  next hcmd => cases h; rw [← hd, hcmd]; rfl
  split at h
  next hcmd => cases h; rw [← hd, hcmd]; rfl
  split at h
  next hcmd => cases h; rw [← hd, hcmd]; rfl
  split at h
  next hcmd => cases h; rw [← hd, hcmd]; rfl
  cases h

/-- R81: under all parameters, the one word that decodes to a transaction is its descriptor. -/
theorem encodeDesc_of_decodeWord {p : Params} {d : Word} {o : OutOfBand} {i : Instr}
    (h : decodeWord p d o = .instr i) : encodeDesc p.ports i = d := by
  have hcases : ∀ c : BitVec 2, c = 0#2 ∨ c = 1#2 ∨ c = 2#2 ∨ c = 3#2 := by decide
  rcases hcases (d.extractLsb' 30 2) with hc | hc | hc | hc
  · exact decodeIo_instr (write := false) (decodeWord_read o hc ▸ h) hc
  · exact decodeIo_instr (write := true) (decodeWord_write o hc ▸ h) hc
  · exact decodeHost_instr (decodeWord_host o hc ▸ h) hc
  · simp [decodeWord, hc] at h

/-! ## The opcode table (R82) -/

/-- Every transaction's descriptor matches its own row of the table. -/
theorem opcodeRow_covers_encode (i : Instr) : opcodeRow i ∈ opcodeTable ∧ (opcodeRow i).covers (encode i).desc = true := by
  have hrow : Laws.EncodeRow.Statement i := by
    cases i with
    | addrRd => exact Laws.EncodeRow.addrRd
    | addrWr v => exact Laws.EncodeRow.addrWr v
    | dataRd8 k => exact Laws.EncodeRow.dataRd8 k
    | dataRd16 k => exact Laws.EncodeRow.dataRd16 k
    | dataRd32 k => exact Laws.EncodeRow.dataRd32 k
    | dataWr8 k v => exact Laws.EncodeRow.dataWr8 k v
    | dataWr16 k v => exact Laws.EncodeRow.dataWr16 k v
    | dataWr32 k v => exact Laws.EncodeRow.dataWr32 k v
    | construct => exact Laws.EncodeRow.construct
    | register d req => exact Laws.EncodeRow.register d req
    | shutdown => exact Laws.EncodeRow.shutdown
    | destroy => exact Laws.EncodeRow.destroy
    | legacyCb => exact Laws.EncodeRow.legacyCb
  have hmem : opcodeRow i ∈ rowsCovering (encode i).desc := by rw [hrow]; exact List.mem_singleton.mpr rfl
  exact List.mem_filter.mp hmem

/-- A word that matches a row of one word is that word. -/
theorem eq_of_covers {row : OpcodeRow} {d : Word} (hm : row.mask = 0xFFFFFFFF#32) (h : row.covers d = true) :
    row.pattern = d := by
  have hd : d &&& 0xFFFFFFFF#32 = row.pattern := by simpa [OpcodeRow.covers, hm] using h
  rw [← hd]
  exact BitVec.and_allOnes

/-- A word that matches a row of four words is the row's pattern but for its low two bits, the port offset. -/
theorem eq_append_of_covers {row : OpcodeRow} {d : Word} (hm : row.mask = 0xFFFFFFFC#32) (h : row.covers d = true) :
    row.pattern.extractLsb' 2 30 ++ d.extractLsb' 0 2 = d := by
  have hd : d &&& 0xFFFFFFFC#32 = row.pattern := by simpa [OpcodeRow.covers, hm] using h
  have hmask : (0xFFFFFFFC#32).extractLsb' 2 30 = BitVec.allOnes 30 := by decide
  rw [← hd, BitVec.extractLsb'_and, hmask, BitVec.and_allOnes,
    BitVec.extractLsb'_append_extractLsb'_eq_extractLsb' (show 2 = 0 + 2 from rfl)]
  exact BitVec.extractLsb'_eq_self

/-- Each word that a row covers is the descriptor of one of the row's transactions. -/
theorem encode_of_covers {row : OpcodeRow} {d : Word} (hrow : row ∈ opcodeTable) (h : row.covers d = true) :
    ∃ i, opcodeRow i = row ∧ encodeDesc Config.ports i = d := by
  have hdata (i : BitVec 2 → Instr) (hi : ∀ k, opcodeRow (i k) = row) (hm : row.mask = 0xFFFFFFFC#32)
      (hdesc : ∀ k, encodeDesc Config.ports (i k) = row.pattern.extractLsb' 2 30 ++ k) :
      ∃ i, opcodeRow i = row ∧ encodeDesc Config.ports i = d :=
    ⟨i (d.extractLsb' 0 2), hi _, (hdesc _).trans (eq_append_of_covers hm h)⟩
  simp only [opcodeTable, List.mem_cons, List.not_mem_nil, or_false] at hrow
  rcases hrow with rfl | rfl | rfl | rfl | rfl | rfl | rfl | rfl | rfl | rfl | rfl | rfl | rfl
  · exact ⟨.addrRd, rfl, eq_of_covers rfl h⟩
  · exact ⟨.addrWr 0#32, rfl, eq_of_covers rfl h⟩
  · exact hdata .dataRd8 (fun _ => rfl) rfl (by decide)
  · exact hdata .dataRd16 (fun _ => rfl) rfl (by decide)
  · exact hdata .dataRd32 (fun _ => rfl) rfl (by decide)
  · exact hdata (.dataWr8 · 0#32) (fun _ => rfl) rfl (by decide)
  · exact hdata (.dataWr16 · 0#32) (fun _ => rfl) rfl (by decide)
  · exact hdata (.dataWr32 · 0#32) (fun _ => rfl) rfl (by decide)
  · exact ⟨.construct, rfl, eq_of_covers rfl h⟩
  · exact ⟨.register Device.zero none, rfl, eq_of_covers rfl h⟩
  · exact ⟨.shutdown, rfl, eq_of_covers rfl h⟩
  · exact ⟨.destroy, rfl, eq_of_covers rfl h⟩
  · exact ⟨.legacyCb, rfl, eq_of_covers rfl h⟩

/-- The row of a transaction does not depend on its out-of-band operands. -/
@[simp] theorem opcodeRow_withOperands (o : OutOfBand) (i : Instr) : opcodeRow (i.withOperands o) = opcodeRow i := by
  cases i <;> rfl

/-- Settles O2: a decoded word is its transaction's descriptor, which its row covers; and a covered word is the descriptor of
one of the row's transactions, which it decodes to. -/
theorem decodedWordsAreTheTableRows : Obligations.DecodedWordsAreTheTableRows := by
  refine fun d o => ⟨fun i hi => ?_, fun row hrow h => ?_⟩
  · have hd : (encode i).desc = d := encodeDesc_of_decodeWord hi
    exact hd ▸ opcodeRow_covers_encode i
  · obtain ⟨i, hi, hd⟩ := encode_of_covers hrow h
    have hdec := decodeWord_encodeDesc (p := Config.params) (by decide) i o
    exact ⟨i.withOperands o, hd ▸ hdec, by rw [opcodeRow_withOperands, hi]⟩

end Sys2Proof
end

section
/-!
PROOFS. Refused descriptors (30_encoding.md R80) and the step (00_scope.md R4, 10_state.md R37): what a step makes of each
answer of the decoder, and the narrow access to the address port (40_address_port.md R102).
-/

namespace Sys2Proof

/-! ## Refused and foreign descriptors (R80) -/

/-- Bit 31 is the upper bit of CLASS; where it is 0 the descriptor is an I/O descriptor (R76). -/
theorem ioClass_of_bit31 {d : Word} (h : d.extractLsb' 31 1 = 0#1) : d.extractLsb' 30 2 = 0#2 ∨ d.extractLsb' 30 2 = 1#2 := by
  have hbit : d.extractLsb' 31 1 = (d.extractLsb' 30 2).extractLsb' 1 1 := by
    ext i hi
    simp [show 1 + i < 2 by omega, ← Nat.add_assoc]
  have hcases : ∀ c : BitVec 2, c.extractLsb' 1 1 = 0#1 → c = 0#2 ∨ c = 1#2 := by decide
  exact hcases _ (hbit ▸ h)

/-- An I/O descriptor is decoded as a read or as a write of its port. -/
theorem decodeWord_io {p : Params} {d : Word} (o : OutOfBand) (h : d.extractLsb' 31 1 = 0#1) :
    ∃ write, decodeWord p d o = decodeIo p write d o.wdata := by
  rcases ioClass_of_bit31 h with hc | hc
  · exact ⟨false, decodeWord_read o hc⟩
  · exact ⟨true, decodeWord_write o hc⟩

/-- R80: the reserved width comes first in an I/O descriptor (log 11). -/
theorem decodeIo_reservedWidth (p : Params) (write : Bool) {d : Word} (v : Word) (hw : d.extractLsb' 28 2 = 3#2) :
    decodeIo p write d v = .refused .reservedWidth := by
  simp [decodeIo, (widthOfCode_eq_none _).mpr hw]

/-- The width that a WID other than 11 names (R77). -/
theorem exists_width {wid : BitVec 2} (h : wid ≠ 3#2) : ∃ w : Width, wid = w.code := by
  obtain ⟨w, hw⟩ := Option.ne_none_iff_exists'.mp (mt (widthOfCode_eq_none wid).mp h)
  exact ⟨w, (widthOfCode_eq_some wid w).mp hw⟩

theorem decodeIo_reservedBits (p : Params) (write : Bool) {d : Word} (v : Word) (hw : d.extractLsb' 28 2 ≠ 3#2)
    (hz : d.extractLsb' 16 12 ≠ 0#12) : decodeIo p write d v = .refused .nonzeroReservedBits := by
  obtain ⟨w, hw⟩ := exists_width hw
  simp [decodeIo, (widthOfCode_eq_some _ w).mpr hw, hz]

theorem decodeHost_reservedBits {d : Word} (o : OutOfBand) (hz : d.extractLsb' 8 22 ≠ 0#22) :
    decodeHost d o = .refused .nonzeroReservedBits := if_pos hz

/-- R79: the commands are 1 to 5. -/
theorem decodeHost_reservedCommand {d : Word} (o : OutOfBand) (hz : d.extractLsb' 8 22 = 0#22)
    (hcmd : d.extractLsb' 0 8 = 0#8 ∨ 6#8 ≤ d.extractLsb' 0 8) : decodeHost d o = .refused .reservedCommand := by
  have hnone : ∀ c : Byte, c = 0#8 ∨ 6#8 ≤ c → c ≠ 1#8 ∧ c ≠ 2#8 ∧ c ≠ 3#8 ∧ c ≠ 4#8 ∧ c ≠ 5#8 := by decide
  obtain ⟨h1, h2, h3, h4, h5⟩ := hnone _ hcmd
  simp [decodeHost, hz, h1, h2, h3, h4, h5]

/-- R80: a narrow access to the address port is refused where P_ADDR_NARROW says so. -/
theorem decodePort_narrowRefused {p : Params} (hn : p.narrow = none) (write : Bool) {w : Width} (v : Word) (hw : w ≠ .w4) :
    decodePort p write w p.ports.addrPort v = .refused .narrowAddressAccess := by
  rw [decodePort_addr_narrow p write v hw, decodeNarrow, hn]

theorem decodePort_foreign {p : Params} (write : Bool) (w : Width) {port : BitVec 16} (v : Word)
    (ha : port ≠ p.ports.addrPort) (hd : port.extractLsb' 2 14 ≠ p.ports.dataBase.extractLsb' 2 14) :
    decodePort p write w port v = .notThisBlock := by
  simp [decodePort, ha, hd]

/-- The block number of the port field is bits 15:2 of the descriptor. -/
theorem port_block (d : Word) : (d.extractLsb' 0 16).extractLsb' 2 14 = d.extractLsb' 2 14 :=
  BitVec.extractLsb'_extractLsb'_of_le (by decide)

/-- Settles O3: the class, then in an I/O descriptor the width, the zero bits and the port, and in a host command the zero bits
and the command. -/
theorem reservedDescriptorsRefused : Obligations.ReservedDescriptorsRefused := by
  intro p d o
  refine ⟨fun hc => by simp [decodeWord, hc], fun h31 hw => ?_, fun h31 hw hz => ?_, fun hc hz => ?_,
    fun hc hz hcmd => ?_, fun hn h31 hz hw hport => ?_, fun h31 hz hw ha hb => ?_⟩
  · obtain ⟨write, hio⟩ := decodeWord_io o h31
    rw [hio, decodeIo_reservedWidth p write _ hw]
  · obtain ⟨write, hio⟩ := decodeWord_io o h31
    rw [hio, decodeIo_reservedBits p write _ hw hz]
  · rw [decodeWord_host o hc, decodeHost_reservedBits o hz]
  · rw [decodeWord_host o hc, decodeHost_reservedCommand o hz hcmd]
  · obtain ⟨write, hio⟩ := decodeWord_io o h31
    obtain ⟨w, hw4, hw⟩ : ∃ w : Width, w ≠ .w4 ∧ d.extractLsb' 28 2 = w.code :=
      hw.elim (fun h => ⟨.w1, by decide, h⟩) fun h => ⟨.w2, by decide, h⟩
    rw [hio, decodeIo_port _ hw hz, hport, decodePort_narrowRefused hn write _ hw4]
  · obtain ⟨write, hio⟩ := decodeWord_io o h31
    obtain ⟨w, hw⟩ := exists_width hw
    rw [hio, decodeIo_port _ hw hz, decodePort_foreign write w _ ha (by rwa [port_block])]

/-- Settles O4: each word is the descriptor of its transaction, and the operands stand beside it. -/
theorem sampleWordsDecode : Obligations.SampleWordsDecode := by
  unfold Obligations.SampleWordsDecode
  decide

namespace Machine

/-! ## What a step makes of the decoder's answer (R4, R37) -/

theorem fetch_of_input {s : State} {t : Transaction} {rest : List Transaction} (h : s.input = t :: rest) :
    s.fetch = some (t, { s with input := rest }) := by
  simp [State.fetch, h]

theorem stepWith_instr {p : Params} {s s' : State} {t : Transaction} {i : Instr} (hs : s.fetch = some (t, s'))
    (hd : decodeWith p t = .instr i) : stepWith p s = exec i s' := by
  simp [stepWith, hs, hd]

theorem stepWith_refused {p : Params} {s s' : State} {t : Transaction} {r : DecodeRefusal} (hs : s.fetch = some (t, s'))
    (hd : decodeWith p t = .refused r) : stepWith p s = .refused (.descriptor r) := by
  simp [stepWith, hs, hd]

theorem stepWith_notThisBlock {p : Params} {s s' : State} {t : Transaction} (hs : s.fetch = some (t, s'))
    (hd : decodeWith p t = .notThisBlock) : stepWith p s = .refused .notThisBlock := by
  simp [stepWith, hs, hd]

theorem stepWith_narrow {p : Params} {s s' : State} {t : Transaction} {write : Bool} {w : Width}
    (hs : s.fetch = some (t, s')) (hd : decodeWith p t = .narrow write w) : stepWith p s = execNarrow p write w s' := by
  simp [stepWith, hs, hd]

theorem stepWith_no_input {p : Params} {s : State} (h : s.input = []) : stepWith p s = .fault .noTransaction := by
  simp [stepWith, State.fetch, h]

/-- Settles O5: a step runs what the fetched transaction decodes to, which for an encoding is the transaction itself (O1). -/
theorem stepRunsTheDecodedTransaction : Obligations.StepRunsTheDecodedTransaction := by
  refine ⟨fun p s t rest i h hd => stepWith_instr (fetch_of_input h) hd,
    fun p s i hp hi => stepWith_instr (fetch_present s _) (decodeOfEncodeIsInstr p i hp hi),
    fun s t rest i h hd => stepWith_instr (fetch_of_input h) hd,
    fun s i hi => stepWith_instr (fetch_present s _) (decodeOfEncodeIsInstr Config.params i (by decide) hi)⟩

/-- Settles O6: the decoder's refusal is the step's, and without a transaction there is nothing to fetch. -/
theorem undecodedTransactionHasNoStep : Obligations.UndecodedTransactionHasNoStep :=
  ⟨fun _ _ _ _ _ h hd => stepWith_refused (fetch_of_input h) hd,
    fun _ _ _ _ h hd => stepWith_notThisBlock (fetch_of_input h) hd,
    fun _ _ => stepWith_no_input, fun _ => rfl⟩

/-! ## A narrow access to the address port (R56, R102) -/

/-- R78: the decoder's answer on a narrow access to the address port, read (CLASS 00) or write (CLASS 01). -/
theorem decodeWord_narrow (p : Params) (write : Bool) {w : Width} (o : OutOfBand) (hw : w ≠ .w4) :
    decodeWord p (encodeIo (if write then 1#2 else 0#2) w p.ports.addrPort) o = decodeNarrow p write w := by
  cases write
  · exact (decodeWord_encodeIo_read p w _ o).trans (decodePort_addr_narrow p false _ hw)
  · exact (decodeWord_encodeIo_write p w _ o).trans (decodePort_addr_narrow p true _ hw)

theorem stepWith_narrow_none {p : Params} (hn : p.narrow = none) (write : Bool) {w : Width} (o : OutOfBand) (hw : w ≠ .w4)
    (s : State) : stepWith p (s.present ⟨encodeIo (if write then 1#2 else 0#2) w p.ports.addrPort, o⟩)
      = .refused (.descriptor .narrowAddressAccess) := by
  refine stepWith_refused (fetch_present s _) ?_
  simp [decodeWith, decodeWord_narrow p write o hw, decodeNarrow, hn]

theorem stepWith_narrow_some {p : Params} {v : NarrowRead} (hn : p.narrow = some v) (write : Bool) {w : Width}
    (o : OutOfBand) (hw : w ≠ .w4) (s : State) :
    stepWith p (s.present ⟨encodeIo (if write then 1#2 else 0#2) w p.ports.addrPort, o⟩) = narrowAccess v write w s := by
  have hd : decodeWith p ⟨encodeIo (if write then 1#2 else 0#2) w p.ports.addrPort, o⟩ = .narrow write w := by
    simp [decodeWith, decodeWord_narrow p write o hw, decodeNarrow, hn]
  rw [stepWith_narrow (fetch_present s _) hd, execNarrow, hn]

/-- A narrow write is an I/O write without an effect. -/
theorem narrowAccess_true (v : NarrowRead) (w : Width) (s : State) :
    narrowAccess v true w s = ioWrite (fun τ => .ok τ) s := rfl

/-- A narrow read is an I/O read that takes one draw. -/
theorem narrowAccess_false (v : NarrowRead) (w : Width) (s : State) :
    narrowAccess v false w s = ioRead w (fun τ => .ok (τ.draw, v w τ.latch τ.draws)) s := rfl

theorem narrowAccess_fault {s : State} (v : NarrowRead) (write : Bool) (w : Width) (hf : s.fault = true) :
    narrowAccess v write w s = .refused .faultSet := by
  cases write
  · rw [narrowAccess_false, ioRead_fault hf]
  · rw [narrowAccess_true, ioWrite_fault hf]

/-- R102, R62: a narrow write does nothing, on a bound port and on an unbound one. -/
theorem narrowAccess_write {s : State} (v : NarrowRead) (w : Width) (hf : s.fault = false) :
    narrowAccess v true w s = .next { s with result := .nothing, trace := [] } := by
  rw [narrowAccess_true]
  by_cases hp : s.phase = .init
  · rw [ioWrite_bound hf hp]; rfl
  · rw [ioWrite_unbound hf hp]; rfl

theorem narrowAccess_read_bound {s : State} (v : NarrowRead) (w : Width) (hf : s.fault = false) (hp : s.phase = .init) :
    narrowAccess v false w s =
      .next { s with draws := s.draws + 1, result := Result.ofWord w (v w s.latch s.draws), trace := [] } := by
  rw [narrowAccess_false, ioRead_bound hf hp]; rfl

theorem narrowAccess_read_unbound {s : State} (v : NarrowRead) (w : Width) (hf : s.fault = false) (hp : s.phase ≠ .init) :
    narrowAccess v false w s =
      .next { s with draws := s.draws + 1, result := Result.ofWord w (Config.unclaimedRead s.draws), trace := [] } := by
  rw [narrowAccess_false, ioRead_unbound hf hp]; rfl

/-- Settles O7: the decoder refuses the access or hands it to `narrowAccess`, which is an I/O access without an effect. -/
theorem narrowAccessIsItsParameter : Obligations.NarrowAccessIsItsParameter := by
  intro p s w o hw
  refine ⟨fun hn cls hcls => ?_, fun v hn => ⟨fun hf cls hcls => ?_, fun hf => ?_, fun hf hp => ?_, fun hf hp => ?_⟩⟩
  · rcases hcls with rfl | rfl
    · exact stepWith_narrow_none hn false o hw s
    · exact stepWith_narrow_none hn true o hw s
  · rcases hcls with rfl | rfl
    · exact (stepWith_narrow_some hn false o hw s).trans (narrowAccess_fault v false w hf)
    · exact (stepWith_narrow_some hn true o hw s).trans (narrowAccess_fault v true w hf)
  · exact (stepWith_narrow_some hn true o hw s).trans (narrowAccess_write v w hf)
  · exact (stepWith_narrow_some hn false o hw s).trans (narrowAccess_read_bound v w hf hp)
  · exact (stepWith_narrow_some hn false o hw s).trans (narrowAccess_read_unbound v w hf hp)

end Machine

end Sys2Proof
end

section
/-!
PROOFS. What a transaction leaves of the slot table, PHASE, LATCH, FAULT and the identities (10_state.md R20 to R29,
60_exceptions.md R214): the part of the controller that only registrations write, and one induction for the relations that
every registration keeps.
-/

namespace Sys2Proof.Machine

/-! ## The registered devices -/

/-- The two controllers hold the same devices: slot table, counts and identities agree. -/
structure SameDevices (c c' : Controller) : Prop where
  slot : c'.slot = c.slot
  sub : c'.sub = c.sub
  nsub : c'.nsub = c.nsub
  installed : c'.installed = c.installed
  idents : c'.idents = c.idents

theorem SameDevices.of_eq {c c' : Controller} (h : c' = c) : SameDevices c c' := by subst h; exact ⟨rfl, rfl, rfl, rfl, rfl⟩

theorem SameDevices.of_store {c c' : Controller} (h : c' = { c with store := c'.store }) : SameDevices c c' := by
  rw [h]; exact ⟨rfl, rfl, rfl, rfl, rfl⟩

/-- Only a registration, issued or replayed, and a teardown write the slot table and the identities. -/
theorem exec_devices {i : Instr} {s t : State} (h : exec i s = .next t) (hi : isTeardown i = false) :
    SameDevices s.toController t.toController ∨
    (∃ d req υ o, i = .register d req ∧ registerCore s.start d req = .ok (υ, o) ∧ t = υ.answer (.outcome o)) ∨
    (i = .construct ∧ ∃ υ, replay s.queue (Claims.drainStart s) = .ok υ ∧
      t = ({ υ with queue := [] } : State).answer (.outcome .done)) := by
  obtain ⟨-, he⟩ := exec_effect h
  cases he with
  | latch v _ ht => subst ht; exact .inl ⟨rfl, rfl, rfl, rfl, rfl⟩
  | idle _ _ _ hc _ => exact .inl (.of_eq hc)
  | cell _ tg _ _ _ _ hc _ _ _ => exact .inl (.of_store hc)
  | construct υ _ hr ht => exact .inr (.inr ⟨rfl, υ, hr, ht⟩)
  | register d req υ o _ hr ht => exact .inr (.inl ⟨d, req, υ, o, rfl, hr, ht⟩)
  | queued d req _ _ ht => subst ht; exact .inl ⟨rfl, rfl, rfl, rfl, rfl⟩
  | overflow d req _ _ ht => subst ht; exact .inl ⟨rfl, rfl, rfl, rfl, rfl⟩
  | shutdown => cases hi
  | destroy => cases hi

/-- A transitive relation on the registered devices that every registration keeps is kept by every transaction but a teardown. -/
theorem exec_devices_induction {P : Controller → Controller → Prop} (hsame : ∀ {c c'}, SameDevices c c' → P c c')
    (htrans : ∀ {c c' c''}, P c c' → P c' c'' → P c c'')
    (hcore : ∀ {σ τ : State} {d req o}, registerCore σ d req = .ok (τ, o) → P σ.toController τ.toController)
    {i : Instr} {s t : State} (h : exec i s = .next t) (hi : isTeardown i = false) : P s.toController t.toController := by
  rcases exec_devices h hi with hs | ⟨d, req, υ, o, -, hr, rfl⟩ | ⟨-, υ, hr, rfl⟩
  · exact hsame hs
  · have hreg : P s.start.toController υ.toController := hcore hr
    exact hreg
  · have hstart : P s.toController (Claims.drainStart s).toController := hsame ⟨rfl, rfl, rfl, rfl, rfl⟩
    have hdrain : P (Claims.drainStart s).toController υ.toController :=
      replay_induction (P := fun σ τ => P σ.toController τ.toController) (fun _ => hsame (.of_eq rfl)) htrans hcore hr
    exact htrans hstart (htrans hdrain (hsame ⟨rfl, rfl, rfl, rfl, rfl⟩))

/-! ## Occupied entries (R24, R186) -/

/-- Every occupied entry of SLOT and SUB is kept. -/
def KeepsEntries (c c' : Controller) : Prop :=
  (∀ (n : Fin 32) (d : Device), c.slotAt n = some d → c'.slotAt n = some d) ∧
    ∀ (n : Fin 32) (j : Fin 7) (d : Device), c.subAt n j = some d → c'.subAt n j = some d

theorem KeepsEntries.of_same {c c' : Controller} (h : SameDevices c c') : KeepsEntries c c' := by
  obtain ⟨hslot, hsub, -, -, -⟩ := h
  refine ⟨fun n d hd => ?_, fun n j d hd => ?_⟩
  · rwa [Controller.slotAt, hslot]
  · rwa [Controller.subAt, hsub]

theorem KeepsEntries.trans {c c' c'' : Controller} (h : KeepsEntries c c') (h' : KeepsEntries c' c'') :
    KeepsEntries c c'' :=
  ⟨fun n d hd => h'.1 n d (h.1 n d hd), fun n j d hd => h'.2 n j d (h.2 n j d hd)⟩

/-- R177: the place of a new record was empty. -/
theorem commit_keepsEntries {σ : State} {d : Device} {s : Fin 32} {p : Option (Fin 7)} {c : Cell}
    (hp : placement σ s = .ok p) : KeepsEntries σ.toController (commit (lazyInit σ).draw d s p c).toController := by
  rcases placement_ok hp with ⟨rfl, hempty⟩ | ⟨i, rfl, -, -, hempty⟩
  · refine ⟨fun n d' hd => ?_, fun n j d' hd => ?_⟩
    · have hne : n ≠ s := fun hn => by rw [hn, hempty] at hd; cases hd
      rwa [commit_primary_slotAt, if_neg hne]
    · rwa [commit_primary_subAt]
  · refine ⟨fun n d' hd => ?_, fun n j d' hd => ?_⟩
    · rwa [commit_secondary_slotAt]
    · have hne : ¬(n = s ∧ j = i) := fun hn => by rw [hn.1, hn.2, hempty] at hd; cases hd
      rwa [commit_secondary_subAt, if_neg hne]

theorem registerCore_keepsEntries {σ τ : State} {d : Device} {req : Option Byte} {o : HostOutcome}
    (h : registerCore σ d req = .ok (τ, o)) : KeepsEntries σ.toController τ.toController := by
  rcases registerCore_cases h with ⟨_, _, rfl⟩ | ⟨_, _, rfl | rfl⟩ | ⟨s, p, c, _, _, _, hp, _, rfl⟩
  · exact .of_same ⟨rfl, rfl, rfl, rfl, rfl⟩
  · exact .of_same (.of_eq rfl)
  · exact .of_same (.of_eq rfl)
  · exact commit_keepsEntries hp

/-- Settles O53: `KeepsEntries` is kept by every registration, since it takes an empty place. -/
theorem occupiedEntriesStay : Obligations.OccupiedEntriesStay :=
  fun _ _ _ h hi => exec_devices_induction (P := KeepsEntries) .of_same .trans registerCore_keepsEntries h hi

/-! ## INSTALLED (R26) -/

/-- R180: a primary raises INSTALLED by 1, a secondary leaves it. -/
theorem commit_installed (τ : State) (d : Device) (s : Fin 32) (p : Option (Fin 7)) (c : Cell) :
    (commit τ d s p c).installed = τ.installed + if p = none then 1 else 0 := by
  cases p <;> rfl

theorem registerCore_installed {σ τ : State} {d : Device} {req : Option Byte} {o : HostOutcome}
    (h : registerCore σ d req = .ok (τ, o)) : σ.installed ≤ τ.installed ∧ τ.installed ≤ σ.installed + 1 := by
  rcases registerCore_cases h with ⟨_, _, rfl⟩ | ⟨_, _, rfl | rfl⟩ | ⟨s, p, c, _, _, _, _, _, rfl⟩
  · simp
  · simp
  · simp
  · rw [commit_installed, draw_toController, lazyInit_installed]
    split <;> omega

/-- Settles O54: each registration raises INSTALLED by at most 1, and nothing but a teardown lowers it. -/
theorem installedOnlyGrows : Obligations.InstalledOnlyGrows := by
  refine fun i s t h hi => ⟨exec_devices_induction (P := fun c c' => c.installed ≤ c'.installed) (fun hs => hs.installed.ge)
    Nat.le_trans (fun hr => (registerCore_installed hr).1) h hi, fun hne => ?_⟩
  rcases exec_devices h hi with hs | ⟨d, req, υ, o, -, hr, rfl⟩ | ⟨rfl, -⟩
  · exact hs.installed.le.trans (Nat.le_succ _)
  · exact (registerCore_installed hr).2
  · exact absurd rfl hne

/-! ## Identities (R29) -/

/-- Every record that has an identity keeps it. -/
def KeepsIdents (c c' : Controller) : Prop := ∀ (d : Device) (x : Ident), c.identOf d = some x → c'.identOf d = some x

theorem KeepsIdents.of_idents {c c' : Controller} (h : c'.idents = c.idents) : KeepsIdents c c' := by
  intro d x hx
  rwa [Controller.identOf, h]

/-- R180: a commit gives the new record the identity of its place; an identity that is set comes first. -/
theorem commit_identOf (σ : State) (d d' : Device) (s : Fin 32) (p : Option (Fin 7)) (c : Cell) :
    (commit (lazyInit σ).draw d s p c).identOf d'
      = (σ.identOf d').or (if d'.ref = d.ref then some ⟨s, placementFn p⟩ else none) := by
  rw [← identOf_append, Controller.identOf, Controller.identOf, commit_idents, draw_toController, lazyInit_idents]

theorem registerCore_keepsIdents {σ τ : State} {d : Device} {req : Option Byte} {o : HostOutcome}
    (h : registerCore σ d req = .ok (τ, o)) : KeepsIdents σ.toController τ.toController := by
  rcases registerCore_cases h with ⟨_, _, rfl⟩ | ⟨_, _, rfl | rfl⟩ | ⟨s, p, c, _, _, _, _, _, rfl⟩
  · exact .of_idents rfl
  · exact .of_idents rfl
  · exact .of_idents rfl
  · intro d' x hx
    rw [commit_identOf, hx, Option.some_or]

theorem exec_keepsIdents {i : Instr} {s t : State} (h : exec i s = .next t) :
    KeepsIdents s.toController t.toController := by
  by_cases hi : isTeardown i = false
  · exact exec_devices_induction (P := KeepsIdents) (fun hs => .of_idents hs.idents)
      (fun h h' d x hx => h' d x (h d x hx)) registerCore_keepsIdents h hi
  · obtain ⟨-, he⟩ := exec_effect h
    cases he with
    | shutdown _ ht => subst ht; exact .of_idents rfl
    | destroy _ ht => subst ht; exact .of_idents rfl
    | idle _ _ _ hc _ => exact .of_idents (by rw [hc])
    | cell _ tg _ _ _ _ hc _ _ _ => exact .of_idents (by rw [hc])
    | latch | construct | register | queued | overflow => exact absurd rfl hi

/-- Settles O55: a step takes the transaction from the host's sequence, and then runs it or completes a narrow access. -/
theorem identityIsAssignedOnce : Obligations.IdentityIsAssignedOnce := by
  intro p s t d x h hx
  obtain ⟨tr, s', -, hs', ⟨i, -, hexec⟩ | ⟨write, w, -, hc, -⟩⟩ := stepWith_next h
  · exact exec_keepsIdents hexec d x (by rw [hs']; exact hx)
  · rw [hc, hs']; exact hx

/-! ## PHASE and LATCH (R21, R23) -/

/-- R178: no registration takes an existing controller away. -/
theorem registerCore_phase {σ τ : State} {d : Device} {req : Option Byte} {o : HostOutcome}
    (h : registerCore σ d req = .ok (τ, o)) (hp : σ.phase ≠ .absent) : τ.phase ≠ .absent := by
  rcases registerCore_cases h with ⟨_, _, rfl⟩ | ⟨_, _, rfl | rfl⟩ | ⟨s, p, c, _, _, _, _, _, rfl⟩
  · exact hp
  · exact hp
  · exact hp
  · rw [commit_phase, draw_toController, lazyInit_phase hp]
    exact nofun

theorem replay_phase {ds : List Device} {σ τ : State} (h : replay ds σ = .ok τ) (hp : σ.phase ≠ .absent) :
    τ.phase ≠ .absent :=
  replay_induction (P := fun σ τ => σ.phase ≠ .absent → τ.phase ≠ .absent) (fun _ h => h) (fun h h' hσ => h' (h hσ))
    registerCore_phase h hp

/-- R171: a replay leaves the latch and the pending transactions alone. -/
theorem replay_frame {ds : List Device} {σ τ : State} (h : replay ds σ = .ok τ) :
    τ.latch = σ.latch ∧ τ.input = σ.input :=
  replay_induction (P := fun σ τ => τ.latch = σ.latch ∧ τ.input = σ.input) (fun _ => ⟨rfl, rfl⟩)
    (fun h h' => ⟨h'.1.trans h.1, h'.2.trans h.2⟩)
    (fun hc => ⟨(registerCore_frame hc).1, (registerCore_frame hc).2.2.1⟩) h

/-- Settles O51: the guest's transactions and the callback write LATCH and STORE at most. -/
theorem phaseChangesOnlyByLifecycle : Obligations.PhaseChangesOnlyByLifecycle := by
  intro i s t h hi
  obtain ⟨-, he⟩ := exec_effect h
  cases he with
  | latch v _ ht => subst ht; rfl
  | idle _ _ _ hc _ => rw [hc]
  | cell _ tg _ _ _ _ hc _ _ _ => rw [hc]
  | construct | register | queued | overflow | shutdown | destroy => simp [isIo] at hi

/-- Settles O52: a registration leaves the latch alone (`registerCore_frame`), and so does what is no writer of it. -/
theorem latchIsWrittenOnlyByItsWriters : Obligations.LatchIsWrittenOnlyByItsWriters := by
  intro i s t h hwr hcon htd
  obtain ⟨-, he⟩ := exec_effect h
  cases he with
  | latch v => exact absurd rfl (hwr v)
  | idle _ _ _ hc _ => rw [hc]
  | cell _ tg _ _ _ _ hc _ _ _ => rw [hc]
  | construct => exact absurd rfl hcon
  | register d req υ o _ hr ht => subst ht; exact (registerCore_frame hr).1
  | queued d req _ _ ht => subst ht; rfl
  | overflow d req _ _ ht => subst ht; rfl
  | shutdown | destroy => cases htd

/-! ## What a transaction answers (R76, R211) -/

/-- R57: a read answers data. -/
theorem ioRead_result {w : Width} {body : State → Except Refusal (State × Word)} {s t : State}
    (h : ioRead w body s = .next t) (o : HostOutcome) : t.result ≠ .outcome o := by
  obtain ⟨-, ⟨-, υ, v, -, rfl⟩ | ⟨-, rfl⟩⟩ := ioRead_next h
  all_goals cases w <;> exact nofun

/-- A data-port write answers nothing. -/
theorem ioWrite_dataWrite_result {w : Width} {k : BitVec 2} {v : Word} {s t : State}
    (h : ioWrite (dataWrite w k v) s = .next t) : t.result = .nothing := by
  obtain ⟨-, ⟨-, hb⟩ | ⟨-, rfl⟩⟩ := ioWrite_next h
  · rcases dataWrite_cases hb with ⟨c, -, rfl⟩ | ⟨tg, -, -, ho⟩
    · rfl
    · exact ho.result
  · rfl

/-- Only a host command answers an outcome. -/
theorem exec_io_result {i : Instr} {s t : State} (h : exec i s = .next t) (hi : isIo i = true) (o : HostOutcome) :
    t.result ≠ .outcome o := by
  have hnothing (hr : t.result = .nothing) : t.result ≠ .outcome o := by rw [hr]; exact nofun
  cases i with
  | addrRd => exact ioRead_result (exec_addrRd s ▸ h) o
  | addrWr v =>
    obtain ⟨-, ⟨-, hb⟩ | ⟨-, rfl⟩⟩ := ioWrite_next (exec_addrWr v s ▸ h)
    · cases hb; exact hnothing rfl
    · exact hnothing rfl
  | dataRd8 k | dataRd16 k | dataRd32 k => exact ioRead_result h o
  | dataWr8 k v | dataWr16 k v | dataWr32 k v => exact hnothing (ioWrite_dataWrite_result h)
  | construct | register | shutdown | destroy | legacyCb => cases hi

/-- Only REGISTER answers an outcome other than Done and Handled. -/
theorem exec_outcome {i : Instr} {s t : State} {o : HostOutcome} (h : exec i s = .next t) (ho : t.result = .outcome o) :
    (∃ d req, i = .register d req) ∨ o = .done ∨ o = .handled Config.legacyCbResult := by
  by_cases hio : isIo i = true
  · exact absurd ho (exec_io_result h hio o)
  cases i with
  | register d req => exact .inl ⟨d, req, rfl⟩
  | construct =>
    obtain ⟨-, υ, o', hb, rfl⟩ := hostCommand_next (exec_construct s ▸ h)
    cases ho; exact .inr (.inl (constructBody_ok hb).2.1)
  | shutdown =>
    obtain ⟨-, υ, o', hb, rfl⟩ := hostCommand_next (exec_shutdown s ▸ h)
    unfold shutdownBody at hb
    split at hb <;> cases hb
    cases ho; exact .inr (.inl rfl)
  | destroy =>
    obtain ⟨-, υ, o', hb, rfl⟩ := hostCommand_next (exec_destroy s ▸ h)
    unfold destroyBody at hb
    split at hb <;> cases hb
    cases ho; exact .inr (.inl rfl)
  | legacyCb =>
    obtain ⟨-, υ, o', hb, rfl⟩ := hostCommand_next (exec_legacyCb s ▸ h)
    unfold legacyCbBody at hb
    split at hb <;> cases hb
    cases ho; exact .inr (.inr rfl)
  | addrRd | addrWr | dataRd8 | dataRd16 | dataRd32 | dataWr8 | dataWr16 | dataWr32 => exact absurd rfl hio

/-- What a REGISTER did: it queued the record or dropped it (R173), or it ran REGISTER_CORE (R172). -/
theorem exec_register_cases {d : Device} {req : Option Byte} {s t : State} (h : exec (.register d req) s = .next t) :
    (s.phase = .absent ∧ s.queue.length < Config.queueCap ∧
      t = ({ s.start with queue := s.queue ++ [d] } : State).answer (.outcome .queued)) ∨
    (s.phase = .absent ∧ t = s.start.answer (.outcome .queueOverflow)) ∨
    ∃ υ o, s.phase ≠ .absent ∧ registerCore s.start d req = .ok (υ, o) ∧ t = υ.answer (.outcome o) := by
  obtain ⟨-, he⟩ := exec_effect h
  cases he with
  | queued _ _ hp hq ht => exact .inl ⟨hp, hq, ht⟩
  | overflow _ _ hp _ ht => exact .inr (.inl ⟨hp, ht⟩)
  | register _ _ υ o hp hr ht => exact .inr (.inr ⟨υ, o, hp, hr, ht⟩)
  | idle _ hi => simp [isIo] at hi
  | cell _ tg hi => cases hi

/-- R181: what a registration that answers Rejected, QueueOverflow or Fatal leaves of the controller. -/
theorem exec_register_failed {d : Device} {req : Option Byte} {s t : State} (h : exec (.register d req) s = .next t) :
    (∀ reason, t.result = .outcome (.rejected reason) → t.toController = s.toController) ∧
    (t.result = .outcome .queueOverflow → t.toController = s.toController) ∧
    (∀ reason, t.result = .outcome (.fatal reason) → t.toController = { s.toController with fault := true }) := by
  rcases exec_register_cases h with ⟨-, -, rfl⟩ | ⟨-, rfl⟩ | ⟨υ, o, -, hr, rfl⟩
  · exact ⟨nofun, nofun, nofun⟩
  · exact ⟨nofun, fun _ => rfl, nofun⟩
  · rcases registerCore_cases hr with ⟨reason, rfl, rfl⟩ | ⟨reason, rfl, hυ⟩ | ⟨n, p, c, rfl, -⟩
    · exact ⟨nofun, nofun, fun _ _ => rfl⟩
    · refine ⟨fun _ _ => ?_, nofun, nofun⟩
      rcases hυ with rfl | rfl <;> rfl
    · exact ⟨nofun, nofun, nofun⟩

/-- Settles O44: only a REGISTER answers so (`exec_outcome`), and it ends before its commit. -/
theorem rejectedRegistrationChangesNothing : Obligations.RejectedRegistrationChangesNothing := by
  intro i s t h
  have hreg {o : HostOutcome} (ho : t.result = .outcome o) (hd : o ≠ .done) (hh : o ≠ .handled Config.legacyCbResult) :
      ∃ d req, i = .register d req := by
    rcases exec_outcome h ho with hr | ho | ho
    · exact hr
    · exact absurd ho hd
    · exact absurd ho hh
  refine ⟨fun reason ho => ?_, fun ho => ?_, fun reason ho => ?_⟩
  · obtain ⟨d, req, rfl⟩ := hreg ho nofun nofun
    exact (exec_register_failed h).1 reason ho
  · obtain ⟨d, req, rfl⟩ := hreg ho nofun nofun
    exact (exec_register_failed h).2.1 ho
  · obtain ⟨d, req, rfl⟩ := hreg ho nofun nofun
    exact (exec_register_failed h).2.2 reason ho

/-! ## FAULT (R22, R214) -/

/-- R214: FAULT is the first guard of every transaction. -/
theorem exec_fault (i : Instr) {s : State} (hf : s.fault = true) : exec i s = .refused .faultSet := by
  cases i with
  | addrRd => exact (exec_addrRd s).trans (ioRead_fault hf)
  | addrWr v => exact (exec_addrWr v s).trans (ioWrite_fault hf)
  | dataRd8 k => exact (exec_dataRd8 k s).trans (ioRead_fault hf)
  | dataRd16 k => exact (exec_dataRd16 k s).trans (ioRead_fault hf)
  | dataRd32 k => exact (exec_dataRd32 k s).trans (ioRead_fault hf)
  | dataWr8 k v => exact (exec_dataWr8 k v s).trans (ioWrite_fault hf)
  | dataWr16 k v => exact (exec_dataWr16 k v s).trans (ioWrite_fault hf)
  | dataWr32 k v => exact (exec_dataWr32 k v s).trans (ioWrite_fault hf)
  | construct => exact (exec_construct s).trans (hostCommand_fault hf)
  | register d req => exact (exec_register d req s).trans (hostCommand_fault hf)
  | shutdown => exact (exec_shutdown s).trans (hostCommand_fault hf)
  | destroy => exact (exec_destroy s).trans (hostCommand_fault hf)
  | legacyCb => exact (exec_legacyCb s).trans (hostCommand_fault hf)

/-- Settles O49: the guard refuses, a Fatal answer leaves FAULT set (O44), and `replay_stop` ends the drain. -/
theorem faultIsSticky : Obligations.FaultIsSticky := by
  refine ⟨fun i s hf => exec_fault i hf, fun i s t reason h ho => ?_, fun d ds s t o h hf => replay_stop h hf⟩
  rw [(rejectedRegistrationChangesNothing i s t h).2.2 reason ho]

/-- R174, R177: a registration sets FAULT only by answering Fatal. -/
theorem registerCore_sets_fault {σ τ : State} {d : Device} {req : Option Byte} {o : HostOutcome}
    (h : registerCore σ d req = .ok (τ, o)) (hσ : σ.fault = false) (hτ : τ.fault = true) : ∃ reason, o = .fatal reason := by
  rcases registerCore_cases h with ⟨reason, ho, -⟩ | ⟨_, _, rfl | rfl⟩ | ⟨s, p, c, _, _, _, _, _, rfl⟩
  · exact ⟨reason, ho⟩
  · simp [hσ] at hτ
  · simp [hσ] at hτ
  · simp [hσ] at hτ

/-- R171, R214: a replay that sets FAULT did so at one of its records, and the records before it did not. -/
theorem replay_sets_fault {ds : List Device} {σ τ : State} (h : replay ds σ = .ok τ) (hσ : σ.fault = false)
    (hτ : τ.fault = true) : ∃ (as rest : List Device) (d : Device) (u : State) (reason : FatalReason),
      ds = as ++ d :: rest ∧ replay as σ = .ok u ∧ u.fault = false ∧ registerCore u d none = .ok (τ, .fatal reason) := by
  induction ds generalizing σ with
  | nil => cases h; simp [hσ] at hτ
  | cons d ds ih =>
    cases hc : registerCore σ d none with
    | error e => rw [replay_error hc] at h; cases h
    | ok x =>
      obtain ⟨υ, o⟩ := x
      cases hυ : υ.fault with
      | true =>
        rw [replay_stop hc hυ] at h
        cases h
        obtain ⟨reason, rfl⟩ := registerCore_sets_fault hc hσ hτ
        exact ⟨[], ds, d, σ, reason, rfl, rfl, hσ, hc⟩
      | false =>
        rw [replay_continue hc hυ] at h
        obtain ⟨as, rest, d', u, reason, rfl, hr, hu, hd'⟩ := ih h hυ
        exact ⟨d :: as, rest, d', u, reason, rfl, (replay_continue hc hυ).trans hr, hu, hd'⟩

/-- Settles O50: only registrations write FAULT, and a replay that sets it stops there (`replay_sets_fault`). -/
theorem faultIsSetOnlyByRegistration : Obligations.FaultIsSetOnlyByRegistration := by
  intro i s t h ht
  obtain ⟨hf, he⟩ := exec_effect h
  cases he with
  | latch v _ hs => simp [hs, hf] at ht
  | idle _ _ _ hc _ => simp [hc, hf] at ht
  | cell _ tg _ _ _ _ hc _ _ _ => rw [hc] at ht; simp [hf] at ht
  | construct υ _ hr hs =>
    subst hs
    obtain ⟨as, rest, d, u, reason, hq, has, hu, hd⟩ := replay_sets_fault hr hf ht
    exact .inl ⟨rfl, as, rest, d, u, υ, reason, hq, has, hu, hd, rfl⟩
  | register d req υ o _ hr hs =>
    subst hs
    obtain ⟨reason, rfl⟩ := registerCore_sets_fault hr hf ht
    exact .inr ⟨d, req, rfl, reason, rfl⟩
  | queued d req _ _ hs => simp [hs, hf] at ht
  | overflow d req _ _ hs => simp [hs, hf] at ht
  | shutdown _ hs => simp [hs, hf] at ht
  | destroy _ hs => simp [hs, hf] at ht

end Sys2Proof.Machine
end

section
/-!
PROOFS. The router and resolution (10_state.md R33, 41_data_port.md R110 to R114): the device of a function by the cases of
its number, and the latches that resolve to it.
-/

namespace Sys2Proof.Machine

/-! ## The router (R33) -/

theorem devAt_of_empty {c : Controller} {n : Fin 32} (h : c.slotAt n = none) (f : Fin 8) : c.devAt n f = none := by
  simp [Controller.devAt, h]

/-- R33: function 0 is the primary. -/
@[simp] theorem devAt_zero (c : Controller) (n : Fin 32) : c.devAt n 0 = c.slotAt n := by
  by_cases h : c.slotAt n = none <;> simp [Controller.devAt, h]

/-- R33: function `i + 1` of an occupied slot is the secondary at index `i`, up to the count. -/
theorem devAt_succ {c : Controller} {n : Fin 32} (h : c.slotAt n ≠ none) (i : Fin 7) :
    c.devAt n i.succ = if i.val < (c.subCount n).val then c.subAt n i else none := by
  simp [Controller.devAt, h, Fin.le_def]

/-- A routed device's slot is occupied. -/
theorem slotAt_ne_none_of_devAt {c : Controller} {n : Fin 32} {f : Fin 8} {d : Device} (h : c.devAt n f = some d) :
    c.slotAt n ≠ none := fun hn => by rw [devAt_of_empty hn] at h; cases h

/-- A routed device's function is counted. -/
theorem le_subCount_of_devAt {c : Controller} {n : Fin 32} {f : Fin 8} {d : Device} (h : c.devAt n f = some d) :
    f ≤ c.subCount n := by
  have hslot := slotAt_ne_none_of_devAt h
  cases f using Fin.cases with
  | zero => exact Fin.zero_le _
  | succ i =>
    by_contra hle
    rw [devAt_succ hslot, if_neg (by rwa [Fin.le_def, Fin.val_succ, Nat.add_one_le_iff] at hle)] at h
    cases h

/-- R33: the device of a counted function of an occupied slot, by the cases of the function number. -/
theorem devAt_eq_some_iff {c : Controller} {n : Fin 32} {f : Fin 8} (h : c.slotAt n ≠ none) (hf : f ≤ c.subCount n)
    (d : Device) : c.devAt n f = some d ↔
      (f = 0 → c.slotAt n = some d) ∧ (∀ i : Fin 7, f = i.succ → c.subAt n i = some d) := by
  cases f using Fin.cases with
  | zero =>
    rw [devAt_zero]
    exact ⟨fun hd => ⟨fun _ => hd, fun i hi => absurd hi.symm (Fin.succ_ne_zero i)⟩, fun hd => hd.1 rfl⟩
  | succ i =>
    rw [devAt_succ h, if_pos (Nat.lt_of_succ_le hf)]
    exact ⟨fun hd => ⟨fun h0 => absurd h0 (Fin.succ_ne_zero i), fun j hj => Fin.succ_injective 7 hj ▸ hd⟩,
      fun hd => hd.2 i rfl⟩

/-! ## Resolution (R110) -/

/-- R114: the fourth check. -/
theorem resolve_noFunction {c : Controller} (he : latchEnabled c.latch = true) (hd : (latchDev c.latch).val < c.installed)
    (hs : c.slotAt (latchDev c.latch) ≠ none) (hf : c.subCount (latchDev c.latch) < latchFn c.latch) :
    c.resolve = .error .noOpNoFunction := by
  simp [Controller.resolve, he, Nat.not_le.mpr hd, hs, hf]

/-- R110: the latch resolves to the device that the router gives for it. -/
theorem resolve_eq_ok {c : Controller} {d : Device} (he : latchEnabled c.latch = true)
    (hd : (latchDev c.latch).val < c.installed) (hdev : c.devAt (latchDev c.latch) (latchFn c.latch) = some d) :
    c.resolve = .ok ⟨latchDev c.latch, latchFn c.latch, d⟩ := by
  have hs := slotAt_ne_none_of_devAt hdev
  have hf := le_subCount_of_devAt hdev
  simp [Controller.resolve, he, Nat.not_le.mpr hd, hs, Fin.not_lt.mpr hf, hdev]

/-- Settles O15: `resolve_ok` and its converse, the record by `devAt_eq_some_iff`; and the four failing checks. -/
theorem resolveChecksInOrder : Obligations.ResolveChecksInOrder := by
  refine fun c => ⟨fun t => ⟨fun h => ?_, fun h => ?_⟩, resolve_disabled, resolve_noDevice, resolve_emptySlot,
    resolve_noFunction⟩
  · obtain ⟨he, hslot, hfn, hlt, hocc, hle, hdev⟩ := resolve_ok h
    exact ⟨he, hslot, hfn, hlt, hocc, hle, (devAt_eq_some_iff hocc hle _).mp hdev⟩
  · obtain ⟨n, f, d⟩ := t
    obtain ⟨he, rfl, rfl, hlt, hocc, hle, hdev⟩ := h
    exact resolve_eq_ok he hlt ((devAt_eq_some_iff hocc hle d).mpr hdev)

/-- Settles O19: above the count the fourth check fails; function 0 and the last counted one are routed. -/
theorem functionAboveCountIsAbsorbed : Obligations.FunctionAboveCountIsAbsorbed := by
  intro s hf hp he hd hs
  refine ⟨fun hlt => noTargetIsAbsorbed s _ hf hp (resolve_noFunction he hd hs hlt), fun d h0 hdev => ?_,
    fun i d hi hcount hdev => ?_⟩
  · rw [← h0]
    exact resolve_eq_ok he hd (by rw [h0, devAt_zero, hdev])
  · rw [← hi]
    refine resolve_eq_ok he hd ?_
    rw [hi, devAt_succ hs, if_pos (by simp [hcount]), hdev]

end Sys2Proof.Machine
end

section
/-!
PROOFS. The invariant of the controller (10_state.md R24 to R29, 70_reset_and_hazards.md R242): it holds of every controller
without devices, every registration keeps it, and so does every step.
-/

namespace Sys2Proof.Machine

/-! ## Controllers without devices -/

/-- R39, R182: an empty slot table with a zero store meets the invariant. -/
theorem Inv.of_noDevices {s : State} (hslot : s.slot = Vector.replicate 32 none)
    (hsub : s.sub = Vector.replicate 32 (Vector.replicate 7 none)) (hnsub : s.nsub = Vector.replicate 32 0)
    (hinst : s.installed = 0) (hstore : s.store = []) (hphase : s.phase ≠ .init) (hlatch : s.latch = 0#32)
    (hqueue : s.queue = []) : Inv s := by
  have hempty (n : Fin 32) : s.slotAt n = none := by simp [Controller.slotAt, hslot]
  have hcount (n : Fin 32) : s.subCount n = 0 := by simp [Controller.subCount, hnsub]
  exact {
    storeWf := by rw [hstore]; rfl
    subFilled := fun n i => by simp [Controller.subAt, hsub, hcount]
    emptySlot := fun n _ => hcount n
    installedCount := by simp [hinst, hslot]
    initIffInstalled := by simp [hphase, hinst]
    latchIdle := fun _ => hlatch
    queueBound := by simp [hqueue]
    unroutedZero := fun n f _ r => by simp [State.readByte, hstore]
    routedIdent := fun n f d hd => absurd (hempty n) (slotAt_ne_none_of_devAt hd)
    queueAbsent := fun _ => hqueue }

/-- Settles O58: at power-on no device is installed. -/
theorem invariantHoldsAtReset : Obligations.InvariantHoldsAtReset :=
  Inv.of_noDevices rfl rfl rfl rfl rfl nofun rfl rfl

/-- The invariant speaks of the controller only. -/
theorem InvDrain.of_controller {s t : State} (h : InvDrain s) (hc : t.toController = s.toController) : InvDrain t := by
  obtain ⟨c, _, _, _, _⟩ := s
  obtain ⟨c', _, _, _, _⟩ := t
  cases hc
  exact { h with }

theorem Inv.of_controller {s t : State} (h : Inv s) (hc : t.toController = s.toController) : Inv t :=
  ⟨h.toInvDrain.of_controller hc, by rw [hc]; exact h.queueAbsent⟩

/-! ## The tentative state of a registration (R178) -/

/-- R178, R179: in the tentative state too, a cell that is routed to no device is zero. -/
theorem InvDrain.lazyInit_unroutedZero {σ : State} (h : InvDrain σ) {n : Fin 32} {f : Fin 8} (hd : σ.devAt n f = none)
    (r : Byte) : (lazyInit σ).readByte n f r = 0#8 := by
  rw [State.readByte, lazyInit_store]
  split
  · rfl
  · exact h.unroutedZero n f hd r

theorem InvDrain.lazyInit_storeWf {σ : State} (h : InvDrain σ) : (lazyInit σ).store.wf = true := by
  rw [lazyInit_store]
  split
  · exact wf_zero
  · exact h.storeWf

/-! ## The router after a commit (R180) -/

/-- R180: a commit routes its place to the new record, and no other function elsewhere. -/
theorem InvDrain.commit_devAt {σ : State} (h : InvDrain σ) {d : Device} {s : Fin 32} {p : Option (Fin 7)} {c : Cell}
    (hp : placement σ s = .ok p) (n : Fin 32) (f : Fin 8) :
    (commit (lazyInit σ).draw d s p c).devAt n f = if n = s ∧ f = placementFn p then some d else σ.devAt n f := by
  rcases placement_ok hp with ⟨rfl, hempty⟩ | ⟨i, rfl, hocc, hi, -⟩
  · have hslot := commit_primary_slotAt σ d s n c
    cases f using Fin.cases with
    | zero => simp [hslot, placementFn]
    | succ j =>
      rw [if_neg fun hc => Fin.succ_ne_zero j hc.2]
      by_cases hn : n = s
      · subst hn
        rw [devAt_succ (by simp [hslot]), commit_primary_subCount, h.emptySlot n hempty, devAt_of_empty hempty]
        simp
      · rw [if_neg hn] at hslot
        by_cases hσ : σ.slotAt n = none
        · rw [devAt_of_empty (hslot.trans hσ), devAt_of_empty hσ]
        · rw [devAt_succ (by rwa [hslot]), devAt_succ hσ, commit_primary_subCount, commit_primary_subAt]
  · have hslot := commit_secondary_slotAt σ d s n i c
    cases f using Fin.cases with
    | zero => simp [hslot, placementFn, (Fin.succ_ne_zero i).symm]
    | succ j =>
      simp only [placementFn, Fin.succ_inj]
      by_cases hσ : σ.slotAt n = none
      · have hn : n ≠ s := fun hn => hocc (hn ▸ hσ)
        rw [devAt_of_empty (hslot.trans hσ), devAt_of_empty hσ, if_neg fun hc => hn hc.1]
      · rw [devAt_succ (by rwa [hslot]), devAt_succ hσ, commit_secondary_subCount, commit_secondary_subAt]
        by_cases hn : n = s
        · subst hn
          by_cases hj : j = i
          · simp [hj]
          · have hlt : j.val < i.val + 1 ↔ j.val < (σ.subCount n).val := by
              have := Fin.val_ne_of_ne hj
              omega
            simp [hj, hlt]
        · simp [hn]

/-! ## INSTALLED counts the occupied slots (R26) -/

/-- A new primary is one more occupied slot. -/
theorem countP_set_some {c : Controller} {s : Fin 32} (d : Device) (h : c.slotAt s = none) :
    (c.slot.set s (some d)).toList.countP Option.isSome = c.slot.toList.countP Option.isSome + 1 := by
  have hget : c.slot.toList[s.val]'(by simp) = none := by simpa [Controller.slotAt] using h
  rw [Vector.toList_set, List.countP_set (by simp), hget]
  simp

/-- An occupied slot is counted. -/
theorem InvDrain.installed_pos {s : State} (h : InvDrain s) {n : Fin 32} (hn : s.slotAt n ≠ none) : 0 < s.installed := by
  rw [h.installedCount, List.countP_pos_iff]
  refine ⟨s.slotAt n, ?_, Option.isSome_iff_ne_none.mpr hn⟩
  simp [Controller.slotAt]

/-! ## Registrations keep the invariant -/

section Commit

variable {σ : State} {d : Device} {s : Fin 32} {p : Option (Fin 7)} (c : Cell)

/-- R25, R177: a new secondary takes the first index that is not filled. -/
theorem InvDrain.commit_subFilled (h : InvDrain σ) (hp : placement σ s = .ok p) (n : Fin 32) (j : Fin 7) :
    ((commit (lazyInit σ).draw d s p c).subAt n j).isSome = true ↔
      j.val < ((commit (lazyInit σ).draw d s p c).subCount n).val := by
  rcases placement_ok hp with ⟨rfl, -⟩ | ⟨i, rfl, -, hi, -⟩
  · rw [commit_primary_subAt, commit_primary_subCount]
    exact h.subFilled n j
  · rw [commit_secondary_subAt, commit_secondary_subCount]
    by_cases hn : n = s
    · subst hn
      by_cases hj : j = i
      · simp [hj]
      · have hne := Fin.val_ne_of_ne hj
        simp only [hj, and_false, if_false, if_true, Fin.val_succ, h.subFilled n j]
        omega
    · simpa [hn] using h.subFilled n j

/-- R25, R177: only an occupied slot gets a secondary. -/
theorem InvDrain.commit_emptySlot (h : InvDrain σ) (hp : placement σ s = .ok p) (n : Fin 32)
    (hn : (commit (lazyInit σ).draw d s p c).slotAt n = none) : (commit (lazyInit σ).draw d s p c).subCount n = 0 := by
  rcases placement_ok hp with ⟨rfl, -⟩ | ⟨i, rfl, hocc, -, -⟩
  · rw [commit_primary_slotAt] at hn
    rw [commit_primary_subCount]
    split at hn
    · cases hn
    · exact h.emptySlot n hn
  · rw [commit_secondary_slotAt] at hn
    have hne : n ≠ s := fun he => hocc (he ▸ hn)
    rw [commit_secondary_subCount, if_neg hne]
    exact h.emptySlot n hn

/-- R26: a primary is one more occupied slot and raises INSTALLED by 1. -/
theorem InvDrain.commit_installedCount (h : InvDrain σ) (hp : placement σ s = .ok p) :
    (commit (lazyInit σ).draw d s p c).installed =
      (commit (lazyInit σ).draw d s p c).slot.toList.countP Option.isSome := by
  rcases placement_ok hp with ⟨rfl, hempty⟩ | ⟨i, rfl, -, -, -⟩
  · rw [commit_primary]
    simp only [draw_toController, lazyInit_slot, lazyInit_installed]
    rw [countP_set_some d hempty, h.installedCount]
  · rw [commit_secondary]
    simp only [draw_toController, lazyInit_slot, lazyInit_installed]
    exact h.installedCount

/-- R178: a device is installed after a commit; a secondary's slot was occupied before. -/
theorem InvDrain.commit_installed_pos (h : InvDrain σ) (hp : placement σ s = .ok p) :
    0 < (commit (lazyInit σ).draw d s p c).installed := by
  simp only [commit_installed, draw_toController, lazyInit_installed]
  rcases placement_ok hp with ⟨rfl, -⟩ | ⟨i, rfl, hocc, -, -⟩
  · simp
  · simpa using h.installed_pos hocc

/-- R179: a commit writes the cell of its own place only. -/
theorem InvDrain.commit_unroutedZero (h : InvDrain σ) (hp : placement σ s = .ok p) (n : Fin 32) (f : Fin 8)
    (hd : (commit (lazyInit σ).draw d s p c).devAt n f = none) (r : Byte) :
    (commit (lazyInit σ).draw d s p c).readByte n f r = 0#8 := by
  rw [h.commit_devAt hp] at hd
  split at hd
  · cases hd
  next hplace =>
  rw [State.readByte, commit_store, read_setCell_outside _ _ _ _ _ (storeAddr_outside hplace r)]
  exact h.lazyInit_unroutedZero hd r

/-- R29, R180: the new record gets the identity of its place, and every other record keeps its own. -/
theorem InvDrain.commit_routedIdent (h : InvDrain σ) (hid : σ.identOf d = none) (hp : placement σ s = .ok p) (n : Fin 32)
    (f : Fin 8) (d' : Device) (hd : (commit (lazyInit σ).draw d s p c).devAt n f = some d') :
    (commit (lazyInit σ).draw d s p c).identOf d' = some ⟨n, f⟩ := by
  rw [h.commit_devAt hp] at hd
  rw [commit_identOf]
  split at hd
  next hplace =>
    obtain ⟨rfl, rfl⟩ := hplace
    cases hd
    simp [hid]
  next => rw [h.routedIdent n f d' hd, Option.some_or]

/-- R180: a commit keeps the invariant. -/
theorem InvDrain.commit (h : InvDrain σ) (hphase : σ.phase ≠ .absent) (hid : σ.identOf d = none)
    (hp : placement σ s = .ok p) : InvDrain (commit (lazyInit σ).draw d s p c) := by
  have hinit : (Machine.commit (lazyInit σ).draw d s p c).phase = .init := by
    rw [commit_phase, draw_toController, lazyInit_phase hphase]
  exact {
    storeWf := by rw [commit_store]; exact wf_setCell h.lazyInit_storeWf ..
    subFilled := h.commit_subFilled c hp
    emptySlot := h.commit_emptySlot c hp
    installedCount := h.commit_installedCount c hp
    initIffInstalled := iff_of_true hinit (h.commit_installed_pos c hp)
    latchIdle := fun hne => absurd hinit hne
    queueBound := by rw [commit_queue, draw_toController, lazyInit_queue]; exact h.queueBound
    unroutedZero := h.commit_unroutedZero c hp
    routedIdent := h.commit_routedIdent c hid hp }

end Commit

/-- A registration on an existing controller keeps the invariant. -/
theorem InvDrain.registerCore {σ τ : State} (h : InvDrain σ) (hphase : σ.phase ≠ .absent) {d : Device} {req : Option Byte}
    {o : HostOutcome} (hr : registerCore σ d req = .ok (τ, o)) : InvDrain τ := by
  rcases registerCore_cases hr with ⟨_, _, rfl⟩ | ⟨_, _, rfl | rfl⟩ | ⟨s, p, c, _, hid, _, hp, _, rfl⟩
  · exact { h with }
  · exact h
  · exact { h with }
  · exact h.commit c hphase hid hp

/-- R171: a replay keeps the invariant. -/
theorem InvDrain.replay {σ τ : State} {ds : List Device} (h : InvDrain σ) (hphase : σ.phase ≠ .absent)
    (hr : replay ds σ = .ok τ) : InvDrain τ := by
  have hkept := replay_induction (P := fun σ τ => InvDrain σ ∧ σ.phase ≠ .absent → InvDrain τ ∧ τ.phase ≠ .absent)
    (fun _ h => h) (fun h h' hσ => h' (h hσ))
    (fun hc hσ => ⟨hσ.1.registerCore hσ.2 hc, registerCore_phase hc hσ.2⟩) hr ⟨h, hphase⟩
  exact hkept.1

/-- R170: the state in which a drain begins meets the invariant but for its queue. -/
theorem Inv.drainStart {s : State} (h : Inv s) (hp : s.phase = .absent) : InvDrain (Claims.drainStart s) := by
  have hnone : ¬0 < s.installed := fun hpos => by simpa [hp] using h.initIffInstalled.mpr hpos
  exact { h.toInvDrain with initIffInstalled := ⟨nofun, fun hpos => absurd hpos hnone⟩, latchIdle := fun _ => rfl }

/-! ## Every transaction and every step keeps it -/

/-- A data-port access writes the cell of a routed device only (R32, R110). -/
theorem Inv.cell {s t : State} (h : Inv s) {tg : Target} (htg : s.resolve = .ok tg)
    (hc : t.toController = { s.toController with store := t.store })
    (hout : ∀ a, a < storeAddr tg.slot tg.fn 0#8 ∨ storeAddr tg.slot tg.fn 0#8 + 256 ≤ a → t.store.read a = s.store.read a)
    (hwf : s.store.wf = true → t.store.wf = true) : Inv t := by
  obtain ⟨-, -, -, -, -, -, hdev⟩ := resolve_ok htg
  have hs : InvDrain ({ s with store := t.store } : State) := { h.toInvDrain with
    storeWf := hwf h.storeWf
    unroutedZero := fun n f hd r => by
      have hne : ¬(n = tg.slot ∧ f = tg.fn) := fun he => by
        have hnone : s.devAt n f = none := hd
        rw [he.1, he.2, hdev] at hnone
        cases hnone
      exact (hout _ (storeAddr_outside hne r)).trans (h.unroutedZero n f hd r) }
  exact ⟨hs.of_controller hc, by rw [hc]; exact h.queueAbsent⟩

theorem Inv.exec {i : Instr} {s t : State} (h : Inv s) (he : exec i s = .next t) : Inv t := by
  obtain ⟨-, heff⟩ := exec_effect he
  cases heff with
  | latch v hp ht => subst ht; exact { h with latchIdle := fun hne => absurd hp hne }
  | idle _ _ _ hc _ => exact h.of_controller hc
  | cell _ tg _ _ _ htg hc _ hout hwf => exact h.cell htg hc hout hwf
  | construct υ hp hr ht =>
    subst ht
    have hυ := (h.drainStart hp).replay nofun hr
    exact ⟨{ hυ with queueBound := Nat.zero_le _ }, fun _ => rfl⟩
  | register d req υ o hp hr ht =>
    subst ht
    have hυ := (h.toInvDrain.of_controller (start_toController s)).registerCore hp hr
    exact ⟨hυ.of_controller rfl, fun _ => (registerCore_frame hr).2.1.trans (h.queueAbsent hp)⟩
  | queued d req hp hq ht =>
    subst ht
    exact ⟨{ h.toInvDrain with queueBound := by simpa using hq }, fun hne => absurd hp hne⟩
  | overflow d req hp hq ht => subst ht; exact h.of_controller rfl
  | shutdown hp ht => subst ht; exact .of_noDevices rfl rfl rfl rfl rfl nofun rfl rfl
  | destroy hp ht => subst ht; exact .of_noDevices rfl rfl rfl rfl rfl nofun rfl rfl

theorem Inv.stepWith {p : Params} {s t : State} (h : Inv s) (hs : stepWith p s = .next t) : Inv t := by
  obtain ⟨tr, s', -, hs', ⟨i, -, hexec⟩ | ⟨write, w, -, hc, -⟩⟩ := stepWith_next hs
  · exact (h.of_controller (by rw [hs'])).exec hexec
  · exact h.of_controller (by rw [hc, hs'])

/-- Settles O59: `Inv.stepWith`, from `Inv.exec` for an instruction; a narrow access leaves the controller alone. -/
theorem invariantIsKeptByEveryStep : Obligations.InvariantIsKeptByEveryStep :=
  ⟨fun _ _ _ h hs => h.stepWith hs, fun _ _ h hs => h.stepWith (p := Config.params) hs⟩

/-! ## What the invariant says of the initialisation (R179, R242) -/

/-- Settles O57: the place is routed to no device, so its cell in the tentative state is zero; and a drain keeps `InvDrain`. -/
theorem initHookSeesAZeroCell : Obligations.InitHookSeesAZeroCell := by
  refine ⟨fun s n p h _ hp r => h.lazyInit_unroutedZero (placement_unrouted hp) r,
    fun s u ds rest n p h habs _ hr hp r => ?_⟩
  exact ((h.drainStart habs).replay nofun hr).lazyInit_unroutedZero (placement_unrouted hp) r

/-- Settles O56: CONSTRUCT clears the latch, and a registration leaves it as it was in the idle block, at 0. -/
theorem latchIsZeroWhenInitIsEntered : Obligations.LatchIsZeroWhenInitIsEntered := by
  intro i s t h he hs ht
  obtain ⟨-, heff⟩ := exec_effect he
  cases heff with
  | latch v hp _ => exact absurd hp hs
  | idle _ _ _ hc _ => exact absurd (hc ▸ ht) hs
  | cell _ tg _ _ hp _ _ _ _ _ => exact absurd hp hs
  | construct υ _ hr hυ => subst hυ; exact (replay_frame hr).1
  | register d req υ o _ hr hυ => subst hυ; exact (registerCore_frame hr).1.trans (h.latchIdle hs)
  | queued d req hp _ hυ => subst hυ; exact h.latchIdle hs
  | overflow d req hp _ hυ => subst hυ; exact h.latchIdle hs
  | shutdown _ hυ => subst hυ; rfl
  | destroy _ hυ => subst hυ; rfl

end Sys2Proof.Machine
end

section
/-!
PROOFS. The lifecycle commands and REGISTER_CORE case by case (43_lifecycle.md R170 to R185): what each check answers, the
commit of a registration in full, CONSTRUCT as the replay of its queue, and SHUTDOWN, DESTROY and LEGACY_CB.
-/

namespace Sys2Proof.Machine

open Sys2Proof.Claims

/-! ## The frame of a host command (R76, R214) -/

theorem hostCommand_of_ok {body : State → Except Refusal (State × HostOutcome)} {s τ : State} {o : HostOutcome}
    (hf : s.fault = false) (hb : body s.start = .ok (τ, o)) : hostCommand body s = .next (τ.answer (.outcome o)) := by
  rw [hostCommand_free hf, hb]

theorem hostCommand_of_error {body : State → Except Refusal (State × HostOutcome)} {s : State} {e : Refusal}
    (hf : s.fault = false) (hb : body s.start = .error e) : hostCommand body s = .refused e := by
  rw [hostCommand_free hf, hb]

/-! ## SHUTDOWN, DESTROY and LEGACY_CB (R182 to R185) -/

theorem exec_shutdown_ok {s : State} (hf : s.fault = false) (hp : s.phase ≠ .absent) :
    exec .shutdown s = .next ((teardown s.start).answer (.outcome .done)) :=
  hostCommand_of_ok hf (if_neg hp)

theorem exec_shutdown_absent {s : State} (hf : s.fault = false) (hp : s.phase = .absent) :
    exec .shutdown s = .refused .controllerAbsent :=
  hostCommand_of_error hf (if_pos hp)

/-- Settles O45: R182's two cases, the reset state written out. -/
theorem shutdownResets : Obligations.ShutdownResets :=
  fun _ hf => ⟨rfl, exec_shutdown_ok hf, exec_shutdown_absent hf⟩

/-- R182: a SHUTDOWN that completes was issued to an existing controller. -/
theorem exec_shutdown_inv {s t : State} (h : exec .shutdown s = .next t) :
    s.fault = false ∧ t = (teardown s.start).answer (.outcome .done) := by
  obtain ⟨hf, he⟩ := exec_effect h
  cases he with
  | idle _ hi => simp [isIo] at hi
  | cell _ _ hi => cases hi
  | shutdown _ ht => exact ⟨hf, ht⟩

/-- Settles O46: the teardown of a torn-down controller is that controller, which is the power-on one but for PHASE. -/
theorem shutdownIsIdempotent : Obligations.ShutdownIsIdempotent := by
  intro s t h
  obtain ⟨hf, rfl⟩ := exec_shutdown_inv h
  refine ⟨exec_shutdown_ok hf nofun, ?_⟩
  simp [teardown, Controller.powerOn, Memory.zero, hf]

theorem exec_destroy_ok {s : State} (hf : s.fault = false) (hp : s.phase ≠ .absent) :
    exec .destroy s = .next (({ teardown s.start with phase := .absent } : State).answer (.outcome .done)) :=
  hostCommand_of_ok hf (if_neg hp)

theorem exec_destroy_absent {s : State} (hf : s.fault = false) (hp : s.phase = .absent) :
    exec .destroy s = .refused .controllerAbsent :=
  hostCommand_of_error hf (if_pos hp)

/-- Settles O47: DESTROY is the teardown of `exec_shutdown_ok` with PHASE = Absent. -/
theorem destroyIsShutdownThenAbsent : Obligations.DestroyIsShutdownThenAbsent :=
  fun _ hf => ⟨rfl, fun hp => ⟨_, exec_shutdown_ok hf hp, exec_destroy_ok hf hp⟩, exec_destroy_absent hf⟩

theorem exec_legacyCb_init {s : State} (hf : s.fault = false) (hp : s.phase = .init) :
    exec .legacyCb s = .next (s.start.answer (.outcome (.handled Config.legacyCbResult))) :=
  hostCommand_of_ok hf (if_pos hp)

theorem exec_legacyCb_refused {s : State} (hf : s.fault = false) (hp : s.phase ≠ .init) :
    exec .legacyCb s = .refused .callbackNotInstalled :=
  hostCommand_of_error hf (if_neg hp)

/-- Settles O48: the callback is installed in Init only. -/
theorem legacyCallbackIsHandled : Obligations.LegacyCallbackIsHandled :=
  fun _ hf => ⟨rfl, exec_legacyCb_init hf, exec_legacyCb_refused hf⟩

/-! ## CONSTRUCT (R170, R171) -/

theorem constructBody_of_replay {σ υ : State} (hp : σ.phase = .absent)
    (hr : replay σ.queue { σ with phase := .uninit, latch := 0#32 } = .ok υ) :
    constructBody σ = .ok ({ υ with queue := [] }, .done) := by
  rw [constructBody, if_pos hp, hr]

theorem constructBody_of_replay_error {σ : State} {e : Refusal} (hp : σ.phase = .absent)
    (hr : replay σ.queue { σ with phase := .uninit, latch := 0#32 } = .error e) : constructBody σ = .error e := by
  rw [constructBody, if_pos hp, hr]

/-- CONSTRUCT ends as the replay of the queue ends. -/
theorem exec_construct_of_replay {s v : State} (hf : s.fault = false) (hp : s.phase = .absent)
    (hr : replay s.queue (drainStart s) = .ok v) :
    exec .construct s = .next { v with queue := [], result := .outcome .done } :=
  hostCommand_of_ok hf (constructBody_of_replay (σ := s.start) hp hr)

theorem exec_construct_of_replay_error {s : State} {e : Refusal} (hf : s.fault = false) (hp : s.phase = .absent)
    (hr : replay s.queue (drainStart s) = .error e) : exec .construct s = .refused e :=
  hostCommand_of_error hf (constructBody_of_replay_error (σ := s.start) hp hr)

theorem exec_construct_exists {s : State} (hf : s.fault = false) (hp : s.phase ≠ .absent) :
    exec .construct s = .refused .controllerExists :=
  hostCommand_of_error hf (if_neg hp)

/-- Settles O34: the replay of an empty queue ends where it begins. -/
theorem constructCreatesTheController : Obligations.ConstructCreatesTheController := by
  refine fun s hf => ⟨rfl, fun hp hq => ?_, exec_construct_exists hf⟩
  rw [exec_construct_of_replay hf hp (v := drainStart s) (by rw [hq, replay])]
  simp [drainStart, hq]

/-! ## REGISTER_CORE, check by check (R174 to R179, R218) -/

theorem registerCore_registered {σ : State} {d : Device} {req : Option Byte} (hi : σ.identOf d ≠ none) :
    registerCore σ d req = .ok (σ.raiseFatal, .fatal .alreadyRegistered) := if_pos hi

/-- R175, R176: the slot that the registration asks for is the one it gets. -/
theorem pickSlot_of_asksFor {s : State} {req : Option Byte} {n : Fin 32} (h : AsksFor s req n) : pickSlot s req = .ok n := by
  cases req with
  | none => exact (pickSlot_auto s n).mpr (h.2 rfl).symm
  | some m => exact (pickSlot_explicit s m n).mpr (h.1 m rfl).symm

theorem pickSlot_noFreeSlot {s : State} (h : 32 ≤ s.installed) : pickSlot s none = .error (.rejected .noFreeSlot) := by
  simp [pickSlot, Nat.not_lt.mpr h]

theorem registerCore_of_placement_error {σ : State} {d : Device} {req : Option Byte} {n : Fin 32} {o : HostOutcome}
    (hi : σ.identOf d = none) (hn : pickSlot σ req = .ok n) (ho : placement σ n = .error o) :
    registerCore σ d req = .ok (abandon σ o) := by
  simp [registerCore, hi, hn, ho]

/-- R179: a registration that passes its checks ends where its initialisation ends. -/
theorem registerCore_of_placement {σ : State} {d : Device} {req : Option Byte} {n : Fin 32} {p : Option (Fin 7)}
    (hi : σ.identOf d = none) (hn : pickSlot σ req = .ok n) (hp : placement σ n = .ok p) :
    registerCore σ d req = initAndCommit σ d n p := by
  simp [registerCore, hi, hn, hp]

theorem placement_primary {s : State} {n : Fin 32} (h : s.slotAt n = none) : placement s n = .ok none := if_pos h

/-- R177: the count is the index of the first free entry. -/
theorem placement_secondary {s : State} {n : Fin 32} {i : Fin 7} (h : s.slotAt n ≠ none) (hc : s.subCount n = i.castSucc)
    (he : s.subAt n i = none) : placement s n = .ok (some i) := by
  simp [placement, h, hc, he]

theorem placement_occupied {s : State} {n : Fin 32} {i : Fin 7} (h : s.slotAt n ≠ none) (hc : s.subCount n = i.castSucc)
    (he : s.subAt n i ≠ none) : placement s n = .error (.fatal .subfunctionOccupied) := by
  simp [placement, h, hc, he]

theorem placement_full {s : State} {n : Fin 32} (h : s.slotAt n ≠ none) (hc : s.subCount n = 7) :
    placement s n = .error (.rejected .functionsFull) := by
  simp [placement, h, hc]

/-- R178: the cell of a place in the tentative state. -/
theorem lazyInit_cell (s : State) (n : Fin 32) (f : Fin 8) : (lazyInit s).cell n f = startCell s n f := by
  funext r
  rw [State.cell, lazyInit_store, startCell]
  split <;> rfl

theorem initAndCommit_commits {σ : State} {d : Device} {n : Fin 32} {p : Option (Fin 7)} {c : Cell}
    (h : runInit d.init (Config.envDraw σ.draws) (startCell σ n (placementFn p)) = some (some c)) :
    initAndCommit σ d n p = .ok (commit (lazyInit σ).draw d n p c, .ok n) := by
  rw [initAndCommit, lazyInit_cell, h]

theorem initAndCommit_failed {σ : State} {d : Device} {n : Fin 32} {p : Option (Fin 7)}
    (h : runInit d.init (Config.envDraw σ.draws) (startCell σ n (placementFn p)) = some none) :
    initAndCommit σ d n p = .ok (σ.draw, .rejected .initFailed) := by
  rw [initAndCommit, lazyInit_cell, h]

theorem initAndCommit_unconfined {σ : State} {d : Device} {n : Fin 32} {p : Option (Fin 7)}
    (h : runInit d.init (Config.envDraw σ.draws) (startCell σ n (placementFn p)) = none) :
    initAndCommit σ d n p = .error .hookUnconfined := by
  rw [initAndCommit, lazyInit_cell, h]

/-! ## REGISTER (R172) -/

theorem exec_register_absent {s : State} {d : Device} {req : Option Byte} (hf : s.fault = false) (hp : s.phase = .absent) :
    exec (.register d req) s = .next ((enqueue s.start d).1.answer (.outcome (enqueue s.start d).2)) :=
  hostCommand_of_ok hf (if_pos hp)

theorem exec_register_of_core_error {s : State} {d : Device} {req : Option Byte} {e : Refusal} (hf : s.fault = false)
    (hp : s.phase ≠ .absent) (hc : registerCore s.start d req = .error e) : exec (.register d req) s = .refused e :=
  hostCommand_of_error hf ((if_neg hp).trans hc)

/-- Settles O38: ENQUEUE with room and on a full queue. -/
theorem registerWhileAbsentQueues : Obligations.RegisterWhileAbsentQueues := by
  refine fun s d req hf hp => ⟨fun hq => ?_, fun hq => ?_⟩
  · rw [exec_register_absent hf hp, enqueue_room (σ := s.start) hq]; rfl
  · rw [exec_register_absent hf hp, enqueue_full (σ := s.start) (Nat.not_lt.mpr hq)]; rfl

/-- Settles O39: the first check of REGISTER_CORE. -/
theorem reRegistrationIsFatal : Obligations.ReRegistrationIsFatal :=
  fun s _ _ hf hp hi => exec_register_of_core hf hp (registerCore_registered (σ := s.start) hi)

/-- Settles O41: the slot is picked, then the placement is looked at, and both end the registration before its hook. -/
theorem registrationChecksRejectInOrder : Obligations.RegistrationChecksRejectInOrder := by
  intro s d req hf hp hi
  refine ⟨fun hreq hfull => ?_, fun n hn hs hc => ?_, fun n i hn hs hc he => ?_⟩
  · subst hreq
    exact exec_register_of_core hf hp (registerCore_of_pickSlot_error (σ := s.start) hi (pickSlot_noFreeSlot hfull))
  · exact exec_register_of_core hf hp
      (registerCore_of_placement_error (σ := s.start) hi (pickSlot_of_asksFor hn) (placement_full hs hc))
  · exact exec_register_of_core hf hp
      (registerCore_of_placement_error (σ := s.start) hi (pickSlot_of_asksFor hn) (placement_occupied hs hc he))

/-- R180: what a commit leaves in every cell. -/
theorem commit_cell_same (σ : State) (d : Device) (n : Fin 32) (p : Option (Fin 7)) (c : Cell) :
    (commit (lazyInit σ).draw d n p c).cell n (placementFn p) = c := by
  rw [State.cell, commit_store, cell_setCell_same]

theorem commit_cell_other (σ : State) (d : Device) {n n' : Fin 32} (p : Option (Fin 7)) {f' : Fin 8} (c : Cell)
    (h : ¬(n' = n ∧ f' = placementFn p)) : (commit (lazyInit σ).draw d n p c).cell n' f' = startCell σ n' f' := by
  rw [State.cell, commit_store, cell_setCell_other _ c h]
  exact lazyInit_cell σ n' f'

/-- R180: a registration whose checks pass and whose `init` succeeds commits the record at its place. -/
theorem commitsAt_of_init {s : State} {d : Device} {req : Option Byte} {n : Fin 32} {p : Option (Fin 7)} {c : Cell}
    (hf : s.fault = false) (hphase : s.phase ≠ .absent) (hi : s.identOf d = none) (hn : AsksFor s req n)
    (hp : placement s.start n = .ok p)
    (hc : runInit d.init (Config.envDraw s.draws) (startCell s n (placementFn p)) = some (some c)) {t : State}
    (ht : t = commit (lazyInit s.start).draw d n p c) :
    CommitsAt s d req n (placementFn p) c t.slot t.sub t.nsub t.installed := by
  subst ht
  have hcore : registerCore s.start d req = .ok (commit (lazyInit s.start).draw d n p c, .ok n) :=
    (registerCore_of_placement (σ := s.start) hi (pickSlot_of_asksFor hn) hp).trans (initAndCommit_commits hc)
  have hident (d' : Device) := commit_identOf s.start d d' n p c
  refine ⟨_, exec_register_of_core hf hphase hcore, rfl, ?_, ?_, ?_, rfl, rfl, rfl, rfl, ?_, ?_, fun d' hd' => ?_,
    commit_cell_same s.start d n p c, fun n' f' h => commit_cell_other s.start d p c h, ?_, ?_, ?_⟩
  · simp [lazyInit_phase (σ := s.start) hphase]
  · simp [hf]
  · simp
  · simp
  · exact (hident d).trans (by simp [hi])
  · exact (hident d').trans (by simp [hd'])
  · simp
  · simp
  · simp

/-- Settles O42: `commitsAt_of_init` at each of the two placements, the slot table written out. -/
theorem registrationCommits : Obligations.RegistrationCommits := by
  intro s d req n c hf hphase hi hn
  refine ⟨fun hs hc => ?_, fun i hs hcount he hc => ?_⟩
  · have h := commitsAt_of_init hf hphase hi hn (placement_primary (s := s.start) hs) hc rfl
    simpa [commit_primary, placementFn] using h
  · have h := commitsAt_of_init hf hphase hi hn (placement_secondary (s := s.start) hs hcount he) hc rfl
    simpa [commit_secondary, placementFn] using h

/-- Settles O43: the registration passes its checks at either placement, and ends where its `init` hook ends. -/
theorem failedInitChangesNothing : Obligations.FailedInitChangesNothing := by
  intro s d req n f hf hphase hi hn hplace
  obtain ⟨p, hp, rfl⟩ : ∃ p, placement s.start n = .ok p ∧ f = placementFn p := by
    rcases hplace with ⟨hs, rfl⟩ | ⟨i, hs, hc, he, rfl⟩
    · exact ⟨none, placement_primary (s := s.start) hs, rfl⟩
    · exact ⟨some i, placement_secondary (s := s.start) hs hc he, rfl⟩
  have hcore := registerCore_of_placement (σ := s.start) hi (pickSlot_of_asksFor hn) hp
  exact ⟨fun hc => exec_register_of_core hf hphase (hcore.trans (initAndCommit_failed hc)),
    fun hc => exec_register_of_core_error hf hphase (hcore.trans (initAndCommit_unconfined hc))⟩

/-! ## The drain (R171) -/

/-- A registration whose `init` hook keeps R32 completes. -/
theorem registerCore_isOk {d : Device} (hc : d.init ≠ .unconfined) (σ : State) (req : Option Byte) :
    ∃ τ o, registerCore σ d req = .ok (τ, o) := by
  unfold registerCore
  split
  · exact ⟨_, _, rfl⟩
  split
  · exact ⟨_, _, rfl⟩
  next n hn =>
  split
  · exact ⟨_, _, rfl⟩
  next p hp =>
  obtain ⟨res, hres⟩ := runInit_isSome hc (Config.envDraw σ.draws) (startCell σ n (placementFn p))
  cases res with
  | none => exact ⟨_, _, initAndCommit_failed hres⟩
  | some c => exact ⟨_, _, initAndCommit_commits hres⟩

theorem replay_isOk {ds : List Device} (hc : ∀ d ∈ ds, d.init ≠ .unconfined) (σ : State) : ∃ τ, replay ds σ = .ok τ := by
  induction ds generalizing σ with
  | nil => exact ⟨σ, rfl⟩
  | cons d ds ih =>
    obtain ⟨τ, o, hτ⟩ := registerCore_isOk (hc d (by simp)) σ none
    cases hfault : τ.fault with
    | true => exact ⟨τ, replay_stop hτ hfault⟩
    | false => exact replay_continue hτ hfault ▸ ih (fun d' hd' => hc d' (by simp [hd'])) τ

/-- Settles O35: the replay completes (`replay_isOk`) and leaves PHASE and LATCH as R170 set them or initialised. -/
theorem constructDrainsTheQueue : Obligations.ConstructDrainsTheQueue := by
  intro s hf hp hc
  obtain ⟨v, hv⟩ := replay_isOk hc (drainStart s)
  obtain ⟨hlatch, hinput⟩ := replay_frame hv
  have hphase : v.phase ≠ .absent := replay_phase hv nofun
  exact ⟨_, exec_construct_of_replay hf hp hv, rfl, rfl, hphase, hlatch, hinput⟩

/-- R181: a rejected registration leaves the controller alone. -/
theorem registerCore_rejected {σ τ : State} {d : Device} {req : Option Byte} {reason : RejectReason}
    (h : registerCore σ d req = .ok (τ, .rejected reason)) : τ.toController = σ.toController := by
  rcases registerCore_cases h with ⟨_, ho, _⟩ | ⟨_, _, rfl | rfl⟩ | ⟨s, p, c, ho, _⟩
  · cases ho
  · rfl
  · rfl
  · cases ho

/-- Settles O37: the replay of the whole queue is the replay of the rest from where its first part ended (`replay_append`). -/
theorem drainGoesOnPastARejection : Obligations.DrainGoesOnPastARejection := by
  intro s u ds rest d hf hp hq hu hfu
  have hdrain : replay s.queue (drainStart s) = replay (d :: rest) u := by rw [hq, replay_append hu hfu]
  refine ⟨fun t reason hc => registerCore_rejected hc, fun t o hc hft => ⟨fun v hv => ?_, fun e he => ?_⟩,
    fun t o hc hft => ?_, fun e hc => ?_⟩
  · exact exec_construct_of_replay hf hp (by rw [hdrain, replay_continue hc hft, hv])
  · exact exec_construct_of_replay_error hf hp (by rw [hdrain, replay_continue hc hft, he])
  · exact exec_construct_of_replay hf hp (by rw [hdrain, replay_stop hc hft])
  · exact exec_construct_of_replay_error hf hp (by rw [hdrain, replay_error hc])

end Sys2Proof.Machine
end

section
/-!
PROOFS. The queue's replay on an empty slot table (43_lifecycle.md R188, R171): after each record of the queue, those so
far whose `init` succeeded hold the slots 0, 1, 2, ..., and the other records left nothing but a spent draw.
-/

namespace Sys2Proof.Machine

open Sys2Proof.Claims

/-- The element at index `j` that passes the filter stands behind the earlier ones that do. -/
theorem getElem?_filter_of_take {α : Type} {p : α → Bool} {l : List α} {j : Nat} {a : α} (h : l[j]? = some a)
    (hp : p a = true) : (l.filter p)[((l.take j).filter p).length]? = some a := by
  obtain ⟨hj, rfl⟩ := List.getElem?_eq_some_iff.mp h
  have hsplit : l.filter p = (l.take j).filter p ++ l[j] :: (l.drop (j + 1)).filter p := by
    rw [← List.filter_cons_of_pos hp, ← List.filter_append, List.getElem_cons_drop, List.take_append_drop]
  rw [hsplit, List.getElem?_append_right (Nat.le_refl _), Nat.sub_self]
  rfl

/-- The zero cell, which every `init` hook of the replay sees (R179). -/
def zeroCell : Cell := fun _ => 0#8

/-- What R188 asks of the state in which CONSTRUCT is issued; `ok` tells which records' `init` succeeds. -/
structure QueueReady (s : State) (ok : Device → Bool) : Prop where
  fault : s.fault = false
  empty : ∀ n : Fin 32, s.slotAt n = none
  installed : s.installed = 0
  bound : s.queue.length ≤ Config.queueCap
  distinct : (s.queue.map Device.ref).Nodup
  fresh : ∀ d ∈ s.queue, s.identOf d = none
  init : ∀ (j : Nat) (d : Device), s.queue[j]? = some d → ∃ res,
    runInit d.init (Config.envDraw (s.draws + j)) zeroCell = some res ∧ ok d = res.isSome

/-- The state `u` after the replay of the records `ds`, from the state in which the drain of `s` begins. -/
structure Drained (s : State) (ok : Device → Bool) (ds : List Device) (u : State) : Prop where
  fault : u.fault = false
  phase : u.phase = if ds.filter ok = [] then .uninit else .init
  installed : u.installed = (ds.filter ok).length
  sub : u.sub = s.sub
  nsub : u.nsub = s.nsub
  draws : u.draws = s.draws + ds.length
  slotAt : ∀ n : Fin 32, u.slotAt n = (ds.filter ok)[n.val]?
  others : ∀ d, (∀ d' ∈ ds, ok d' = true → d.ref ≠ d'.ref) → u.identOf d = s.identOf d
  placed : ∀ (j : Nat) (n : Fin 32) (d : Device), ds[j]? = some d → ok d = true →
    n.val = ((ds.take j).filter ok).length → u.identOf d = some ⟨n, 0⟩ ∧
      runInit d.init (Config.envDraw (s.draws + j)) zeroCell = some (some (u.cell n 0))
  free : ∀ n : Fin 32, (ds.filter ok).length ≤ n.val → startCell u n 0 = zeroCell

section Replay

variable {s u : State} {ok : Device → Bool} {ds : List Device} {d : Device}

/-- R188: the drain begins with no record placed. -/
theorem QueueReady.drained_nil (h : QueueReady s ok) : Drained s ok [] (drainStart s) where
  fault := h.fault
  phase := rfl
  installed := h.installed
  sub := rfl
  nsub := rfl
  draws := rfl
  slotAt n := h.empty n
  others _ _ := rfl
  placed := by simp
  free _ _ := rfl

/-- The next automatic slot is empty, since INSTALLED counts the records that were placed. -/
theorem Drained.placement (hu : Drained s ok ds u) {n : Fin 32} (hn : n.val = (ds.filter ok).length) :
    pickSlot u none = .ok n ∧ placement u n = .ok none := by
  refine ⟨(pickSlot_auto u n).mpr (hn.trans hu.installed.symm), placement_primary ?_⟩
  rw [hu.slotAt, hn]
  simp

/-- A replayed record whose `init` fails is dropped (R179). -/
theorem Drained.append_failed (hu : Drained s ok ds u) (hok : ok d = false) : Drained s ok (ds ++ [d]) u.draw := by
  have hfilter : (ds ++ [d]).filter ok = ds.filter ok := by simp [List.filter_append, hok]
  have hlt {j : Nat} {d' : Device} (hj : (ds ++ [d])[j]? = some d') (hd' : ok d' = true) : j < ds.length := by
    by_contra hge
    rw [List.getElem?_append_right (Nat.le_of_not_lt hge), List.getElem?_singleton] at hj
    split at hj
    · cases hj; simp [hok] at hd'
    · cases hj
  exact {
    fault := hu.fault
    phase := by rw [hfilter]; exact hu.phase
    installed := by rw [hfilter]; exact hu.installed
    sub := hu.sub
    nsub := hu.nsub
    draws := by rw [draw_draws, hu.draws, List.length_append]; rfl
    slotAt := by rw [hfilter]; exact hu.slotAt
    others := fun d' h => hu.others d' fun x hx => h x (List.mem_append_left _ hx)
    placed := fun j n d' hj hd' hn => by
      have hjlt := hlt hj hd'
      rw [List.getElem?_append_left hjlt] at hj
      rw [List.take_append_of_le_length hjlt.le] at hn
      exact hu.placed j n d' hj hd' hn
    free := by rw [hfilter]; exact hu.free }

/-- A record that was placed holds a slot below the next automatic one. -/
theorem slot_lt_of_placed {j : Nat} {n : Fin 32} (hj : ds[j]? = some d) (hok : ok d = true)
    (hn : n.val = ((ds.take j).filter ok).length) : n.val < (ds.filter ok).length := by
  have hget := getElem?_filter_of_take hj hok
  rw [← hn] at hget
  exact (List.getElem?_eq_some_iff.mp hget).1

/-- A slot of a record that was placed has its cell in the store, since the controller is initialised. -/
theorem Drained.startCell_placed (hu : Drained s ok ds u) {n : Fin 32} (hn : n.val < (ds.filter ok).length) :
    startCell u n 0 = u.cell n 0 := by
  have hne : ds.filter ok ≠ [] := List.length_pos_iff.mp (Nat.zero_lt_of_lt hn)
  rw [startCell, if_neg]
  rw [hu.phase, if_neg hne]
  exact nofun

/-- A commit at the next automatic slot leaves the cells of the other slots as they were. -/
theorem commit_cell_other_slot {n n' : Fin 32} (hne : n' ≠ n) (c : Cell) :
    (commit (lazyInit u).draw d n none c).cell n' 0 = startCell u n' 0 :=
  commit_cell_other u d none c fun h => hne h.1

/-- R180: the primaries after a commit are the filtered queue with the new record behind it. -/
theorem Drained.commit_slotAt (hu : Drained s ok ds u) {n : Fin 32} (hn : n.val = (ds.filter ok).length) (c : Cell)
    (n' : Fin 32) : (commit (lazyInit u).draw d n none c).slotAt n' = (ds.filter ok ++ [d])[n'.val]? := by
  rw [commit_primary_slotAt, hu.slotAt, List.getElem?_append, List.getElem?_singleton, ← hn]
  by_cases hne : n' = n
  · simp [hne]
  · have hval : n'.val ≠ n.val := Fin.val_ne_of_ne hne
    by_cases hlt : n'.val < n.val
    · simp [hne, hlt]
    · have hpos : n'.val - n.val ≠ 0 := by omega
      rw [if_neg hne, if_neg hlt, if_neg hpos, List.getElem?_eq_none (by omega)]

/-- R180: the earlier records keep their identities and cells, and the new one gets its own. -/
theorem Drained.commit_placed (hu : Drained s ok ds u) (hfresh : u.identOf d = none) {n : Fin 32}
    (hn : n.val = (ds.filter ok).length) {c : Cell}
    (hc : runInit d.init (Config.envDraw (s.draws + ds.length)) zeroCell = some (some c)) {j : Nat} {n' : Fin 32}
    {d' : Device} (hj : (ds ++ [d])[j]? = some d') (hok : ok d' = true)
    (hn' : n'.val = (((ds ++ [d]).take j).filter ok).length) :
    (commit (lazyInit u).draw d n none c).identOf d' = some ⟨n', 0⟩ ∧
      runInit d'.init (Config.envDraw (s.draws + j)) zeroCell
        = some (some ((commit (lazyInit u).draw d n none c).cell n' 0)) := by
  rw [commit_identOf]
  by_cases hlt : j < ds.length
  · rw [List.getElem?_append_left hlt] at hj
    rw [List.take_append_of_le_length hlt.le] at hn'
    have hslot := slot_lt_of_placed hj hok hn'
    have hne : n' ≠ n := fun he => by omega
    obtain ⟨hid, hrun⟩ := hu.placed j n' d' hj hok hn'
    rw [commit_cell_other_slot hne, hu.startCell_placed hslot, hid, Option.some_or]
    exact ⟨rfl, hrun⟩
  · rw [List.getElem?_append_right (Nat.le_of_not_lt hlt), List.getElem?_singleton] at hj
    split at hj
    next hzero =>
      cases hj
      obtain rfl : j = ds.length := by omega
      rw [List.take_left, ← hn] at hn'
      obtain rfl : n' = n := Fin.ext hn'
      have hsame : (commit (lazyInit u).draw d n' none c).cell n' 0 = c := commit_cell_same u d n' none c
      rw [hfresh, hsame]
      exact ⟨by simp [placementFn], hc⟩
    next => cases hj

/-- A replayed record whose `init` succeeds becomes the primary of the next automatic slot (R180, R188). -/
theorem Drained.append_committed (hu : Drained s ok ds u) (hok : ok d = true) (hfresh : u.identOf d = none) {n : Fin 32}
    (hn : n.val = (ds.filter ok).length) {c : Cell}
    (hc : runInit d.init (Config.envDraw (s.draws + ds.length)) zeroCell = some (some c)) :
    Drained s ok (ds ++ [d]) (commit (lazyInit u).draw d n none c) := by
  have hfilter : (ds ++ [d]).filter ok = ds.filter ok ++ [d] := by simp [List.filter_append, hok]
  have hphase : u.phase ≠ .absent := by rw [hu.phase]; split <;> exact nofun
  have hinit : (commit (lazyInit u).draw d n none c).phase = .init := by
    rw [commit_phase, draw_toController, lazyInit_phase hphase]
  exact {
    fault := by simp [hu.fault]
    phase := by rw [hinit, hfilter]; simp
    installed := by simp [commit_installed, hu.installed, hfilter]
    sub := by simp [commit_primary, hu.sub]
    nsub := by simp [commit_primary, hu.nsub]
    draws := by simp [hu.draws, Nat.add_assoc]
    slotAt := by rw [hfilter]; exact hu.commit_slotAt hn c
    others := fun d' h => by
      rw [commit_identOf, if_neg (h d (by simp) hok), Option.or_none]
      exact hu.others d' fun x hx => h x (List.mem_append_left _ hx)
    placed := fun j n' d' hj hd' hn' => hu.commit_placed hfresh hn hc hj hd' hn'
    free := fun n' hn' => by
      have hlt : n.val < n'.val := by simpa [hfilter, hn] using hn'
      have hne : n' ≠ n := fun he => by simp [he] at hlt
      rw [startCell, if_neg (by rw [hinit]; exact nofun)]
      exact (commit_cell_other_slot hne c).trans (hu.free n' (by omega)) }

/-- One record of the queue is replayed: it is placed or dropped, and the drain goes on (R171, R179, R188). -/
theorem Drained.step (h : QueueReady s ok) {rest : List Device} (hq : s.queue = ds ++ d :: rest)
    (hu : Drained s ok ds u) : ∃ u' o, registerCore u d none = .ok (u', o) ∧ Drained s ok (ds ++ [d]) u' := by
  have hdistinct := h.distinct
  rw [hq, List.map_append, List.nodup_append] at hdistinct
  have hnew : ∀ d' ∈ ds, d'.ref ≠ d.ref := fun d' hd' => hdistinct.2.2 _ (List.mem_map_of_mem hd') _ (by simp)
  have hfresh : u.identOf d = none :=
    (hu.others d fun d' hd' _ => (hnew d' hd').symm).trans (h.fresh d (by simp [hq]))
  have hbound : (ds.filter ok).length < 32 := by
    have hlen := h.bound
    have hle := List.length_filter_le ok ds
    rw [hq, List.length_append, List.length_cons, Config.queueCap] at hlen
    omega
  obtain ⟨hpick, hplace⟩ := hu.placement (n := ⟨_, hbound⟩) rfl
  have hcore := registerCore_of_placement hfresh hpick hplace
  obtain ⟨res, hres, hok⟩ := h.init ds.length d (by simp [hq])
  have hinit : runInit d.init (Config.envDraw u.draws) (startCell u ⟨_, hbound⟩ (placementFn none)) = some res := by
    rw [hu.draws, placementFn, hu.free _ (Nat.le_refl _), hres]
  cases res with
  | none => exact ⟨_, _, hcore.trans (initAndCommit_failed hinit), hu.append_failed hok⟩
  | some c => exact ⟨_, _, hcore.trans (initAndCommit_commits hinit), hu.append_committed hok hfresh rfl hres⟩

/-- R188: the state after the replay of any first part of the queue. -/
theorem QueueReady.drained (h : QueueReady s ok) {rest : List Device} (hq : s.queue = ds ++ rest) :
    ∃ u, replay ds (drainStart s) = .ok u ∧ Drained s ok ds u := by
  induction ds using List.reverseRecOn generalizing rest with
  | nil => exact ⟨_, rfl, h.drained_nil⟩
  | append_singleton ds d ih =>
    rw [List.append_assoc] at hq
    obtain ⟨u, hr, hu⟩ := ih hq
    obtain ⟨u', o, hcore, hu'⟩ := hu.step h hq
    refine ⟨u', ?_, hu'⟩
    rw [replay_append hr hu.fault, replay_continue hcore hu'.fault]
    rfl

end Replay

/-- Settles O36: `Drained` for the whole queue; the slot of the `j`-th record is read off the filtered queue. -/
theorem queueIsReplayedInOrder : Obligations.QueueIsReplayedInOrder := by
  intro s ok hf hp hempty hinst hbound hdistinct hfresh hinit
  have hready : QueueReady s ok := ⟨hf, hempty, hinst, hbound, hdistinct, hfresh, hinit⟩
  obtain ⟨u, hr, hu⟩ := hready.drained (List.append_nil s.queue).symm
  refine ⟨_, exec_construct_of_replay hf hp hr, rfl, rfl, hu.fault, (replay_frame hr).1, hu.installed, hu.phase, hu.sub,
    hu.nsub, hu.slotAt, fun d hd hok => ?_, fun j n d hj hok hn => ?_⟩
  · have hother : ∀ d' ∈ s.queue, ok d' = true → d.ref ≠ d'.ref := fun d' hd' hok' he => by
      rw [List.inj_on_of_nodup_map hdistinct hd hd' he, hok'] at hok
      cases hok
    exact (hu.others d hother).trans (hfresh d hd)
  · obtain ⟨hid, hrun⟩ := hu.placed j n d hj hok hn
    exact ⟨hid, (hu.slotAt n).trans (hn ▸ getElem?_filter_of_take hj hok), hrun⟩

end Sys2Proof.Machine
end

section
/-!
PROOFS. The frame of the data ports (41_data_port.md R125; 10_state.md R32, R40): a data-port transaction writes bytes of its
target's cell at most, and it completes when the target's hooks keep R32; and I/O on unbound ports (20_memory.md R62).
-/

namespace Sys2Proof.Machine

open Sys2Proof.Claims

/-! ## What a data-port transaction writes -/

/-- Settles O22: the effect of a data-port transaction is none, or one on the cell of its target. -/
theorem dataPortTouchesOnlyItsCell : Obligations.DataPortTouchesOnlyItsCell := by
  intro i s u hi h
  obtain ⟨-, he⟩ := exec_effect h
  cases he with
  | idle _ _ _ hc hin => exact ⟨⟨by rw [hc], hin⟩, fun _ _ => by rw [hc]⟩
  | cell _ tg _ _ hp ht hc hin hout _ => exact ⟨⟨hc, hin⟩, fun a ha => hout a (ha tg hp ht)⟩
  | latch | construct | register | queued | overflow | shutdown | destroy => cases hi

theorem exec_data_latch {i : Instr} {s t : State} (hi : isData i = true) (h : exec i s = .next t) : t.latch = s.latch := by
  obtain ⟨⟨hc, -⟩, -⟩ := dataPortTouchesOnlyItsCell i s t hi h
  rw [hc]

/-! ## The lanes of an access with a target (R115, R116) -/

theorem ioRead_dataRead_of_lanes {s τ : State} {t : Target} {w : Width} {k : BitVec 2} {bs : List Byte}
    (hf : s.fault = false) (hp : s.phase = .init) (ht : s.resolve = .ok t)
    (hl : readLanes t (laneBase s.latch k) (List.range w.bytes) s.start = .ok (τ, bs)) :
    ioRead w (dataRead w k) s = .next (τ.answer (Result.ofWord w (assemble bs))) := by
  have hbody : dataRead w k s.start = .ok (τ, assemble bs) := by
    rw [dataRead, start_toController, ht]
    simp [hl]
  rw [ioRead_bound hf hp, hbody]

theorem ioRead_dataRead_of_lanes_error {s : State} {t : Target} {w : Width} {k : BitVec 2} {e : Refusal}
    (hf : s.fault = false) (hp : s.phase = .init) (ht : s.resolve = .ok t)
    (hl : readLanes t (laneBase s.latch k) (List.range w.bytes) s.start = .error e) :
    ioRead w (dataRead w k) s = .refused e := by
  have hbody : dataRead w k s.start = .error e := by
    rw [dataRead, start_toController, ht]
    simp [hl]
  rw [ioRead_bound hf hp, hbody]

/-- A data-port write with a target is its lanes. -/
theorem dataWrite_of_target {s : State} {t : Target} {w : Width} {k : BitVec 2} {v : Word} (ht : s.resolve = .ok t) :
    dataWrite w k v s.start = writeLanes t (laneBase s.latch k) v (List.range w.bytes) s.start := by
  rw [dataWrite, start_toController, ht]

theorem ioWrite_dataWrite_of_lanes {s τ : State} {t : Target} {w : Width} {k : BitVec 2} {v : Word}
    (hf : s.fault = false) (hp : s.phase = .init) (ht : s.resolve = .ok t)
    (hl : writeLanes t (laneBase s.latch k) v (List.range w.bytes) s.start = .ok τ) :
    ioWrite (dataWrite w k v) s = .next τ := by
  rw [ioWrite_bound hf hp, dataWrite_of_target ht, hl]

theorem ioWrite_dataWrite_of_lanes_error {s : State} {t : Target} {w : Width} {k : BitVec 2} {v : Word} {e : Refusal}
    (hf : s.fault = false) (hp : s.phase = .init) (ht : s.resolve = .ok t)
    (hl : writeLanes t (laneBase s.latch k) v (List.range w.bytes) s.start = .error e) :
    ioWrite (dataWrite w k v) s = .refused e := by
  rw [ioWrite_bound hf hp, dataWrite_of_target ht, hl]

/-! ## Completion with confined hooks -/

theorem ioRead_dataRead_isOk {s : State} (w : Width) (k : BitVec 2) (hf : s.fault = false)
    (hc : ∀ t, s.resolve = .ok t → confined t.dev = true) : ∃ u, ioRead w (dataRead w k) s = .next u := by
  by_cases hp : s.phase = .init
  · cases ht : s.resolve with
    | error c => exact ⟨_, ioRead_dataRead_noTarget w k hf hp ht⟩
    | ok t =>
      obtain ⟨-, -, hpr, hovr⟩ := (confined_iff t.dev).mp (hc t ht)
      obtain ⟨τ, bs, hl⟩ := readLanes_isOk hpr hovr (laneBase s.latch k) (List.range w.bytes) s.start
      exact ⟨_, ioRead_dataRead_of_lanes hf hp ht hl⟩
  · exact ⟨_, ioRead_unbound hf hp⟩

theorem ioWrite_dataWrite_isOk {s : State} (w : Width) (k : BitVec 2) (v : Word) (hf : s.fault = false)
    (hc : ∀ t, s.resolve = .ok t → confined t.dev = true) : ∃ u, ioWrite (dataWrite w k v) s = .next u := by
  by_cases hp : s.phase = .init
  · cases ht : s.resolve with
    | error c => exact ⟨_, ioWrite_dataWrite_noTarget w k v hf hp ht⟩
    | ok t =>
      obtain ⟨-, hpw, -, -⟩ := (confined_iff t.dev).mp (hc t ht)
      obtain ⟨τ, hl⟩ := writeLanes_isOk hpw (laneBase s.latch k) v (List.range w.bytes) s.start
      exact ⟨τ, ioWrite_dataWrite_of_lanes hf hp ht hl⟩
  · exact ⟨_, ioWrite_unbound hf hp⟩

/-- Settles O23: a read and a write of any width complete, and leave the latch (O22). -/
theorem dataPortCompletesOnConfinedHooks : Obligations.DataPortCompletesOnConfinedHooks := by
  intro i s hi hf hc
  have hnext : ∃ u, exec i s = .next u := by
    cases i with
    | dataRd8 k => exact ioRead_dataRead_isOk .w1 k hf hc
    | dataRd16 k => exact ioRead_dataRead_isOk .w2 k hf hc
    | dataRd32 k => exact ioRead_dataRead_isOk .w4 k hf hc
    | dataWr8 k v => exact ioWrite_dataWrite_isOk .w1 k v hf hc
    | dataWr16 k v => exact ioWrite_dataWrite_isOk .w2 k v hf hc
    | dataWr32 k v => exact ioWrite_dataWrite_isOk .w4 k v hf hc
    | addrRd | addrWr | construct | register | shutdown | destroy | legacyCb => cases hi
  obtain ⟨u, hu⟩ := hnext
  exact ⟨u, hu, exec_data_latch hi hu⟩

/-! ## Unbound ports (R62) -/

/-- R57: a narrower read returns the low bits of the word. -/
theorem ofWord_w1 (v : Word) : Result.ofWord .w1 v = .rdata8 (v.extractLsb' 0 8) := by
  rw [Result.ofWord, BitVec.truncate_eq_setWidth, BitVec.setWidth_eq_extractLsb' (by decide)]

theorem ofWord_w2 (v : Word) : Result.ofWord .w2 v = .rdata16 (v.extractLsb' 0 16) := by
  rw [Result.ofWord, BitVec.truncate_eq_setWidth, BitVec.setWidth_eq_extractLsb' (by decide)]

/-- Settles O14: an unbound write does nothing, and an unbound read takes one draw of its width. -/
theorem unboundPortsLeaveTheBlockAlone : Obligations.UnboundPortsLeaveTheBlockAlone := by
  refine fun s hf hp => ⟨fun k v => ⟨?_, ?_, ?_, ?_⟩, fun k => ⟨?_, ?_, ?_, ?_⟩⟩
  · rw [exec_addrWr, ioWrite_unbound hf hp]; rfl
  · rw [exec_dataWr8, ioWrite_unbound hf hp]; rfl
  · rw [exec_dataWr16, ioWrite_unbound hf hp]; rfl
  · rw [exec_dataWr32, ioWrite_unbound hf hp]; rfl
  · rw [exec_addrRd, ioRead_unbound hf hp]; rfl
  · rw [exec_dataRd8, ioRead_unbound hf hp, ofWord_w1]; rfl
  · rw [exec_dataRd16, ioRead_unbound hf hp, ofWord_w2]; rfl
  · rw [exec_dataRd32, ioRead_unbound hf hp]; rfl

end Sys2Proof.Machine
end

section
/-!
PROOFS. The lanes of a data-port access as numbers (30_encoding.md R73 to R75), the latch value that names a register (R84),
and the pseudo-instructions.
-/

namespace Sys2Proof.Machine

open Sys2Proof.Claims

/-! ## Lanes as numbers (R73 to R75) -/

/-- R73: the base never wraps. -/
theorem laneBase_toNat (l : Word) (k : BitVec 2) : (laneBase l k).toNat = l.toNat / 4 % 64 * 4 + k.toNat := by
  have hk := k.isLt
  rw [laneBase, BitVec.toNat_add, latchGrp_toNat]
  simp only [BitVec.truncate_eq_setWidth, BitVec.toNat_setWidth]
  omega

theorem laneReg_toNat (b : Byte) (i : Nat) : (laneReg b i).toNat = (b.toNat + i) % 256 := by
  simp [laneReg]

/-- R74: the register of a lane is its number modulo 256. -/
theorem laneReg_laneBase (l : Word) (k : BitVec 2) (i : Nat) : laneReg (laneBase l k) i = regNum l k i := by
  apply BitVec.eq_of_toNat_eq
  rw [laneReg_toNat, laneBase_toNat, regNum, BitVec.toNat_ofNat]

theorem laneByte_toNat (v : Word) (i : Nat) : (laneByte v i).toNat = v.toNat / 2 ^ (8 * i) % 256 := by
  simp [laneByte, Nat.shiftRight_eq_div_pow]

/-- Settles O9: the four numbers. -/
theorem laneRegistersAreNumbered : Obligations.LaneRegistersAreNumbered :=
  fun l v k b i => ⟨laneBase_toNat l k, laneReg_toNat b i, laneReg_laneBase l k i, laneByte_toNat v i⟩

/-- A latch that names the register's group, with the register's offset in it, has that register as lane 0 (R84). -/
theorem laneBase_eq_of_group {l : Word} {r : Byte} (h : l.extractLsb' 2 6 = r.extractLsb' 2 6) :
    laneBase l (r.extractLsb' 0 2) = r := by
  have hsum : ∀ r : Byte, (r.extractLsb' 2 6 ++ 0#2 : Byte) + (r.extractLsb' 0 2).zeroExtend 8 = r := by decide
  rw [laneBase, latchGrp, h]
  exact hsum r

/-! ## The latch value of CFG_ADDR (R84) -/

/-- The fields of the register part: it names the group, and no other field of the latch. -/
theorem groupBits_fields (r : Byte) :
    let g := (r &&& 0xFC#8).zeroExtend 32
    g.getLsbD 31 = false ∧ g.extractLsb' 16 8 = 0#8 ∧ g.extractLsb' 11 5 = 0#5 ∧ g.extractLsb' 8 3 = 0#3 ∧
      g.extractLsb' 2 6 = r.extractLsb' 2 6 := by
  revert r; decide

/-- The fields of the device part. -/
theorem devBits_fields (d : Fin 32) :
    let x := BitVec.ofNat 32 d.val <<< 11
    x.extractLsb' 16 8 = 0#8 ∧ x.extractLsb' 11 5 = BitVec.ofFin d ∧ x.extractLsb' 8 3 = 0#3 ∧ x.extractLsb' 2 6 = 0#6 := by
  revert d; decide

/-- The fields of the function part. -/
theorem fnBits_fields (f : Fin 8) :
    let x := BitVec.ofNat 32 f.val <<< 8
    x.extractLsb' 16 8 = 0#8 ∧ x.extractLsb' 11 5 = 0#5 ∧ x.extractLsb' 8 3 = BitVec.ofFin f ∧ x.extractLsb' 2 6 = 0#6 := by
  revert f; decide

section CfgAddr

variable (d : Fin 32) (f : Fin 8) (r : Byte)

theorem cfgAddrWord_enabled : latchEnabled (cfgAddrWord d f r) = true := by
  obtain ⟨-, hr, -⟩ := groupBits_fields r
  obtain ⟨hd, -⟩ := devBits_fields d
  obtain ⟨hf, -⟩ := fnBits_fields f
  rw [latchEnabled_iff]
  refine ⟨by simp [cfgAddrWord], ?_⟩
  rw [cfgAddrWord, BitVec.extractLsb'_or, BitVec.extractLsb'_or, BitVec.extractLsb'_or, hr, hd, hf]
  decide

theorem cfgAddrWord_dev : latchDev (cfgAddrWord d f r) = d := by
  obtain ⟨-, -, hr, -⟩ := groupBits_fields r
  obtain ⟨-, hd, -⟩ := devBits_fields d
  obtain ⟨-, hf, -⟩ := fnBits_fields f
  have hen : (0x80000000#32).extractLsb' 11 5 = 0#5 := by decide
  rw [latchDev, cfgAddrWord, BitVec.extractLsb'_or, BitVec.extractLsb'_or, BitVec.extractLsb'_or, hr, hd, hf, hen]
  simp

theorem cfgAddrWord_fn : latchFn (cfgAddrWord d f r) = f := by
  obtain ⟨-, -, -, hr, -⟩ := groupBits_fields r
  obtain ⟨-, -, hd, -⟩ := devBits_fields d
  obtain ⟨-, -, hf, -⟩ := fnBits_fields f
  have hen : (0x80000000#32).extractLsb' 8 3 = 0#3 := by decide
  rw [latchFn, cfgAddrWord, BitVec.extractLsb'_or, BitVec.extractLsb'_or, BitVec.extractLsb'_or, hr, hd, hf, hen]
  simp

theorem cfgAddrWord_laneBase : laneBase (cfgAddrWord d f r) (cfgOffset r) = r := by
  obtain ⟨-, -, -, -, hr⟩ := groupBits_fields r
  obtain ⟨-, -, -, hd⟩ := devBits_fields d
  obtain ⟨-, -, -, hf⟩ := fnBits_fields f
  have hen : (0x80000000#32).extractLsb' 2 6 = 0#6 := by decide
  refine laneBase_eq_of_group ?_
  rw [cfgAddrWord, BitVec.extractLsb'_or, BitVec.extractLsb'_or, BitVec.extractLsb'_or, hr, hd, hf, hen]
  simp

end CfgAddr

/-! ## The pseudo-instructions -/

/-- A run that ends went through its first transaction. -/
theorem runInstrs_cons_next {i : Instr} {is : List Instr} {s t : State} (h : runInstrs (i :: is) s = .next t) :
    ∃ u, exec i s = .next u ∧ runInstrs is u = .next t := by
  rw [runInstrs] at h
  split at h
  · next u hu => exact ⟨u, hu, h⟩
  · cases h
  · cases h

theorem runInstrs_cons {i : Instr} {s u : State} (is : List Instr) (h : exec i s = .next u) :
    runInstrs (i :: is) s = runInstrs is u := by
  rw [runInstrs, h]

@[simp] theorem runInstrs_nil (s : State) : runInstrs [] s = .next s := rfl

theorem runInstrs_singleton_next {i : Instr} {s t : State} (h : runInstrs [i] s = .next t) : exec i s = .next t := by
  obtain ⟨u, hu, ht⟩ := runInstrs_cons_next h
  cases ht
  exact hu

/-- R84: an access after an ADDR_WR on a bound port leaves the latch at the written value. -/
theorem latch_of_addrWr_data {v : Word} {i : Instr} {s t : State} (hf : s.fault = false) (hp : s.phase = .init)
    (hi : isData i = true) (h : runInstrs [.addrWr v, i] s = .next t) : t.latch = v := by
  obtain ⟨u, hu, ht⟩ := runInstrs_cons_next h
  rw [exec_addrWr_bound v hf hp] at hu
  cases hu
  exact exec_data_latch hi (runInstrs_singleton_next ht)

/-- Settles O10: the fields of the address, and the latch after each of the six pseudo-instructions. -/
theorem pseudoAddressSelectsItsRegister : Obligations.PseudoAddressSelectsItsRegister := by
  refine fun d f r => ⟨cfgAddrWord_enabled d f r, cfgAddrWord_dev d f r, cfgAddrWord_fn d f r, cfgAddrWord_laneBase d f r,
    fun v s t hf hp h => ?_⟩
  rcases h with h | h | h | h | h | h
  all_goals exact latch_of_addrWr_data hf hp rfl h

end Sys2Proof.Machine
end

section
/-!
PROOFS. The lanes of a device with a default hook (10_state.md R31; 20_memory.md R52; 41_data_port.md R115, R116): reads are
little-endian and change no byte, and writes commit the lanes that no policy drops.
-/

namespace Sys2Proof.Machine

open Sys2Proof.Claims

theorem OnlyCell.onlyStore {n : Fin 32} {f : Fin 8} {σ τ : State} (h : OnlyCell n f σ τ) : OnlyStore σ τ :=
  ⟨h.controller, h.input⟩

/-- Every address of the store is outside a cell or is one of its registers. -/
theorem outside_or_register (n : Fin 32) (f : Fin 8) (a : Nat) : OutsideCell n f a ∨ ∃ r, a = storeAddr n f r := by
  by_cases h : a < storeAddr n f 0#8 ∨ storeAddr n f 0#8 + 256 ≤ a
  · exact .inl h
  · refine .inr ⟨BitVec.ofNat 8 (a - storeAddr n f 0#8), ?_⟩
    rw [storeAddr_eq_base_add, BitVec.toNat_ofNat]
    omega

/-! ## Data words from lane bytes (R75) -/

/-- Each lane stands below the lanes after it. -/
theorem assemble_cons (b : Byte) (bs : List Byte) : assemble (b :: bs) = (assemble bs).extractLsb' 0 24 ++ b := by
  apply BitVec.eq_of_getLsbD_eq
  intro i hi
  rw [BitVec.getLsbD_append, assemble, BitVec.getLsbD_or]
  by_cases h : i < 8
  · simp [h, hi]
  · have hhigh : b.getLsbD i = false := BitVec.getLsbD_of_ge b i (by omega)
    have hlane : i - 8 < 24 := by omega
    simp [h, hi, hhigh, hlane, -BitVec.getLsbD_eq_getElem]

theorem ofWord_assemble_pair (b₀ b₁ : Byte) : Result.ofWord .w2 (assemble [b₀, b₁]) = .rdata16 (b₁ ++ b₀) := by
  rw [ofWord_w2, assemble_cons, assemble_cons, assemble]
  congr 1
  apply BitVec.eq_of_getLsbD_eq
  intro i hi
  have h₁ : i - 8 < 24 := by omega
  have hlast : i - 8 < 8 := by omega
  simp only [BitVec.getLsbD_append, BitVec.getLsbD_extractLsb', Nat.zero_add]
  simp [hi, h₁, hlast]

theorem assemble_quad (b₀ b₁ b₂ b₃ : Byte) : assemble [b₀, b₁, b₂, b₃] = b₃ ++ b₂ ++ b₁ ++ b₀ := by
  rw [assemble_cons, assemble_cons, assemble_cons, assemble_cons, assemble]
  apply BitVec.eq_of_getLsbD_eq
  intro i hi
  have h₁ : i - 8 < 24 := by omega
  have h₂ : i - 8 - 8 < 24 := by omega
  have h₃ : i - 8 - 8 - 8 < 24 := by omega
  have hlast : i - 8 - 8 - 8 < 8 := by omega
  simp only [BitVec.getLsbD_append, BitVec.getLsbD_extractLsb', Nat.zero_add]
  simp only [h₁, h₂, h₃, hlast, decide_true, Bool.true_and, if_true]

/-! ## Reads (R116, R52) -/

/-- The byte that a generic read lane returns depends on the target's cell and its count only. -/
theorem genericByte_congr {σ τ : State} {t : Target} (h : OnlyCell t.slot t.fn σ τ)
    (hr : ∀ a, τ.store.read a = σ.store.read a) (r : Byte) : genericByte τ t r = genericByte σ t r := by
  have hread (x : Byte) : τ.readByte t.slot t.fn x = σ.readByte t.slot t.fn x := hr _
  have hnsub : τ.nsubAt t.slot t.fn = σ.nsubAt t.slot t.fn := by
    rw [Controller.nsubAt, Controller.nsubAt, Controller.subCount, Controller.subCount, h.nsub]
  rw [genericByte, genericByte, headerByte, headerByte, hread, hread, hnsub]

theorem readLanes_generic {t : Target} (hg : t.dev.pr = .default) (base : Byte) (is : List Nat) (σ : State) :
    ∃ τ, readLanes t base is σ = .ok (τ, is.map fun i => genericByte σ t (laneReg base i)) ∧
      OnlyCell t.slot t.fn σ τ ∧ (∀ a, τ.store.read a = σ.store.read a) ∧ τ.trace = σ.trace := by
  induction is generalizing σ with
  | nil => exact ⟨σ, rfl, .refl σ, fun _ => rfl, rfl⟩
  | cons i is ih =>
    obtain ⟨υ, hυ, hcell, hread, htrace⟩ := regRdByte_generic hg σ (laneReg base i)
    obtain ⟨τ, hτ, hcell', hread', htrace'⟩ := ih υ
    refine ⟨τ, ?_, hcell.trans hcell', fun a => (hread' a).trans (hread a), htrace'.trans htrace⟩
    simp only [readLanes, hυ, hτ, genericByte_congr hcell hread]
    rfl

/-- A read of a device with the default read hook, of any width. -/
theorem ioRead_dataRead_generic {s : State} {t : Target} (w : Width) (k : BitVec 2) (hf : s.fault = false)
    (hp : s.phase = .init) (ht : s.resolve = .ok t) (hg : t.dev.pr = .default) :
    ∃ u, ioRead w (dataRead w k) s = .next u ∧
      u.result = Result.ofWord w (assemble ((List.range w.bytes).map fun i => genericByte s t (regAt s k i))) ∧
      NoStore s u ∧ u.trace = [] := by
  obtain ⟨τ, hl, hcell, hread, htrace⟩ := readLanes_generic hg (laneBase s.latch k) (List.range w.bytes) s.start
  refine ⟨_, ioRead_dataRead_of_lanes hf hp ht hl, ?_, ⟨hcell.onlyStore, hread⟩, htrace⟩
  simp only [laneReg_laneBase]
  rfl

/-- Settles O20: `ioRead_dataRead_generic` at each width, the data word written out. -/
theorem genericReadIsLittleEndian : Obligations.GenericReadIsLittleEndian := by
  intro s t k hf hp ht hg
  refine ⟨?_, ?_, ?_⟩
  · obtain ⟨u, hu, hres, hrest⟩ := ioRead_dataRead_generic .w1 k hf hp ht hg
    exact ⟨u, hu, hres.trans (ofWord_assemble_singleton _), hrest⟩
  · obtain ⟨u, hu, hres, hrest⟩ := ioRead_dataRead_generic .w2 k hf hp ht hg
    exact ⟨u, hu, hres.trans (ofWord_assemble_pair _ _), hrest⟩
  · obtain ⟨u, hu, hres, hrest⟩ := ioRead_dataRead_generic .w4 k hf hp ht hg
    exact ⟨u, hu, hres.trans (congrArg Result.rdata32 (assemble_quad _ _ _ _)), hrest⟩

/-- R51: an access after CFG_ADDR resolves to the routed device, whatever its hooks are. -/
theorem resolve_cfgAddr {c : Controller} {n : Fin 32} {f : Fin 8} {r : Byte} {d : Device}
    (hl : c.latch = cfgAddrWord n f r) (hn : n.val < c.installed) (hd : c.devAt n f = some d) :
    c.resolve = .ok ⟨n, f, d⟩ := by
  have hen : latchEnabled c.latch = true := hl ▸ cfgAddrWord_enabled n f r
  have hdev : latchDev c.latch = n := hl ▸ cfgAddrWord_dev n f r
  have hfn : latchFn c.latch = f := hl ▸ cfgAddrWord_fn n f r
  subst hdev hfn
  exact resolve_eq_ok hen hn hd

/-- Settles O11: CFG_ADDR leaves a latch that resolves to the device; a 1-byte read through its default read hook is O20's. -/
theorem pseudoReadReachesTheLocation : Obligations.PseudoReadReachesTheLocation := by
  intro s n f r dev hf hp hn hd
  let u := s.start.setLatch (cfgAddrWord n f r)
  have haddr : exec (cfgAddr n f r) s = .next u := exec_addrWr_bound _ hf hp
  have hbase : laneBase u.latch (cfgOffset r) = r := cfgAddrWord_laneBase n f r
  have hres : u.resolve = .ok ⟨n, f, dev⟩ := resolve_cfgAddr rfl hn hd
  refine ⟨⟨u, haddr, hres, hbase⟩, fun hg => ?_⟩
  obtain ⟨⟨t, ht, hresult, hstore, -⟩, -⟩ := genericReadIsLittleEndian u ⟨n, f, dev⟩ (cfgOffset r) hf hp hres hg
  have hreg : regAt u (cfgOffset r) 0 = r := by rw [regAt, ← laneReg_laneBase, laneReg_zero, hbase]
  rw [hreg] at hresult
  refine ⟨t, ?_, hresult, hstore⟩
  rw [cfgRd8, runInstrs_cons _ haddr, runInstrs_cons _ ht, runInstrs_nil]

/-! ## Writes (R115) -/

/-- R140, R141: the policy looks at the stored header byte only, which no write lane reaches. -/
theorem writeDropped_congr {c c' : Cell} (h : c' 0x0E#8 = c 0x0E#8) (r : Byte) : writeDropped c' r = writeDropped c r := by
  rw [writeDropped, writeDropped, standardHeader, standardHeader, h]

theorem writeDropped_header (c : Cell) : writeDropped c 0x0E#8 = true := by
  simp [writeDropped, readOnlyReg]

/-- The bytes of a cell after the write lanes `is`, each register being written by one lane at most. -/
theorem writeLanes_generic {t : Target} (hg : t.dev.pw = .default) (base : Byte) (v : Word) (is : List Nat)
    (hdistinct : (is.map (laneReg base)).Nodup) (σ : State) :
    ∃ τ, writeLanes t base v is σ = .ok τ ∧ OnlyCell t.slot t.fn σ τ ∧
      (∀ i ∈ is, writeDropped (σ.cell t.slot t.fn) (laneReg base i) = false →
        τ.readByte t.slot t.fn (laneReg base i) = laneByte v i) ∧
      (∀ x, (∀ i ∈ is, writeDropped (σ.cell t.slot t.fn) (laneReg base i) = false → x ≠ laneReg base i) →
        τ.readByte t.slot t.fn x = σ.readByte t.slot t.fn x) := by
  induction is generalizing σ with
  | nil => exact ⟨σ, rfl, .refl σ, by simp, fun _ _ => rfl⟩
  | cons i is ih =>
    rw [List.map_cons, List.nodup_cons] at hdistinct
    obtain ⟨hnew, hdistinct⟩ := hdistinct
    obtain ⟨υ, hυ, hcell, hbytes⟩ := regWrByte_generic hg σ (laneReg base i) (laneByte v i)
    obtain ⟨τ, hτ, hcell', hwritten, hkept⟩ := ih hdistinct υ
    have hpolicy (r : Byte) : writeDropped (υ.cell t.slot t.fn) r = writeDropped (σ.cell t.slot t.fn) r := by
      refine writeDropped_congr ((hbytes 0x0E#8).trans (if_neg fun h => ?_)) r
      rw [← h.2, writeDropped_header] at h
      exact absurd h.1 nofun
    simp only [hpolicy] at hwritten hkept
    refine ⟨τ, by simp only [writeLanes, hυ, hτ], hcell.trans hcell', fun j hj hd => ?_, fun x hx => ?_⟩
    · rcases List.mem_cons.mp hj with rfl | hj
      · have hlater : ∀ i' ∈ is, writeDropped (σ.cell t.slot t.fn) (laneReg base i') = false →
            laneReg base j ≠ laneReg base i' := fun i' hi' _ he => hnew (he ▸ List.mem_map_of_mem hi')
        rw [hkept _ hlater, hbytes, if_pos ⟨hd, rfl⟩]
      · exact hwritten j hj hd
    · rw [hkept x fun j hj => hx j (List.mem_cons_of_mem i hj), hbytes,
        if_neg fun h => hx i (List.mem_cons_self ..) h.1 h.2]

/-- R74: the lanes of one access address different registers. -/
theorem laneReg_range_nodup (base : Byte) (w : Width) : ((List.range w.bytes).map (laneReg base)).Nodup := by
  refine (List.nodup_map_iff_inj_on (List.nodup_range)).mpr fun i hi j hj h => ?_
  have hle : w.bytes ≤ 4 := by cases w <;> decide
  have hnum : (laneReg base i).toNat = (laneReg base j).toNat := by rw [h]
  rw [laneReg_toNat, laneReg_toNat] at hnum
  rw [List.mem_range] at hi hj
  omega

/-- The data-port write of each width is a write of that width. -/
theorem exec_dataWriteInstr (w : Width) (k : BitVec 2) (v : Word) (s : State) :
    exec (dataWriteInstr w k v) s = ioWrite (dataWrite w k v) s := by
  cases w <;> rfl

/-- Settles O21: `writeLanes_generic` for the lanes of the width, in the cell and outside it. -/
theorem genericWriteCommitsItsLanes : Obligations.GenericWriteCommitsItsLanes := by
  intro s t k v hf hp ht hg w
  obtain ⟨τ, hl, hcell, hwritten, hkept⟩ :=
    writeLanes_generic hg (laneBase s.latch k) v (List.range w.bytes) (laneReg_range_nodup _ w) s.start
  simp only [laneReg_laneBase, List.mem_range] at hwritten hkept
  refine ⟨τ, (exec_dataWriteInstr w k v s).trans (ioWrite_dataWrite_of_lanes hf hp ht hl), hcell.onlyStore, hcell.result,
    hwritten, fun a ha => ?_⟩
  rcases outside_or_register t.slot t.fn a with hout | ⟨x, rfl⟩
  · exact hcell.outside a hout
  · exact hkept x fun i hi hd hx => ha i hi hd (hx ▸ rfl)

/-- R140: a register that the policy does not drop is neither an identity register nor the header type. -/
theorem not_identity_of_not_dropped {c : Cell} {r : Byte} (h : writeDropped c r = false) : ¬r ≤ 0x03#8 ∧ r ≠ 0x0E#8 := by
  have hro : ¬readOnlyReg r = true := by
    rw [writeDropped, Bool.or_eq_false_iff] at h
    simp [h.1]
  rw [readOnlyReg_iff] at hro
  exact ⟨fun h => hro (.inl h), fun h => hro (.inr (.inr h))⟩

/-- Settles O33: the write is O21's only lane, and the read lane of that register returns the stored byte (O20). -/
theorem genericReadAfterWrite : Obligations.GenericReadAfterWrite := by
  intro s t k v hf hp ht hg hd
  obtain ⟨⟨hpw, hpr⟩, -⟩ : (t.dev.pw = .default ∧ t.dev.pr = .default) ∧ t.dev.ovr = .default := by
    simpa [generic] using hg
  have hreg : regAt s k 0 = laneBase s.latch k := by rw [regAt, ← laneReg_laneBase, laneReg_zero]
  rw [← hreg] at hd
  obtain ⟨u, hu, ⟨hctrl, -⟩, -, hwritten, -⟩ := genericWriteCommitsItsLanes s t k v hf hp ht hpw .w1
  have hstored : u.readByte t.slot t.fn (regAt s k 0) = v.extractLsb' 0 8 := hwritten 0 Nat.zero_lt_one hd
  obtain ⟨⟨w, hw, hresult, -⟩, -⟩ := genericReadIsLittleEndian u t k (by rw [hctrl]; exact hf) (by rw [hctrl]; exact hp)
    ((resolve_congr hctrl).trans ht) hpr
  have hsame : regAt u k 0 = regAt s k 0 := by rw [regAt, regAt, hctrl]
  obtain ⟨hid, hhdr⟩ := not_identity_of_not_dropped hd
  refine ⟨u, w, hu, hw, ?_⟩
  rw [hresult, hsame, genericByte, if_neg hid, if_neg hhdr, hstored]

end Sys2Proof.Machine
end

section
/-!
PROOFS. The register policy and the hooks (42_register_policy.md R141 to R149): the subsystem registers, the identity
registers, and what a lane makes of each answer of a hook.
-/

namespace Sys2Proof.Machine

open Sys2Proof.Claims

/-! ## The subsystem registers (R141) -/

theorem standardHeader_iff (c : Cell) : standardHeader c = true ↔ c 0x0E#8 &&& 0x7F#8 = 0x00#8 := beq_iff_eq

/-- R140, R141: the subsystem registers are not among the globally read-only ones. -/
theorem subsystemReg_of_range {r : Byte} (hlo : 0x28#8 ≤ r) (hhi : r ≤ 0x2F#8) :
    readOnlyReg r = false ∧ subsystemReg r = true := by
  have hall : ∀ r : Byte, 0x28#8 ≤ r → r ≤ 0x2F#8 → readOnlyReg r = false ∧ subsystemReg r = true := by decide
  exact hall r hlo hhi

/-- Settles O28: under the standard header the lane is dropped, and under another it is `regWrByte_generic`. -/
theorem standardHeaderDropsSubsystemWrites : Obligations.StandardHeaderDropsSubsystemWrites := by
  intro s t r b hlo hhi
  obtain ⟨hro, hsub⟩ := subsystemReg_of_range hlo hhi
  refine ⟨fun h => ?_, fun h hg => ?_⟩
  · have hstd : standardHeader (s.cell t.slot t.fn) = true := (standardHeader_iff _).mpr h
    simp [regWrByte, hro, hsub, hstd]
  · have hstd : standardHeader (s.cell t.slot t.fn) = false := Bool.eq_false_iff.mpr fun hs => h ((standardHeader_iff _).mp hs)
    have hkeep : writeDropped (s.cell t.slot t.fn) r = false := by simp [writeDropped, hro, hstd]
    obtain ⟨u, hu, hcell, hbytes⟩ := regWrByte_generic hg s r b
    refine ⟨u, hu, hcell.onlyStore, (hbytes r).trans (if_pos ⟨hkeep, rfl⟩), fun a ha => ?_⟩
    rcases outside_or_register t.slot t.fn a with hout | ⟨x, rfl⟩
    · exact hcell.outside a hout
    · exact (hbytes x).trans (if_neg fun hx => ha (by rw [hx.2]))

/-! ## The cell after a hook call (R149) -/

theorem readByte_setCell (σ : State) (n : Fin 32) (f : Fin 8) (c : Cell) (x : Byte) :
    (σ.setCell n f c).readByte n f x = c x := read_setCell_inside ..

theorem readByte_writeByte (σ : State) (n : Fin 32) (f : Fin 8) (r b x : Byte) :
    (σ.writeByte n f r b).readByte n f x = if x = r then b else σ.readByte n f x := by
  simp [State.readByte, read_write, storeAddr_inj, eq_comm]

theorem cell_setCell (σ : State) (n : Fin 32) (f : Fin 8) (c : Cell) : (σ.setCell n f c).cell n f = c :=
  cell_setCell_same ..

section WriteHook

variable {σ : State} {t : Target} {r b : Byte}

/-! ## The write hook (R142, R143, R149) -/

/-- R149: the committed byte overrides what the hook wrote at `r`. -/
theorem regWrByte_commit (h : writeDropped (σ.cell t.slot t.fn) r = false) {c : Cell} {b' : Byte}
    (hrun : runPw t.dev.pw (Config.envDraw σ.draws) (σ.cell t.slot t.fn) r b = some (c, some b')) :
    regWrByte σ t r b = .ok ((σ.draw.setCell t.slot t.fn c).writeByte t.slot t.fn r b') := by
  obtain ⟨hro, hsub⟩ := Bool.or_eq_false_iff.mp h
  simp [regWrByte, hro, hsub, callPw, hrun]

/-- R143: a veto keeps the hook's own cell writes. -/
theorem regWrByte_veto (h : writeDropped (σ.cell t.slot t.fn) r = false) {c : Cell}
    (hrun : runPw t.dev.pw (Config.envDraw σ.draws) (σ.cell t.slot t.fn) r b = some (c, none)) :
    regWrByte σ t r b = .ok ((σ.draw.setCell t.slot t.fn c).note .dropHookVeto) := by
  obtain ⟨hro, hsub⟩ := Bool.or_eq_false_iff.mp h
  simp [regWrByte, hro, hsub, callPw, hrun]

theorem regWrByte_unconfined (h : writeDropped (σ.cell t.slot t.fn) r = false)
    (hrun : runPw t.dev.pw (Config.envDraw σ.draws) (σ.cell t.slot t.fn) r b = none) :
    regWrByte σ t r b = .error .hookUnconfined := by
  obtain ⟨hro, hsub⟩ := Bool.or_eq_false_iff.mp h
  simp [regWrByte, hro, hsub, callPw, hrun]

end WriteHook

/-- A DATA_WR8 whose lane is refused is refused. -/
theorem exec_dataWr8_of_lane_error {s : State} {t : Target} {k : BitVec 2} {v : Word} {e : Refusal} (hf : s.fault = false)
    (hp : s.phase = .init) (ht : s.resolve = .ok t)
    (hl : regWrByte s.start t (laneBase s.latch k) (laneByte v 0) = .error e) : exec (.dataWr8 k v) s = .refused e :=
  ioWrite_dataWrite_of_lanes_error hf hp ht (by simp [Width.bytes, List.range_succ, writeLanes, hl])

/-- Settles O29: the one lane of the write, for each answer of the hook. -/
theorem writeHookCommitsOrVetoes : Obligations.WriteHookCommitsOrVetoes := by
  intro s t k v hf hp ht hd
  refine ⟨fun c b hrun => ?_, fun c hrun => ?_, fun hrun => ?_⟩
  · have hl := regWrByte_commit (σ := s.start) hd hrun
    have hcell := regWrByte_onlyCell hl
    refine ⟨_, exec_dataWr8_of_lane hf hp ht hl, hcell.onlyStore, rfl, rfl, fun x => ?_, hcell.outside⟩
    rw [readByte_writeByte, readByte_setCell]
  · have hl := regWrByte_veto (σ := s.start) hd hrun
    have hcell := regWrByte_onlyCell hl
    exact ⟨_, exec_dataWr8_of_lane hf hp ht hl, hcell.onlyStore, rfl, rfl, cell_setCell .., hcell.outside⟩
  · exact exec_dataWr8_of_lane_error hf hp ht (regWrByte_unconfined (σ := s.start) hd hrun)

/-! ## The identity registers (R144, R53) -/

theorem regRdByte_identity (s : State) (t : Target) {r : Byte} (h : r ≤ 0x03#8) :
    regRdByte s t r = .ok (s, identityByte t.dev r) := if_pos h

/-- R53: the four identity bytes make up the device ID above the vendor ID. -/
theorem identity_word (d : Device) :
    d.did.extractLsb' 8 8 ++ d.did.extractLsb' 0 8 ++ d.vid.extractLsb' 8 8 ++ d.vid.extractLsb' 0 8 = d.did ++ d.vid := by
  rw [BitVec.append_assoc, BitVec.cast_eq, BitVec.extractLsb'_append_extractLsb'_eq_extractLsb' (show 8 = 0 + 8 from rfl),
    BitVec.extractLsb'_append_extractLsb'_eq_extractLsb' (show 8 = 0 + 8 from rfl)]
  exact congrArg₂ _ BitVec.extractLsb'_eq_self BitVec.extractLsb'_eq_self

/-- Settles O30: the four lanes of the read are identity lanes, and change nothing. -/
theorem identityRegistersReadTheRecord : Obligations.IdentityRegistersReadTheRecord := by
  intro s t
  refine ⟨⟨regRdByte_identity s t (by decide), regRdByte_identity s t (by decide), regRdByte_identity s t (by decide),
    regRdByte_identity s t (by decide)⟩, fun hf hp ht hgrp => ?_⟩
  have hbase : laneBase s.latch 0#2 = 0x00#8 := by rw [laneBase, hgrp]; decide
  have hl : readLanes t (laneBase s.latch 0#2) (List.range Width.w4.bytes) s.start = .ok (s.start,
      [t.dev.vid.extractLsb' 0 8, t.dev.vid.extractLsb' 8 8, t.dev.did.extractLsb' 0 8, t.dev.did.extractLsb' 8 8]) := by
    rw [hbase]; rfl
  rw [exec_dataRd32, ioRead_dataRead_of_lanes hf hp ht hl, assemble_quad, identity_word]
  rfl

/-! ## The read hooks (R146 to R149) -/

section ReadHooks

variable {σ : State} {t : Target} {r : Byte} (hid : ¬r ≤ 0x03#8) (hhdr : r ≠ 0x0E#8)
include hid hhdr

/-- R146: a remap reads the post-hook cell, raw. -/
theorem regRdByte_remap {c : Cell} {r' : Byte}
    (hpr : runPr t.dev.pr (Config.envDraw σ.draws) (σ.cell t.slot t.fn) r = some (c, some r')) :
    regRdByte σ t r = .ok (σ.draw.setCell t.slot t.fn c, c r') := by
  simp only [regRdByte, hid, hhdr, if_false, callPr, hpr]
  rw [readByte_setCell]

theorem regRdByte_unconfined (hpr : runPr t.dev.pr (Config.envDraw σ.draws) (σ.cell t.slot t.fn) r = none) :
    regRdByte σ t r = .error .hookUnconfined := by
  simp only [regRdByte, hid, hhdr, if_false, callPr, hpr]

variable {c : Cell} (hpr : runPr t.dev.pr (Config.envDraw σ.draws) (σ.cell t.slot t.fn) r = some (c, none))
include hpr

/-- R147: the override is called with the cell that the read hook left. -/
theorem regRdByte_blend {c' : Cell} {value mask : Byte}
    (hovr : runOvr t.dev.ovr (Config.envDraw (σ.draws + 1)) c r = some (c', some (value, mask))) :
    regRdByte σ t r = .ok ((σ.draw.setCell t.slot t.fn c).draw.setCell t.slot t.fn c', blend (c' r) value mask) := by
  simp only [regRdByte, hid, hhdr, if_false, callPr, hpr, callOvr, cell_setCell, setCell_draws, draw_draws, hovr]
  rw [readByte_setCell]

/-- R148: where both hooks decline, the read returns 0xFF. -/
theorem regRdByte_decline {c' : Cell} (hovr : runOvr t.dev.ovr (Config.envDraw (σ.draws + 1)) c r = some (c', none)) :
    regRdByte σ t r
      = .ok (((σ.draw.setCell t.slot t.fn c).draw.setCell t.slot t.fn c').note .readHookDecline, 0xFF#8) := by
  simp only [regRdByte, hid, hhdr, if_false, callPr, hpr, callOvr, cell_setCell, setCell_draws, draw_draws, hovr]

theorem regRdByte_override_unconfined (hovr : runOvr t.dev.ovr (Config.envDraw (σ.draws + 1)) c r = none) :
    regRdByte σ t r = .error .hookUnconfined := by
  simp only [regRdByte, hid, hhdr, if_false, callPr, hpr, callOvr, cell_setCell, setCell_draws, draw_draws, hovr]

end ReadHooks

/-- A DATA_RD8 whose lane is refused is refused. -/
theorem exec_dataRd8_of_lane_error {s : State} {t : Target} {k : BitVec 2} {e : Refusal} (hf : s.fault = false)
    (hp : s.phase = .init) (ht : s.resolve = .ok t) (hl : regRdByte s.start t (laneBase s.latch k) = .error e) :
    exec (.dataRd8 k) s = .refused e :=
  ioRead_dataRead_of_lanes_error hf hp ht (by simp [Width.bytes, List.range_succ, readLanes, hl])

/-- Settles O32: the one lane of the read, for each answer of the two hooks; the default override declines. -/
theorem readHooksRemapBlendOrDecline : Obligations.ReadHooksRemapBlendOrDecline := by
  rintro s t k r hf hp ht rfl hid hhdr
  have hdecline (c c' : Cell)
      (hpr : runPr t.dev.pr (Config.envDraw s.draws) (s.cell t.slot t.fn) (laneBase s.latch k) = some (c, none))
      (hovr : runOvr t.dev.ovr (Config.envDraw (s.draws + 1)) c (laneBase s.latch k) = some (c', none)) :
      ∃ u, exec (.dataRd8 k) s = .next u ∧ u.result = .rdata8 0xFF#8 ∧
        OnlyStore s u ∧ u.cell t.slot t.fn = c' ∧ u.draws = s.draws + 2 ∧ u.trace = [.readHookDecline] := by
    have hl := regRdByte_decline (σ := s.start) hid hhdr hpr hovr
    exact ⟨_, exec_dataRd8_of_lane hf hp ht hl, rfl, (regRdByte_onlyCell hl).onlyStore, cell_setCell .., rfl, rfl⟩
  refine ⟨fun c r' hpr => ?_, fun c c' value mask hpr hovr => ?_, hdecline, fun c hdef hpr => ?_, fun hpr => ?_,
    fun c hpr hovr => ?_⟩
  · have hl := regRdByte_remap (σ := s.start) hid hhdr hpr
    exact ⟨_, exec_dataRd8_of_lane hf hp ht hl, rfl, (regRdByte_onlyCell hl).onlyStore, cell_setCell .., rfl, rfl⟩
  · have hl := regRdByte_blend (σ := s.start) hid hhdr hpr hovr
    exact ⟨_, exec_dataRd8_of_lane hf hp ht hl, rfl, (regRdByte_onlyCell hl).onlyStore, cell_setCell .., rfl, rfl⟩
  · exact hdecline c c hpr (by rw [hdef, runOvr])
  · exact exec_dataRd8_of_lane_error hf hp ht (regRdByte_unconfined (σ := s.start) hid hhdr hpr)
  · exact exec_dataRd8_of_lane_error hf hp ht (regRdByte_override_unconfined (σ := s.start) hid hhdr hpr hovr)

end Sys2Proof.Machine
end

section
/-!
PROOFS. What a lane depends on (10_state.md R32; 42_register_policy.md R150, R151): its target's cell, the count of draws and
the target's subdevice count. So lanes keep every relation between states that agree on these, and cells do not interfere.
-/

namespace Sys2Proof.Machine

open Sys2Proof.Claims

/-! ## Relations that lanes keep -/

/-- Both computations fail for the same reason, or both succeed with related values. -/
def Related {α : Type} (P : α → α → Prop) : Except Refusal α → Except Refusal α → Prop
  | .ok x, .ok y => P x y
  | .error e, .error e' => e = e'
  | _, _ => False

theorem Related.ok {α : Type} {P : α → α → Prop} {x : α} {y : Except Refusal α} (h : Related P (.ok x) y) :
    ∃ y', y = .ok y' ∧ P x y' := by
  cases y with
  | ok y' => exact ⟨y', rfl, h⟩
  | error e => exact h.elim

theorem Related.error {α : Type} {P : α → α → Prop} {e : Refusal} {y : Except Refusal α} (h : Related P (.error e) y) :
    y = .error e := by
  cases y with
  | ok y' => exact h.elim
  | error e' => exact congrArg Except.error h.symm

/-- The states are related, and the values beside them are equal. -/
def WithValue {β : Type} (R : State → State → Prop) (x y : State × β) : Prop := R x.1 y.1 ∧ x.2 = y.2

/-- A lane of the target `t` cannot tell related states apart, and what it writes keeps them related. -/
structure LaneRel (t : Target) (R : State → State → Prop) : Prop where
  cell : ∀ {σ τ}, R σ τ → τ.cell t.slot t.fn = σ.cell t.slot t.fn
  draws : ∀ {σ τ}, R σ τ → τ.draws = σ.draws
  count : ∀ {σ τ}, R σ τ → τ.nsubAt t.slot t.fn = σ.nsubAt t.slot t.fn
  hook : ∀ {σ τ}, R σ τ → ∀ c, R (σ.draw.setCell t.slot t.fn c) (τ.draw.setCell t.slot t.fn c)
  byte : ∀ {σ τ}, R σ τ → ∀ r b, R (σ.writeByte t.slot t.fn r b) (τ.writeByte t.slot t.fn r b)
  note : ∀ {σ τ}, R σ τ → ∀ c, R (σ.note c) (τ.note c)

namespace LaneRel

variable {t : Target} {R : State → State → Prop} (hR : LaneRel t R) {σ τ : State} (h : R σ τ)
include hR h

theorem readByte (r : Byte) : τ.readByte t.slot t.fn r = σ.readByte t.slot t.fn r := congrFun (hR.cell h) r

theorem headerByte : headerByte τ t = headerByte σ t := by
  rw [Machine.headerByte, Machine.headerByte, hR.readByte h, hR.count h]

theorem callPw (r b : Byte) : Related (WithValue R) (callPw σ t r b) (callPw τ t r b) := by
  rw [Machine.callPw, Machine.callPw, hR.cell h, hR.draws h]
  cases runPw t.dev.pw (Config.envDraw σ.draws) (σ.cell t.slot t.fn) r b with
  | none => exact rfl
  | some x => exact ⟨hR.hook h x.1, rfl⟩

theorem callPr (r : Byte) : Related (WithValue R) (callPr σ t r) (callPr τ t r) := by
  rw [Machine.callPr, Machine.callPr, hR.cell h, hR.draws h]
  cases runPr t.dev.pr (Config.envDraw σ.draws) (σ.cell t.slot t.fn) r with
  | none => exact rfl
  | some x => exact ⟨hR.hook h x.1, rfl⟩

theorem callOvr (r : Byte) : Related (WithValue R) (callOvr σ t r) (callOvr τ t r) := by
  rw [Machine.callOvr, Machine.callOvr, hR.cell h, hR.draws h]
  cases runOvr t.dev.ovr (Config.envDraw σ.draws) (σ.cell t.slot t.fn) r with
  | none => exact rfl
  | some x => exact ⟨hR.hook h x.1, rfl⟩

/-- R150: a write lane. -/
theorem regWrByte (r b : Byte) : Related R (regWrByte σ t r b) (regWrByte τ t r b) := by
  rw [Machine.regWrByte, Machine.regWrByte, hR.cell h]
  split
  · exact hR.note h _
  split
  · exact hR.note h _
  have hcall := hR.callPw h r b
  cases hσ : Machine.callPw σ t r b with
  | error e =>
    rw [hσ] at hcall
    rw [hcall.error]
    exact rfl
  | ok x =>
    rw [hσ] at hcall
    obtain ⟨⟨τ', res⟩, hτ, hx, rfl⟩ := hcall.ok
    rw [hτ]
    obtain ⟨σ', _ | b'⟩ := x
    · exact hR.note hx _
    · exact hR.byte hx _ _

/-- R151: a read lane, which returns the same byte too. -/
theorem regRdByte (r : Byte) : Related (WithValue R) (regRdByte σ t r) (regRdByte τ t r) := by
  rw [Machine.regRdByte, Machine.regRdByte, hR.headerByte h]
  split
  · exact ⟨h, rfl⟩
  split
  · exact ⟨h, rfl⟩
  have hcall := hR.callPr h r
  cases hσ : Machine.callPr σ t r with
  | error e =>
    rw [hσ] at hcall
    rw [hcall.error]
    exact rfl
  | ok x =>
    rw [hσ] at hcall
    obtain ⟨⟨τ', m⟩, hτ, hx, rfl⟩ := hcall.ok
    rw [hτ]
    obtain ⟨σ', _ | r'⟩ := x
    · have hcall' := hR.callOvr hx r
      cases hσ' : Machine.callOvr σ' t r with
      | error e =>
        rw [hσ'] at hcall'
        simp only [hcall'.error, hσ']
        exact rfl
      | ok y =>
        rw [hσ'] at hcall'
        obtain ⟨⟨τ'', o⟩, hτ', hy, rfl⟩ := hcall'.ok
        simp only [hτ', hσ']
        obtain ⟨σ'', _ | ⟨value, mask⟩⟩ := y
        · exact ⟨hR.note hy _, rfl⟩
        · exact ⟨hy, by simp only [hR.readByte hy]⟩
    · exact ⟨hx, (hR.readByte hx r').symm⟩

end LaneRel

/-- R115: the write lanes of an access. -/
theorem LaneRel.writeLanes {t : Target} {R : State → State → Prop} (hR : LaneRel t R) (base : Byte) (v : Word)
    (is : List Nat) {σ τ : State} (h : R σ τ) : Related R (writeLanes t base v is σ) (writeLanes t base v is τ) := by
  induction is generalizing σ τ with
  | nil => exact h
  | cons i is ih =>
    have hlane := hR.regWrByte h (laneReg base i) (laneByte v i)
    rw [Machine.writeLanes, Machine.writeLanes]
    cases hσ : Machine.regWrByte σ t (laneReg base i) (laneByte v i) with
    | error e =>
      rw [hσ] at hlane
      rw [hlane.error]
      exact rfl
    | ok σ' =>
      rw [hσ] at hlane
      obtain ⟨τ', hτ, h'⟩ := hlane.ok
      rw [hτ]
      exact ih h'

/-- R116: the read lanes of an access. -/
theorem LaneRel.readLanes {t : Target} {R : State → State → Prop} (hR : LaneRel t R) (base : Byte) (is : List Nat)
    {σ τ : State} (h : R σ τ) : Related (WithValue R) (readLanes t base is σ) (readLanes t base is τ) := by
  induction is generalizing σ τ with
  | nil => exact ⟨h, rfl⟩
  | cons i is ih =>
    have hlane := hR.regRdByte h (laneReg base i)
    rw [Machine.readLanes, Machine.readLanes]
    cases hσ : Machine.regRdByte σ t (laneReg base i) with
    | error e =>
      rw [hσ] at hlane
      rw [hlane.error]
      exact rfl
    | ok x =>
      rw [hσ] at hlane
      obtain ⟨⟨τ', b⟩, hτ, hx, rfl⟩ := hlane.ok
      rw [hτ]
      have hrest := ih hx
      obtain ⟨σ', b⟩ := x
      simp only
      cases hσ' : Machine.readLanes t base is σ' with
      | error e =>
        rw [hσ'] at hrest
        rw [hrest.error]
        exact rfl
      | ok y =>
        rw [hσ'] at hrest
        obtain ⟨⟨τ'', bs⟩, hτ', hy, rfl⟩ := hrest.ok
        rw [hτ']
        exact ⟨hy, rfl⟩

/-! ## Cells do not interfere (R32) -/

/-- The states agree but for other cells of the store, in the trace too. -/
def AgreeAndTrace (n : Fin 32) (f : Fin 8) (σ τ : State) : Prop := AgreeOnCell n f σ τ ∧ σ.trace = τ.trace

theorem agreeAndTrace_laneRel (t : Target) : LaneRel t (AgreeAndTrace t.slot t.fn) where
  cell h := h.1.2.2.symm
  draws h := h.1.2.1.symm
  count h := by rw [Controller.nsubAt, Controller.nsubAt, Controller.subCount, Controller.subCount, h.1.1]
  hook h c := by
    obtain ⟨⟨hc, hd, hcell⟩, htr⟩ := h
    refine ⟨⟨?_, congrArg (· + 1) hd, ?_⟩, htr⟩
    · simp only [setCell_toController, draw_toController]; rw [hc]
    · rw [cell_setCell, cell_setCell]
  byte h r b := by
    obtain ⟨⟨hc, hd, hcell⟩, htr⟩ := h
    refine ⟨⟨?_, hd, funext fun x => ?_⟩, htr⟩
    · simp only [writeByte_toController]; rw [hc]
    · exact (readByte_writeByte ..).trans ((congrArg (ite (x = r) b) (congrFun hcell x)).trans (readByte_writeByte ..).symm)
  note h c := ⟨h.1, congrArg (· ++ [c]) h.2⟩

/-- The data-port read of each width is a read of that width. -/
theorem exec_dataReadInstr (w : Width) (k : BitVec 2) (s : State) :
    exec (dataReadInstr w k) s = ioRead w (dataRead w k) s := by
  cases w <;> rfl

/-- A data-port transaction is a read or a write of some width. -/
theorem isData_cases {i : Instr} (h : isData i = true) :
    (∃ w k, i = dataReadInstr w k) ∨ ∃ w k v, i = dataWriteInstr w k v := by
  cases i with
  | dataRd8 k => exact .inl ⟨.w1, k, rfl⟩
  | dataRd16 k => exact .inl ⟨.w2, k, rfl⟩
  | dataRd32 k => exact .inl ⟨.w4, k, rfl⟩
  | dataWr8 k v => exact .inr ⟨.w1, k, v, rfl⟩
  | dataWr16 k v => exact .inr ⟨.w2, k, v, rfl⟩
  | dataWr32 k v => exact .inr ⟨.w4, k, v, rfl⟩
  | addrRd | addrWr | construct | register | shutdown | destroy | legacyCb => cases h

/-- A completed data-port read of a target came from its lanes. -/
theorem dataRead_lanes {s u : State} {t : Target} {w : Width} {k : BitVec 2} (hp : s.phase = .init)
    (ht : s.resolve = .ok t) (h : exec (dataReadInstr w k) s = .next u) :
    ∃ τ bs, readLanes t (laneBase s.latch k) (List.range w.bytes) s.start = .ok (τ, bs) ∧
      u = τ.answer (Result.ofWord w (assemble bs)) := by
  obtain ⟨-, ⟨-, τ, v, hb, rfl⟩ | ⟨hn, -⟩⟩ := ioRead_next (exec_dataReadInstr w k s ▸ h)
  · rcases dataRead_cases hb with ⟨c, hc, -⟩ | ⟨t', bs, ht', hl, rfl, -⟩
    · rw [start_toController, ht] at hc; cases hc
    · rw [start_toController, ht] at ht'
      cases ht'
      exact ⟨τ, bs, hl, rfl⟩
  · exact absurd hp hn

/-- A completed data-port write of a target came from its lanes. -/
theorem dataWrite_lanes {s u : State} {t : Target} {w : Width} {k : BitVec 2} {v : Word} (hp : s.phase = .init)
    (ht : s.resolve = .ok t) (h : exec (dataWriteInstr w k v) s = .next u) :
    writeLanes t (laneBase s.latch k) v (List.range w.bytes) s.start = .ok u := by
  obtain ⟨-, ⟨-, hb⟩ | ⟨hn, -⟩⟩ := ioWrite_next (exec_dataWriteInstr w k v s ▸ h)
  · rwa [dataWrite_of_target ht] at hb
  · exact absurd hp hn

/-- Settles O26: the lanes of both runs are related by `AgreeAndTrace`. -/
theorem cellsDoNotInterfere : Obligations.CellsDoNotInterfere := by
  intro i s₁ s₂ u₁ t hi hp ht hagree h
  have hc := hagree.1
  have hR := agreeAndTrace_laneRel t
  have hstart : AgreeAndTrace t.slot t.fn s₁.start s₂.start := ⟨hagree, rfl⟩
  have hf₂ : s₂.fault = false := by rw [← (exec_effect h).1, hc]
  have hp₂ : s₂.phase = .init := by rw [← hp, hc]
  have ht₂ : s₂.resolve = .ok t := (resolve_congr hc).symm.trans ht
  have hlatch : s₁.latch = s₂.latch := by rw [hc]
  rcases isData_cases hi with ⟨w, k, rfl⟩ | ⟨w, k, v, rfl⟩
  · obtain ⟨τ, bs, hl, rfl⟩ := dataRead_lanes hp ht h
    have hlanes := hR.readLanes (laneBase s₁.latch k) (List.range w.bytes) hstart
    rw [hl] at hlanes
    obtain ⟨⟨τ₂, bs₂⟩, hl₂, ⟨hu, htr⟩, rfl⟩ := hlanes.ok
    rw [hlatch] at hl₂
    exact ⟨_, (exec_dataReadInstr w k s₂).trans (ioRead_dataRead_of_lanes hf₂ hp₂ ht₂ hl₂), rfl, htr.symm, hu⟩
  · have hl := dataWrite_lanes hp ht h
    have hlanes := hR.writeLanes (laneBase s₁.latch k) v (List.range w.bytes) hstart
    rw [hl] at hlanes
    obtain ⟨u₂, hl₂, hu, htr⟩ := hlanes.ok
    rw [hlatch] at hl₂
    refine ⟨u₂, (exec_dataWriteInstr w k v s₂).trans (ioWrite_dataWrite_of_lanes hf₂ hp₂ ht₂ hl₂), ?_, htr.symm, hu⟩
    rw [(writeLanes_onlyCell hl).result, (writeLanes_onlyCell hl₂).result]
    rfl

end Sys2Proof.Machine
end

section
/-!
PROOFS. A wide access as its 1-byte accesses (20_memory.md R54, R55; 70_reset_and_hazards.md R246): the two runs stay
synchronised lane by lane, whatever the hooks are, at any latch that names the same function.
-/

namespace Sys2Proof.Machine

open Sys2Proof.Claims

/-! ## Latches that name the same function -/

/-- The latches agree on the enable condition, the device and the function. -/
structure SameTarget (l l' : Word) : Prop where
  enabled : latchEnabled l' = latchEnabled l
  dev : latchDev l' = latchDev l
  fn : latchFn l' = latchFn l

theorem SameTarget.refl (l : Word) : SameTarget l l := ⟨rfl, rfl, rfl⟩

/-- R110: they resolve alike, whatever the store holds. -/
theorem resolve_sameTarget {c c' : Controller} (h : SameTarget c.latch c'.latch)
    (hc : c' = { c with latch := c'.latch, store := c'.store }) : c'.resolve = c.resolve := by
  obtain ⟨he, hd, hf⟩ := h
  rw [hc]
  simp only [Controller.resolve, he, hd, hf]
  rfl

/-- A field of the latch that lies above the register bits is kept by `latchFor`. -/
theorem latchFor_field (l : Word) (r : Byte) {start len : Nat}
    (hmask : (0xFFFFFF00#32).extractLsb' start len = BitVec.allOnes len)
    (hreg : ((r &&& 0xFC#8).zeroExtend 32).extractLsb' start len = 0#len) :
    (latchFor l r).extractLsb' start len = l.extractLsb' start len := by
  rw [latchFor, BitVec.extractLsb'_or, BitVec.extractLsb'_and, hmask, hreg, BitVec.and_allOnes, BitVec.or_zero]

theorem latchFor_sameTarget (l : Word) (r : Byte) : SameTarget l (latchFor l r) := by
  obtain ⟨h31, hbus, hdev, hfn, -⟩ := groupBits_fields r
  have hen : (latchFor l r).getLsbD 31 = l.getLsbD 31 := by
    rw [latchFor, BitVec.getLsbD_or, BitVec.getLsbD_and, h31]
    simp
  refine ⟨?_, ?_, ?_⟩
  · rw [Bool.eq_iff_iff, latchEnabled_iff, latchEnabled_iff, hen, latchFor_field l r (by decide) hbus]
  · rw [latchDev, latchDev, latchFor_field l r (by decide) hdev]
  · rw [latchFn, latchFn, latchFor_field l r (by decide) hfn]

/-- R84: the latch of a register with the register's port offset addresses it by lane 0. -/
theorem latchFor_laneBase (l : Word) (r : Byte) : laneBase (latchFor l r) (r.extractLsb' 0 2) = r := by
  obtain ⟨-, -, -, -, hgrp⟩ := groupBits_fields r
  have hmask : (0xFFFFFF00#32).extractLsb' 2 6 = 0#6 := by decide
  refine laneBase_eq_of_group ?_
  rw [latchFor, BitVec.extractLsb'_or, BitVec.extractLsb'_and, hmask, hgrp, BitVec.and_zero, BitVec.zero_or]

/-- R73: within the dword group, lane `i` at port offset `k` is lane 0 at port offset `k + i`. -/
theorem laneBase_add (l : Word) (k : BitVec 2) {i : Nat} (h : k.toNat + i < 4) :
    laneBase l (k + BitVec.ofNat 2 i) = regNum l k i := by
  apply BitVec.eq_of_toNat_eq
  rw [laneBase_toNat, regNum, BitVec.toNat_ofNat, BitVec.toNat_add, BitVec.toNat_ofNat]
  omega

/-- R75: the byte of lane `i` is the low byte of the shifted word. -/
theorem laneByte_shift (v : Word) (i : Nat) : laneByte (v >>> (8 * i)) 0 = laneByte v i := by
  apply BitVec.eq_of_toNat_eq
  rw [laneByte_toNat, laneByte_toNat, BitVec.toNat_ushiftRight, Nat.shiftRight_eq_div_pow]
  simp

/-! ## Synchronised runs -/

/-- Of an access that began in `s`: the wide access has reached `σ`, and the 1-byte accesses `τ`, which is `σ` but for the latch,
the answer and the trace. -/
structure Synced (s σ τ : State) : Prop where
  wide : σ.toController = { s.toController with store := σ.store }
  bytes : τ.toController = { σ.toController with latch := τ.latch }
  draws : τ.draws = σ.draws
  input : τ.input = σ.input
  target : SameTarget s.latch τ.latch

namespace Synced

variable {s σ τ : State}

theorem begin (s : State) : Synced s s.start s := ⟨rfl, rfl, rfl, rfl, .refl _⟩

theorem start (h : Synced s σ τ) : Synced s σ τ.start := ⟨h.wide, h.bytes, h.draws, h.input, h.target⟩

theorem setLatch (h : Synced s σ τ) {l : Word} (hl : SameTarget s.latch l) : Synced s σ (τ.start.setLatch l) :=
  ⟨h.wide, by simp only [setLatch_toController, start_toController]; rw [h.bytes], h.draws, h.input, hl⟩

theorem fault (h : Synced s σ τ) : τ.fault = s.fault := by rw [h.bytes, h.wide]
theorem phase (h : Synced s σ τ) : τ.phase = s.phase := by rw [h.bytes, h.wide]

theorem resolve (h : Synced s σ τ) : τ.resolve = s.resolve :=
  resolve_sameTarget h.target (by rw [h.bytes, h.wide])

theorem latch_wide (h : Synced s σ τ) : σ.latch = s.latch := by rw [h.wide]

/-- The states are equal once the latch is put back. -/
theorem toController_eq (h : Synced s σ τ) (hl : τ.latch = s.latch) : σ.toController = τ.toController := by
  rw [h.bytes, hl, ← h.latch_wide]

theorem laneRel (s : State) (t : Target) : LaneRel t (Synced s) where
  cell h := by rw [State.cell, State.cell, h.bytes]
  draws h := h.draws
  count h := by rw [Controller.nsubAt, Controller.nsubAt, Controller.subCount, Controller.subCount, h.bytes]
  hook h c := by
    refine ⟨?_, ?_, congrArg (· + 1) h.draws, h.input, h.target⟩
    · simp only [setCell_toController, draw_toController]; rw [h.wide]
    · simp only [setCell_toController, draw_toController]; rw [h.bytes]
  byte h r b := by
    refine ⟨?_, ?_, h.draws, h.input, h.target⟩
    · simp only [writeByte_toController]; rw [h.wide]
    · simp only [writeByte_toController]; rw [h.bytes]
  note h _ := ⟨h.wide, h.bytes, h.draws, h.input, h.target⟩

end Synced

/-! ## Lanes and the transactions that stand for them -/

/-- Lane `i` of the wide write that began in `s` (R115); without a target it does nothing (R117). -/
def writeLane (s : State) (k : BitVec 2) (v : Word) (i : Nat) (σ : State) : Except Refusal State :=
  match s.resolve with
  | .ok t => regWrByte σ t (regNum s.latch k i) (laneByte v i)
  | .error _ => .ok σ

/-- The lanes of the list, in order. -/
def writeLaneList (s : State) (k : BitVec 2) (v : Word) : List Nat → State → Except Refusal State
  | [], σ => .ok σ
  | i :: is, σ =>
    match writeLane s k v i σ with
    | .error e => .error e
    | .ok τ => writeLaneList s k v is τ

/-- The run is refused for the reason of the computation, or both end, in states that `P` relates. -/
def Simulates (P : State → State → Prop) : Except Refusal State → Host.Outcome State Fault Refusal → Prop
  | .ok σ, .next τ => P σ τ
  | .error e, .refused e' => e = e'
  | _, _ => False

theorem Simulates.ok {P : State → State → Prop} {σ : State} {o : Host.Outcome State Fault Refusal}
    (h : Simulates P (.ok σ) o) : ∃ τ, o = .next τ ∧ P σ τ := by
  cases o with
  | next τ => exact ⟨τ, rfl, h⟩
  | fault r => exact h.elim
  | refused r => exact h.elim

theorem Simulates.error {P : State → State → Prop} {e : Refusal} {o : Host.Outcome State Fault Refusal}
    (h : Simulates P (.error e) o) : o = .refused e := by
  cases o with
  | next τ => exact h.elim
  | fault r => exact h.elim
  | refused r => exact congrArg Host.Outcome.refused (Eq.symm h)

theorem Simulates.mono {P Q : State → State → Prop} (hPQ : ∀ {σ τ}, P σ τ → Q σ τ) {x : Except Refusal State}
    {o : Host.Outcome State Fault Refusal} (h : Simulates P x o) : Simulates Q x o := by
  cases x with
  | ok σ => obtain ⟨τ, rfl, hP⟩ := h.ok; exact hPQ hP
  | error e => rw [h.error]; exact rfl

theorem runInstrs_singleton (i : Instr) (s : State) : runInstrs [i] s = exec i s := by
  rw [runInstrs]
  cases exec i s <;> rfl

theorem runInstrs_append_next {is js : List Instr} {s t : State} (h : runInstrs is s = .next t) :
    runInstrs (is ++ js) s = runInstrs js t := by
  induction is generalizing s with
  | nil => cases h; rfl
  | cons i is ih =>
    obtain ⟨u, hu, ht⟩ := runInstrs_cons_next h
    rw [List.cons_append, runInstrs_cons _ hu, ih ht]

theorem runInstrs_append_refused {is : List Instr} (js : List Instr) {s : State} {e : Refusal}
    (h : runInstrs is s = .refused e) : runInstrs (is ++ js) s = .refused e := by
  induction is generalizing s with
  | nil => cases h
  | cons i is ih =>
    rw [List.cons_append, runInstrs]
    rw [runInstrs] at h
    cases hi : exec i s with
    | next u => rw [hi] at h; exact ih h
    | fault r => rw [hi] at h; cases h
    | refused r => rw [hi] at h; exact h

/-- The transactions of each lane simulate it, so all of them simulate the lanes. -/
theorem writeLaneList_simulated {s : State} {k : BitVec 2} {v : Word} {P : State → State → Prop} {prog : Nat → List Instr}
    {is : List Nat}
    (hlane : ∀ i ∈ is, ∀ σ τ, P σ τ → Simulates P (writeLane s k v i σ) (runInstrs (prog i) τ)) {σ τ : State}
    (h : P σ τ) : Simulates P (writeLaneList s k v is σ) (runInstrs (is.flatMap prog) τ) := by
  induction is generalizing σ τ with
  | nil => exact h
  | cons i is ih =>
    have hi := hlane i (List.mem_cons_self ..) σ τ h
    rw [writeLaneList, List.flatMap_cons]
    cases hσ : writeLane s k v i σ with
    | error e =>
      rw [hσ] at hi
      rw [runInstrs_append_refused _ hi.error]
      exact rfl
    | ok σ' =>
      rw [hσ] at hi
      obtain ⟨τ', hτ, h'⟩ := hi.ok
      rw [runInstrs_append_next hτ]
      exact ih (fun j hj => hlane j (List.mem_cons_of_mem i hj)) h'

/-! ## A wide write is its lanes (R115, R117) -/

section WideWrite

variable {s : State} (hf : s.fault = false) (hp : s.phase = .init)

theorem writeLaneList_target {t : Target} (ht : s.resolve = .ok t) (k : BitVec 2) (v : Word) (is : List Nat) (σ : State) :
    writeLaneList s k v is σ = writeLanes t (laneBase s.latch k) v is σ := by
  induction is generalizing σ with
  | nil => rfl
  | cons i is ih =>
    rw [writeLaneList, writeLane, ht, writeLanes, laneReg_laneBase]
    simp only
    cases regWrByte σ t (regNum s.latch k i) (laneByte v i) with
    | error e => rfl
    | ok τ => exact ih τ

theorem writeLaneList_noTarget {c : Cause} (hc : s.resolve = .error c) (k : BitVec 2) (v : Word) (is : List Nat) (σ : State) :
    writeLaneList s k v is σ = .ok σ := by
  induction is generalizing σ with
  | nil => rfl
  | cons i is ih => rw [writeLaneList, writeLane, hc]; exact ih σ

include hf hp

/-- What simulates the lanes of a bound wide write, and puts the latch back, has the effect of the write. -/
theorem sameEffect_of_lanes (w : Width) (k : BitVec 2) (v : Word) {o : Host.Outcome State Fault Refusal}
    (h : Simulates (fun σ τ => Synced s σ τ ∧ τ.latch = s.latch) (writeLaneList s k v (List.range w.bytes) s.start) o) :
    SameEffect (exec (dataWriteInstr w k v) s) o := by
  rw [exec_dataWriteInstr]
  cases ht : s.resolve with
  | error c =>
    rw [writeLaneList_noTarget ht] at h
    obtain ⟨τ, rfl, hsync, hl⟩ := h.ok
    rw [ioWrite_dataWrite_noTarget w k v hf hp ht]
    exact ⟨hsync.toController_eq hl, hsync.draws.symm, hsync.input.symm⟩
  | ok t =>
    rw [writeLaneList_target ht] at h
    cases hl : writeLanes t (laneBase s.latch k) v (List.range w.bytes) s.start with
    | error e =>
      rw [hl] at h
      rw [ioWrite_dataWrite_of_lanes_error hf hp ht hl, h.error]
      exact rfl
    | ok σ =>
      rw [hl] at h
      obtain ⟨τ, rfl, hsync, hlatch⟩ := h.ok
      rw [ioWrite_dataWrite_of_lanes hf hp ht hl]
      exact ⟨hsync.toController_eq hlatch, hsync.draws.symm, hsync.input.symm⟩

/-- A 1-byte write of the lane's register simulates the lane, at any latch of the same target. -/
theorem Synced.dataWr8 {σ τ : State} (h : Synced s σ τ) {k k' : BitVec 2} {v v' : Word} {i : Nat}
    (hreg : laneBase τ.latch k' = regNum s.latch k i) (hbyte : laneByte v' 0 = laneByte v i) :
    Simulates (fun σ' τ' => Synced s σ' τ' ∧ τ'.latch = τ.latch) (writeLane s k v i σ) (exec (.dataWr8 k' v') τ) := by
  have hfτ := h.fault.trans hf
  have hpτ := h.phase.trans hp
  rw [writeLane]
  cases ht : s.resolve with
  | error c =>
    rw [exec_dataWr8, ioWrite_dataWrite_noTarget .w1 k' v' hfτ hpτ (h.resolve.trans ht)]
    exact ⟨⟨h.wide, h.bytes, h.draws, h.input, h.target⟩, rfl⟩
  | ok t =>
    have htτ := h.resolve.trans ht
    have hlane := (Synced.laneRel s t).regWrByte h.start (regNum s.latch k i) (laneByte v i)
    simp only
    cases hσ : regWrByte σ t (regNum s.latch k i) (laneByte v i) with
    | error e =>
      rw [hσ] at hlane
      rw [exec_dataWr8_of_lane_error hfτ hpτ htτ (by rw [hreg, hbyte, hlane.error])]
      exact rfl
    | ok σ' =>
      rw [hσ] at hlane
      obtain ⟨τ', hτ, hsync⟩ := hlane.ok
      rw [exec_dataWr8_of_lane hfτ hpτ htτ (by rw [hreg, hbyte, hτ])]
      exact ⟨hsync, (regWrByte_onlyCell hτ).latch⟩

/-- R55: an ADDR_WR of the lane's register and then the 1-byte write simulate the lane. -/
theorem Synced.addrWr_dataWr8 {σ τ : State} (h : Synced s σ τ) (k : BitVec 2) (v : Word) (i : Nat) :
    Simulates (Synced s) (writeLane s k v i σ) (runInstrs [.addrWr (latchFor s.latch (regNum s.latch k i)),
      .dataWr8 ((regNum s.latch k i).extractLsb' 0 2) (v >>> (8 * i))] τ) := by
  have haddr : exec (.addrWr (latchFor s.latch (regNum s.latch k i))) τ = .next _ :=
    exec_addrWr_bound _ (h.fault.trans hf) (h.phase.trans hp)
  rw [runInstrs_cons _ haddr, runInstrs_singleton]
  exact ((h.setLatch (latchFor_sameTarget s.latch _)).dataWr8 hf hp (latchFor_laneBase s.latch _)
    (laneByte_shift v i)).mono And.left

/-- The 1-byte writes of a group's lanes, at the access's own latch (R54). -/
theorem Synced.group {k : BitVec 2} (v : Word) {is : List Nat} (his : ∀ i ∈ is, k.toNat + i < 4) :
    Simulates (fun σ τ => Synced s σ τ ∧ τ.latch = s.latch) (writeLaneList s k v is s.start)
      (runInstrs (is.flatMap fun i => [.dataWr8 (k + BitVec.ofNat 2 i) (v >>> (8 * i))]) s) := by
  refine writeLaneList_simulated (fun i hi σ τ ⟨hsync, hl⟩ => ?_) ⟨.begin s, rfl⟩
  rw [runInstrs_singleton]
  exact (hsync.dataWr8 hf hp (by rw [hl, laneBase_add _ _ (his i hi)]) (laneByte_shift v i)).mono
    fun ⟨hsync', hl'⟩ => ⟨hsync', hl'.trans hl⟩

/-- R54, R55: the 1-byte writes of any width at any offset, with the latch put back. -/
theorem Synced.byteWrites (w : Width) (k : BitVec 2) (v : Word) :
    Simulates (fun σ τ => Synced s σ τ ∧ τ.latch = s.latch) (writeLaneList s k v (List.range w.bytes) s.start)
      (runInstrs (byteWrites s.latch w k v) s) := by
  have hlanes := writeLaneList_simulated (s := s) (k := k) (v := v) (P := Synced s) (is := List.range w.bytes)
    (fun i _ σ τ h => h.addrWr_dataWr8 hf hp k v i) (.begin s)
  rw [Claims.byteWrites]
  cases hσ : writeLaneList s k v (List.range w.bytes) s.start with
  | error e =>
    rw [hσ] at hlanes
    rw [runInstrs_append_refused _ hlanes.error]
    exact rfl
  | ok σ =>
    rw [hσ] at hlanes
    obtain ⟨τ, hτ, hsync⟩ := hlanes.ok
    rw [runInstrs_append_next hτ, runInstrs_singleton, exec_addrWr_bound _ (hsync.fault.trans hf) (hsync.phase.trans hp)]
    exact ⟨hsync.setLatch (.refl _), rfl⟩

end WideWrite

/-! ## Faulted and unbound runs (R214, R62) -/

theorem runInstrs_fault {is : List Instr} (hne : is ≠ []) {s : State} (hf : s.fault = true) :
    runInstrs is s = .refused .faultSet := by
  cases is with
  | nil => exact absurd rfl hne
  | cons i is => rw [runInstrs, exec_fault i hf]

/-- The transaction is an I/O write, which an unbound block does not see. -/
def isIoWrite : Instr → Bool
  | .addrWr _ => true
  | .dataWr8 _ _ => true
  | .dataWr16 _ _ => true
  | .dataWr32 _ _ => true
  | _ => false

theorem exec_ioWrite_unbound {i : Instr} (hi : isIoWrite i = true) {s : State} (hf : s.fault = false) (hp : s.phase ≠ .init) :
    exec i s = .next s.start := by
  cases i with
  | addrWr v => exact (exec_addrWr v s).trans (ioWrite_unbound hf hp)
  | dataWr8 k v => exact (exec_dataWr8 k v s).trans (ioWrite_unbound hf hp)
  | dataWr16 k v => exact (exec_dataWr16 k v s).trans (ioWrite_unbound hf hp)
  | dataWr32 k v => exact (exec_dataWr32 k v s).trans (ioWrite_unbound hf hp)
  | addrRd | dataRd8 | dataRd16 | dataRd32 | construct | register | shutdown | destroy | legacyCb => cases hi

theorem runInstrs_ioWrite_unbound {is : List Instr} (his : ∀ i ∈ is, isIoWrite i = true) {s : State} (hf : s.fault = false)
    (hp : s.phase ≠ .init) : ∃ t, runInstrs is s = .next t ∧ t.toController = s.toController ∧ t.draws = s.draws ∧
      t.input = s.input := by
  induction is generalizing s with
  | nil => exact ⟨s, rfl, rfl, rfl, rfl⟩
  | cons i is ih =>
    obtain ⟨t, ht, hsame⟩ := ih (fun j hj => his j (List.mem_cons_of_mem i hj)) (s := s.start) hf hp
    exact ⟨t, (runInstrs_cons _ (exec_ioWrite_unbound (his i (List.mem_cons_self ..)) hf hp)).trans ht, hsame⟩

/-- Writes that simulate the lanes on a bound port have the effect of the wide write in every state. -/
theorem sameEffect_dataWrite {s : State} (w : Width) (k : BitVec 2) (v : Word) {is : List Instr} (hne : is ≠ [])
    (his : ∀ i ∈ is, isIoWrite i = true)
    (hbound : s.fault = false → s.phase = .init → Simulates (fun σ τ => Synced s σ τ ∧ τ.latch = s.latch)
      (writeLaneList s k v (List.range w.bytes) s.start) (runInstrs is s)) :
    SameEffect (exec (dataWriteInstr w k v) s) (runInstrs is s) := by
  cases hf : s.fault with
  | true => rw [exec_fault _ hf, runInstrs_fault hne hf]; exact rfl
  | false =>
    by_cases hp : s.phase = .init
    · exact sameEffect_of_lanes hf hp w k v (hbound hf hp)
    · obtain ⟨t, ht, hc, hd, hin⟩ := runInstrs_ioWrite_unbound his hf hp
      rw [exec_dataWriteInstr, ioWrite_unbound hf hp, ht]
      exact ⟨hc.symm, hd.symm, hin.symm⟩

theorem byteWrites_isIoWrite (l : Word) (w : Width) (k : BitVec 2) (v : Word) :
    ∀ i ∈ byteWrites l w k v, isIoWrite i = true := by
  intro i hi
  simp only [byteWrites, List.mem_append, List.mem_flatMap, List.mem_cons, List.not_mem_nil, or_false] at hi
  rcases hi with ⟨j, -, rfl | rfl⟩ | rfl
  all_goals rfl

/-- Settles O24: the 1-byte writes simulate the lanes, within a group by `Synced.group` and anywhere by `Synced.byteWrites`. -/
theorem wideWriteIsItsByteWrites : Obligations.WideWriteIsItsByteWrites := by
  refine ⟨fun s v => ⟨?_, fun k hk => ?_⟩, fun s w k v => ?_⟩
  · refine sameEffect_dataWrite .w4 0#2 v nofun (by simp [isIoWrite]) fun hf hp => ?_
    have h := Synced.group hf hp (k := 0#2) v (is := List.range Width.w4.bytes) (by decide)
    simpa [Width.bytes, List.range_succ] using h
  · have hlt : k.toNat < 3 := by
      have hall : ∀ k : BitVec 2, k ≠ 3#2 → k.toNat < 3 := by decide
      exact hall k hk
    refine sameEffect_dataWrite .w2 k v nofun (by simp [isIoWrite]) fun hf hp => ?_
    have h := Synced.group hf hp (k := k) v (is := List.range Width.w2.bytes) (by
      intro i hi
      rw [List.mem_range, Width.bytes] at hi
      omega)
    simpa [Width.bytes, List.range_succ] using h
  · exact sameEffect_dataWrite w k v (by simp [byteWrites]) (byteWrites_isIoWrite s.latch w k v)
      fun hf hp => Synced.byteWrites hf hp w k v

end Sys2Proof.Machine
end

section
/-!
PROOFS. A wide read as its 1-byte reads (20_memory.md R54, R55): the lanes it took, and the 1-byte read that follows each of
them in a synchronised run.
-/

namespace Sys2Proof.Machine

open Sys2Proof.Claims

/-! ## The lanes of a completed read (R116, R117) -/

/-- Lane `i` of the wide read that began in `s` goes from `σ` to `σ'` and returns `b`; without a target it returns ones. -/
def ReadLane (s : State) (k : BitVec 2) (i : Nat) (σ σ' : State) (b : Byte) : Prop :=
  (∃ t, s.resolve = .ok t ∧ regRdByte σ t (regNum s.latch k i) = .ok (σ', b)) ∨
    (∃ c, s.resolve = .error c) ∧ σ' = σ ∧ b = 0xFF#8

/-- The lanes of the list, in order, and the bytes they return. -/
inductive ReadLaneList (s : State) (k : BitVec 2) : List Nat → State → State → List Byte → Prop
  | nil (σ : State) : ReadLaneList s k [] σ σ []
  | cons {i : Nat} {is : List Nat} {σ τ υ : State} {b : Byte} {bs : List Byte} :
      ReadLane s k i σ τ b → ReadLaneList s k is τ υ bs → ReadLaneList s k (i :: is) σ υ (b :: bs)

theorem ReadLaneList.of_target {s : State} {t : Target} (ht : s.resolve = .ok t) {k : BitVec 2} {is : List Nat} {σ τ : State}
    {bs : List Byte} (h : readLanes t (laneBase s.latch k) is σ = .ok (τ, bs)) : ReadLaneList s k is σ τ bs := by
  induction is generalizing σ bs with
  | nil => cases h; exact .nil _
  | cons i is ih =>
    rw [readLanes, laneReg_laneBase] at h
    split at h
    · cases h
    next σ' b hb =>
    split at h
    · cases h
    next bs' hr =>
    cases h
    exact .cons (.inl ⟨t, ht, hb⟩) (ih hr)

theorem ReadLaneList.of_noTarget {s : State} {c : Cause} (hc : s.resolve = .error c) (k : BitVec 2) (is : List Nat)
    (σ : State) : ReadLaneList s k is σ σ (List.replicate is.length 0xFF#8) := by
  induction is with
  | nil => exact .nil σ
  | cons i is ih => exact .cons (.inr ⟨⟨c, hc⟩, rfl, rfl⟩) ih

/-- R117: all-ones of a width is a lane of ones for each of its bytes. -/
theorem ofWord_allOnes (w : Width) :
    Result.ofWord w allOnes = Result.ofWord w (assemble (List.replicate (List.range w.bytes).length 0xFF#8)) := by
  cases w <;> decide

/-- A completed wide read on a bound port is its lanes. -/
theorem dataRead_readLaneList {s u : State} {w : Width} {k : BitVec 2} (hp : s.phase = .init)
    (h : exec (dataReadInstr w k) s = .next u) : s.fault = false ∧ ∃ σ bs, ReadLaneList s k (List.range w.bytes) s.start σ bs ∧
      u.result = Result.ofWord w (assemble bs) ∧ u.toController = σ.toController ∧ u.draws = σ.draws ∧ u.input = σ.input := by
  have hf := (exec_effect h).1
  refine ⟨hf, ?_⟩
  cases ht : s.resolve with
  | error c =>
    rw [exec_dataReadInstr, ioRead_dataRead_noTarget w k hf hp ht] at h
    cases h
    exact ⟨s.start, _, .of_noTarget ht k _ _, ofWord_allOnes w, rfl, rfl, rfl⟩
  | ok t =>
    obtain ⟨σ, bs, hl, rfl⟩ := dataRead_lanes hp ht h
    exact ⟨σ, bs, .of_target ht hl, rfl, rfl, rfl, rfl⟩

/-! ## The 1-byte reads that follow the lanes -/

section ByteReads

variable {s : State} (hf : s.fault = false) (hp : s.phase = .init)
include hf hp

/-- A 1-byte read of the lane's register returns the lane's byte, at any latch of the same target. -/
theorem Synced.dataRd8 {σ σ' τ : State} (h : Synced s σ τ) {k k' : BitVec 2} {i : Nat} {b : Byte}
    (hreg : laneBase τ.latch k' = regNum s.latch k i) (hlane : ReadLane s k i σ σ' b) :
    ∃ τ', exec (.dataRd8 k') τ = .next τ' ∧ τ'.result = .rdata8 b ∧ Synced s σ' τ' ∧ τ'.latch = τ.latch := by
  have hfτ := h.fault.trans hf
  have hpτ := h.phase.trans hp
  rcases hlane with ⟨t, ht, hr⟩ | ⟨⟨c, hc⟩, rfl, rfl⟩
  · have hrel := (Synced.laneRel s t).regRdByte h.start (regNum s.latch k i)
    rw [hr] at hrel
    obtain ⟨⟨τ', b'⟩, hτ, hsync, rfl⟩ := hrel.ok
    have hτ' := (regRdByte_onlyCell hτ).latch
    refine ⟨_, exec_dataRd8_of_lane hfτ hpτ (h.resolve.trans ht) (by rw [hreg, hτ]), rfl, ?_, hτ'⟩
    exact ⟨hsync.wide, hsync.bytes, hsync.draws, hsync.input, hsync.target⟩
  · refine ⟨_, (exec_dataRd8 k' τ).trans (ioRead_dataRead_noTarget .w1 k' hfτ hpτ (h.resolve.trans hc)), rfl, ?_, rfl⟩
    exact ⟨h.wide, h.bytes, h.draws, h.input, h.target⟩

/-- R55: the 1-byte reads, each after an ADDR_WR of its register, return the bytes of the lanes. -/
theorem Synced.byteReads {k : BitVec 2} {is : List Nat} {σ σ' τ : State} {bs : List Byte}
    (hlanes : ReadLaneList s k is σ σ' bs) (h : Synced s σ τ) :
    ∃ τ', byteReads s.latch k is τ = some (τ', bs) ∧ Synced s σ' τ' := by
  induction hlanes generalizing τ with
  | nil σ => exact ⟨τ, rfl, h⟩
  | @cons i is σ σ₁ σ' b bs hlane _ ih =>
    have haddr : exec (.addrWr (latchFor s.latch (regNum s.latch k i))) τ = .next _ :=
      exec_addrWr_bound _ (h.fault.trans hf) (h.phase.trans hp)
    obtain ⟨τ₁, hτ₁, hres, hsync, -⟩ := (h.setLatch (latchFor_sameTarget s.latch _)).dataRd8 hf hp
      (latchFor_laneBase s.latch _) hlane
    obtain ⟨τ', hτ', hsync'⟩ := ih hsync
    refine ⟨τ', ?_, hsync'⟩
    have hrun : runInstrs [.addrWr (latchFor s.latch (regNum s.latch k i)),
        .dataRd8 ((regNum s.latch k i).extractLsb' 0 2)] τ = .next τ₁ :=
      (runInstrs_cons _ haddr).trans ((runInstrs_singleton _ _).trans hτ₁)
    simp only [Claims.byteReads, hrun, hres, hτ', Option.map_some]

/-- R54: within a group, the 1-byte read at the access's own latch. -/
theorem Synced.group_dataRd8 {σ σ' τ : State} (h : Synced s σ τ) (hl : τ.latch = s.latch) {k : BitVec 2} {i : Nat} {b : Byte}
    (hi : k.toNat + i < 4) (hlane : ReadLane s k i σ σ' b) :
    ∃ τ', exec (.dataRd8 (k + BitVec.ofNat 2 i)) τ = .next τ' ∧ τ'.result = .rdata8 b ∧ Synced s σ' τ' ∧
      τ'.latch = s.latch := by
  obtain ⟨τ', hτ', hres, hsync, hl'⟩ := h.dataRd8 hf hp (by rw [hl, laneBase_add _ _ hi]) hlane
  exact ⟨τ', hτ', hres, hsync, hl'.trans hl⟩

/-- The 1-byte reads of any offsets, and then the latch put back, have the effect of the wide read. -/
theorem byteReads_sameEffect {k : BitVec 2} {is : List Nat} {σ u : State} {bs : List Byte}
    (hlanes : ReadLaneList s k is s.start σ bs)
    (hu : u.toController = σ.toController ∧ u.draws = σ.draws ∧ u.input = σ.input) :
    ∃ t, byteReads s.latch k is s = some (t, bs) ∧ SameEffect (.next u) (exec (.addrWr s.latch) t) := by
  obtain ⟨t, ht, hsync⟩ := Synced.byteReads hf hp hlanes (.begin s)
  refine ⟨t, ht, ?_⟩
  rw [exec_addrWr_bound _ (hsync.fault.trans hf) (hsync.phase.trans hp)]
  have hback := hsync.setLatch (.refl s.latch)
  exact ⟨hu.1.trans (hback.toController_eq rfl), hu.2.1.trans hsync.draws.symm, hu.2.2.trans hsync.input.symm⟩

end ByteReads

theorem Synced.sameEffect {s σ τ u : State} (h : Synced s σ τ) (hl : τ.latch = s.latch)
    (hu : u.toController = σ.toController ∧ u.draws = σ.draws ∧ u.input = σ.input) : SameEffect (.next u) (.next τ) :=
  ⟨hu.1.trans (h.toController_eq hl), hu.2.1.trans h.draws.symm, hu.2.2.trans h.input.symm⟩

/-- A completed 2-byte read is its two lanes. -/
theorem dataRd16_lanes {s u : State} {k : BitVec 2} (hp : s.phase = .init) (h : exec (.dataRd16 k) s = .next u) :
    s.fault = false ∧ ∃ σ₀ σ₁ b₀ b₁, ReadLane s k 0 s.start σ₀ b₀ ∧ ReadLane s k 1 σ₀ σ₁ b₁ ∧
      u.result = .rdata16 (b₁ ++ b₀) ∧ u.toController = σ₁.toController ∧ u.draws = σ₁.draws ∧ u.input = σ₁.input := by
  obtain ⟨hf, σ, bs, hl, hres, hu⟩ := dataRead_readLaneList (w := .w2) hp h
  have hrange : List.range Width.w2.bytes = [0, 1] := rfl
  rw [hrange] at hl
  rcases hl with _ | ⟨h₀, _ | ⟨h₁, _ | _⟩⟩
  exact ⟨hf, _, _, _, _, h₀, h₁, hres.trans (ofWord_assemble_pair _ _), hu⟩

/-- A completed 4-byte read is its four lanes. -/
theorem dataRd32_lanes {s u : State} {k : BitVec 2} (hp : s.phase = .init) (h : exec (.dataRd32 k) s = .next u) :
    s.fault = false ∧ ∃ σ₀ σ₁ σ₂ σ₃ b₀ b₁ b₂ b₃, ReadLane s k 0 s.start σ₀ b₀ ∧ ReadLane s k 1 σ₀ σ₁ b₁ ∧
      ReadLane s k 2 σ₁ σ₂ b₂ ∧ ReadLane s k 3 σ₂ σ₃ b₃ ∧ u.result = .rdata32 (b₃ ++ b₂ ++ b₁ ++ b₀) ∧
      u.toController = σ₃.toController ∧ u.draws = σ₃.draws ∧ u.input = σ₃.input := by
  obtain ⟨hf, σ, bs, hl, hres, hu⟩ := dataRead_readLaneList (w := .w4) hp h
  have hrange : List.range Width.w4.bytes = [0, 1, 2, 3] := rfl
  rw [hrange] at hl
  rcases hl with _ | ⟨h₀, _ | ⟨h₁, _ | ⟨h₂, _ | ⟨h₃, _ | _⟩⟩⟩⟩
  exact ⟨hf, _, _, _, _, _, _, _, _, h₀, h₁, h₂, h₃, hres.trans (congrArg Result.rdata32 (assemble_quad _ _ _ _)), hu⟩

/-- Settles O25: each lane of the wide read is followed by its 1-byte read, within a group and at any offset. -/
theorem wideReadIsItsByteReads : Obligations.WideReadIsItsByteReads := by
  refine fun s hp => ⟨fun u h => ?_, fun k u hk h => ?_, fun k u h => ?_, fun k u h => ?_⟩
  · obtain ⟨hf, σ₀, σ₁, σ₂, σ₃, b₀, b₁, b₂, b₃, h₀, h₁, h₂, h₃, hres, hu⟩ := dataRd32_lanes hp h
    obtain ⟨u₀, e₀, r₀, s₀, l₀⟩ := (Synced.begin s).group_dataRd8 hf hp rfl (by decide) h₀
    obtain ⟨u₁, e₁, r₁, s₁, l₁⟩ := s₀.group_dataRd8 hf hp l₀ (by decide) h₁
    obtain ⟨u₂, e₂, r₂, s₂, l₂⟩ := s₁.group_dataRd8 hf hp l₁ (by decide) h₂
    obtain ⟨u₃, e₃, r₃, s₃, l₃⟩ := s₂.group_dataRd8 hf hp l₂ (by decide) h₃
    exact ⟨u₀, u₁, u₂, u₃, b₀, b₁, b₂, b₃, e₀, r₀, e₁, r₁, e₂, r₂, e₃, r₃, hres, s₃.sameEffect l₃ hu⟩
  · have hlt : ∀ k : BitVec 2, k ≠ 3#2 → k.toNat + 0 < 4 ∧ k.toNat + 1 < 4 := by decide
    obtain ⟨hf, σ₀, σ₁, b₀, b₁, h₀, h₁, hres, hu⟩ := dataRd16_lanes hp h
    obtain ⟨u₀, e₀, r₀, s₀, l₀⟩ := (Synced.begin s).group_dataRd8 hf hp rfl (hlt k hk).1 h₀
    obtain ⟨u₁, e₁, r₁, s₁, l₁⟩ := s₀.group_dataRd8 hf hp l₀ (hlt k hk).2 h₁
    rw [BitVec.add_zero] at e₀
    exact ⟨u₀, u₁, b₀, b₁, e₀, r₀, e₁, r₁, hres, s₁.sameEffect l₁ hu⟩
  · obtain ⟨hf, σ₀, σ₁, b₀, b₁, h₀, h₁, hres, hu⟩ := dataRd16_lanes hp h
    obtain ⟨t, ht, heff⟩ := byteReads_sameEffect hf hp (.cons h₀ (.cons h₁ (.nil _))) hu
    exact ⟨t, b₀, b₁, ht, hres, heff⟩
  · obtain ⟨hf, σ₀, σ₁, σ₂, σ₃, b₀, b₁, b₂, b₃, h₀, h₁, h₂, h₃, hres, hu⟩ := dataRd32_lanes hp h
    obtain ⟨t, ht, heff⟩ := byteReads_sameEffect hf hp (.cons h₀ (.cons h₁ (.cons h₂ (.cons h₃ (.nil _))))) hu
    exact ⟨t, b₀, b₁, b₂, b₃, ht, hres, heff⟩

end Sys2Proof.Machine
end
